-- ==== Sys2Proof/Word.lean ====
section
/-! DEFINITION. The word types of the block. All values are unsigned (00_scope.md R11); bit 0 is the least significant
bit (R10). -/

namespace Sys2Proof

/-- `u8`, one byte. -/
abbrev Byte := BitVec 8

/-- `u16`. -/
abbrev U16 := BitVec 16

/-- `u4`, a nibble. -/
abbrev Nibble := BitVec 4

/-- The 32-bit command word of 30_encoding.md R80. -/
abbrev Word := BitVec 32

/-- An 11-bit CAN identifier (00_scope.md R13; 92_eei_decisions.md D47: no other identifier exists). -/
abbrev Ident := BitVec 11

/-- The eight data bytes `d[0..7]` of a frame or of a chunk. -/
abbrev Data8 := Vector Byte 8

end Sys2Proof
end

