-- ==== Sys2Proof/Config.lean ====
section
/-! DEFINITION. The configuration record `Cfg` of 00_scope.md R5: what an implementation fixes. No operation writes it.
The spec leaves every value below open except the few it gives a source value for; a state carries its configuration
(log 1), and `Config.ex` is the spec's own example EX (95_test_vectors.md section 1; log 2). -/

namespace Sys2Proof

/-- 00_scope.md R5, field by field. A bit index or a byte offset is a `Fin` of its stated range, a `uN` value a bit
vector of N bits; the ranges a type does not carry are checks of WellFormed.lean. -/
structure Cfg where
  /-- ID_M_IGN -/
  idMIgn : Ident
  /-- ID_M_WHEEL -/
  idMWheel : Ident
  /-- ID_M_ODO -/
  idMOdo : Ident
  /-- ID_M_RPM -/
  idMRpm : Ident
  /-- ID_L_START -/
  idLStart : Ident
  /-- ID_L_ACK; may equal ID_L_START -/
  idLAck : Ident
  /-- M_IGN_ON_BIT -/
  mIgnOnBit : Fin 8
  /-- M_IGN_START_BIT -/
  mIgnStartBit : Fin 8
  /-- M_IGN_ACC_BIT -/
  mIgnAccBit : Fin 8
  /-- M_GEAR_BIT; the only legal value is 1 -/
  mGearBit : Fin 8
  /-- M_SPD_LO -/
  mSpdLo : Fin 8
  /-- M_SPD_HI -/
  mSpdHi : Fin 8
  /-- M_WP_LO -/
  mWpLo : Fin 8
  /-- M_WP_HI -/
  mWpHi : Fin 8
  /-- M_TEMP -/
  mTemp : Fin 8
  /-- M_ODO_OFF -/
  mOdoOff : Fin 6
  /-- M_RPM_LO -/
  mRpmLo : Fin 8
  /-- M_RPM_HI -/
  mRpmHi : Fin 8
  /-- ID_S_IGN -/
  idSIgn : Ident
  /-- ID_S_WHEEL -/
  idSWheel : Ident
  /-- ID_S_GEAR -/
  idSGear : Ident
  /-- ID_S_DIM -/
  idSDim : Ident
  /-- ID_S_ODO -/
  idSOdo : Ident
  /-- ID_S_LANG -/
  idSLang : Ident
  /-- ID_S_CFG -/
  idSCfg : Ident
  /-- S_KEYIN -/
  sKeyin : Byte
  /-- S_ACC -/
  sAcc : Byte
  /-- S_IGN_ON -/
  sIgnOn : Byte
  /-- S_START -/
  sStart : Byte
  /-- S_GEAR_REV -/
  sGearRev : Byte
  /-- S_GEAR_DRIVE -/
  sGearDrive : Byte
  /-- W_SPEED_OFF -/
  wSpeedOff : Fin 7
  /-- W_RPM_OFF -/
  wRpmOff : Fin 7
  /-- W_DELTA_OFF -/
  wDeltaOff : Fin 7
  /-- D_LEVEL_OFF -/
  dLevelOff : Fin 3
  /-- D_NIGHT_OFF -/
  dNightOff : Fin 3
  /-- D_NIGHT_BIT -/
  dNightBit : Fin 8
  /-- O_ODO_OFF -/
  oOdoOff : Fin 5
  /-- O_TEMP_OFF -/
  oTempOff : Fin 7
  /-- CFG_DATA -/
  cfgData : Data8
  /-- LANG_DEFAULT -/
  langDefault : Byte
  /-- DIM_K, 1..65535 -/
  dimK : U16
  /-- DIM_LOWER -/
  dimLower : Byte
  /-- DIM_UPPER -/
  dimUpper : Byte
  /-- DIV_A, 1..255 -/
  divA : Byte
  /-- DIV_B, 1..255 -/
  divB : Byte
  /-- DIV_C, 1..255 -/
  divC : Byte
  /-- DIV_D, 1..255 -/
  divD : Byte
  /-- TICK_PERIOD_MS; timing only, no rule reads it (43_schedule.md R163) -/
  tickPeriodMs : Nat
  /-- WAIT_LIMIT; 0 means no timeout -/
  waitLimit : U16
  /-- ID_L_OPEN -/
  idLOpen : Ident
  /-- OPEN_DATA -/
  openData : Vector Byte 3
  /-- ID_L_PRE -/
  idLPre : Ident
  /-- PRE_DATA -/
  preData : Vector Byte 6
  /-- START_ACK_B0 -/
  startAckB0 : Byte
  /-- PRE_ACK_B0 -/
  preAckB0 : Byte
  /-- ACK_MARK, low nibble 0 -/
  ackMark : Byte
  /-- CLOSE_NIB -/
  closeNib : Nibble
  /-- MK_MORE -/
  mkMore : BitVec 3
  /-- MK_LAST -/
  mkLast : BitVec 3
  /-- MK_WAIT; never emitted (93_implementation_defined.md I6) -/
  mkWait : BitVec 3
  /-- ID_L_DATA -/
  idLData : Ident
  /-- ID_L_CLOSE -/
  idLClose : Ident
  /-- CLOSE_DATA, one byte -/
  closeData : Byte
  /-- BUF_CAP, 8..65528, a multiple of 8 -/
  bufCap : Nat
  /-- TX_RETRY_LIMIT; 0 means retry without bound -/
  txRetryLimit : U16
deriving DecidableEq, Repr

/-- The example configuration EX of 95_test_vectors.md section 1. DESIGN CHOICE (log 2): the reset state of the model
uses it, since the spec leaves the values open; unsafe for a claim that rests on one of its numbers. -/
def Config.ex : Cfg where
  idMIgn := 0x010#11
  idMWheel := 0x020#11
  idMOdo := 0x030#11
  idMRpm := 0x040#11
  idLStart := 0x050#11
  idLAck := 0x051#11
  mIgnOnBit := 1
  mIgnStartBit := 2
  mIgnAccBit := 0
  mGearBit := 1
  mSpdLo := 2
  mSpdHi := 3
  mWpLo := 4
  mWpHi := 5
  mTemp := 6
  mOdoOff := 0
  mRpmLo := 0
  mRpmHi := 1
  idSIgn := 0x200#11
  idSWheel := 0x210#11
  idSGear := 0x220#11
  idSDim := 0x230#11
  idSOdo := 0x240#11
  idSLang := 0x250#11
  idSCfg := 0x260#11
  sKeyin := 0x01#8
  sAcc := 0x02#8
  sIgnOn := 0x04#8
  sStart := 0x08#8
  sGearRev := 0x02#8
  sGearDrive := 0x01#8
  wSpeedOff := 0
  wRpmOff := 2
  wDeltaOff := 4
  dLevelOff := 0
  dNightOff := 1
  dNightBit := 0
  oOdoOff := 0
  oTempOff := 3
  cfgData := #v[0x01#8, 0#8, 0#8, 0#8, 0#8, 0#8, 0#8, 0#8]
  langDefault := 0x02#8
  dimK := 16#16
  dimLower := 0x40#8
  dimUpper := 0x60#8
  divA := 2#8
  divB := 10#8
  divC := 20#8
  divD := 40#8
  tickPeriodMs := 50
  waitLimit := 0#16
  idLOpen := 0x300#11
  openData := #v[0x01#8, 0x02#8, 0x03#8]
  idLPre := 0x301#11
  preData := #v[0x10#8, 0x11#8, 0x12#8, 0x13#8, 0x14#8, 0x15#8]
  startAckB0 := 0xC1#8
  preAckB0 := 0xC3#8
  ackMark := 0xB0#8
  closeNib := 0xA#4
  mkMore := 2#3
  mkLast := 1#3
  mkWait := 0#3
  idLData := 0x302#11
  idLClose := 0x303#11
  closeData := 0xA8#8
  bufCap := 64
  txRetryLimit := 0#16

end Sys2Proof
end

