-- ==== Sys2Proof/Syntax.lean ====
section
/-! DEFINITION. The thirteen commands of 30_encoding.md R85, one constructor per row of spec/opcode_table.json. An
operand's type carries exactly the values its row's operand bits admit (R80, R85; log 10). -/

namespace Sys2Proof

/-- A decoded command (30_encoding.md R85). -/
inductive Instr where
  /-- 0x00 NOP (46_control.md R200) -/
  | nop
  /-- 0x01 MFRAME: the inbound frame is in the RX registers (40_decode.md R110) -/
  | mframe
  /-- 0x02 SFRAME: the inbound frame is in the RX registers (40_decode.md R117) -/
  | sframe
  /-- 0x03 TICK (43_schedule.md R160) -/
  | tick
  /-- 0x04 DIM, ARG = raw sample (42_dimming.md R150) -/
  | dim (sample : U16)
  /-- 0x05 ENC, ARG[10:0] = target identifier (41_encode.md R131) -/
  | enc (id : Ident)
  /-- 0x06 LSTEP, F_REQ and F_FRAME (44_link_protocol.md R170) -/
  | lstep (req : Bool) (frame : Bool)
  /-- 0x07 LRESET (44_link_protocol.md R180) -/
  | lreset
  /-- 0x08 BCLR (45_frame_buffer.md R190) -/
  | bclr
  /-- 0x09 BAPP, ARG[7:0] = byte (45_frame_buffer.md R191) -/
  | bapp (b : Byte)
  /-- 0x0A CHUNK (45_frame_buffer.md R193) -/
  | chunk
  /-- 0x0B ECLR, ARG = mask of err bits to clear (46_control.md R201) -/
  | eclr (mask : U16)
  /-- 0x0C SRESET (46_control.md R202) -/
  | sreset
deriving DecidableEq, Repr

end Sys2Proof
end

