-- ==== Sys2Proof/WellFormed.lean ====
section
/-! DEFINITION. The well-formedness conditions (a)-(k) of 00_scope.md R6, the ranges of R5's tables that no field's type
carries, and well-formed commands. A model refuses a configuration that fails any of them (R6, R234;
93_implementation_defined.md I1): `Machine.step` does so by name. -/

namespace Sys2Proof

/-- R5's constraints that no field's type carries. -/
abbrev Cfg.RangesOk (c : Cfg) : Prop :=
  c.mGearBit = 1 ∧ c.dimK ≠ 0#16 ∧ c.divA ≠ 0#8 ∧ c.divB ≠ 0#8 ∧ c.divC ≠ 0#8 ∧ c.divD ≠ 0#8 ∧
    8 ≤ c.bufCap ∧ c.bufCap ≤ 65528

/-- R6 (a): the decode identifiers are pairwise distinct and none is a Link identifier. -/
abbrev Cfg.MasterIdsDistinct (c : Cfg) : Prop :=
  [c.idMIgn, c.idMWheel, c.idMOdo, c.idMRpm].Nodup ∧
    c.idLStart ∉ [c.idMIgn, c.idMWheel, c.idMOdo, c.idMRpm] ∧ c.idLAck ∉ [c.idMIgn, c.idMWheel, c.idMOdo, c.idMRpm]

/-- R6 (b): the seven slave identifiers are pairwise distinct. -/
abbrev Cfg.SlaveIdsDistinct (c : Cfg) : Prop :=
  [c.idSIgn, c.idSWheel, c.idSGear, c.idSDim, c.idSOdo, c.idSLang, c.idSCfg].Nodup

/-- R6 (c): the three ignition bits are pairwise distinct. -/
abbrev Cfg.IgnBitsDistinct (c : Cfg) : Prop :=
  [c.mIgnOnBit, c.mIgnStartBit, c.mIgnAccBit].Nodup

/-- The byte ranges `[a, a+1]` and `[b, b+1]` share no byte. -/
abbrev Cfg.Disjoint2 (a b : Nat) : Prop := a + 2 ≤ b ∨ b + 2 ≤ a

/-- R6 (d): the three 2-byte fields of the wheel frame are pairwise disjoint. -/
abbrev Cfg.WheelFieldsDisjoint (c : Cfg) : Prop :=
  Cfg.Disjoint2 c.wSpeedOff.val c.wRpmOff.val ∧ Cfg.Disjoint2 c.wSpeedOff.val c.wDeltaOff.val ∧ Cfg.Disjoint2 c.wRpmOff.val c.wDeltaOff.val

/-- R6 (e). -/
abbrev Cfg.DimOffsetsDiffer (c : Cfg) : Prop := c.dLevelOff ≠ c.dNightOff

/-- R6 (f): O_TEMP_OFF lies outside [O_ODO_OFF, O_ODO_OFF+2]. -/
abbrev Cfg.TempOutsideOdo (c : Cfg) : Prop :=
  c.oTempOff.val < c.oOdoOff.val ∨ c.oOdoOff.val + 2 < c.oTempOff.val

/-- R6 (g). -/
abbrev Cfg.ThresholdsOrdered (c : Cfg) : Prop := c.dimLower < c.dimUpper

/-- R6 (h): DIV_A, DIV_B and DIV_C each divide DIV_D. -/
abbrev Cfg.DivisorsDivide (c : Cfg) : Prop :=
  c.divA.toNat ∣ c.divD.toNat ∧ c.divB.toNat ∣ c.divD.toNat ∧ c.divC.toNat ∣ c.divD.toNat

/-- R6 (i). -/
abbrev Cfg.CapMultipleOf8 (c : Cfg) : Prop := c.bufCap % 8 = 0

/-- R6 (j). -/
abbrev Cfg.AckMarkLowNibbleZero (c : Cfg) : Prop := c.ackMark.toNat % 16 = 0

/-- R6 (k): the three chunk markers are pairwise distinct. -/
abbrev Cfg.MarkersDistinct (c : Cfg) : Prop := [c.mkMore, c.mkLast, c.mkWait].Nodup

/-- 00_scope.md R6: all of (a)-(k), with R5's ranges. -/
abbrev Cfg.WellFormed (c : Cfg) : Prop :=
  c.RangesOk ∧ c.MasterIdsDistinct ∧ c.SlaveIdsDistinct ∧ c.IgnBitsDistinct ∧ c.WheelFieldsDisjoint ∧
    c.DimOffsetsDiffer ∧ c.TempOutsideOdo ∧ c.ThresholdsOrdered ∧ c.DivisorsDivide ∧ c.CapMultipleOf8 ∧
    c.AckMarkLowNibbleZero ∧ c.MarkersDistinct

/-- A well-formed command. Every value of an operand's type is one that the row's operand bits admit (30_encoding.md
R85), so no check is left to make (log 10). -/
def Instr.wellFormed : Instr → Bool
  | .nop | .mframe | .sframe | .tick | .dim _ | .enc _ | .lstep _ _ | .lreset | .bclr | .bapp _ | .chunk | .eclr _
  | .sreset => true

end Sys2Proof
end

