-- ==== Sys2Proof/Decode.lean ====
section
/-! DEFINITION. The command word (30_encoding.md R80-R85): its fields, the decoder, the encoder. The decoder is total; a
word that matches no row of the opcode map is rejected under the name of the first cause of R83 that holds (log 11). What
a rejected word does (raise BAD_CMD) is Machine/HostPort.lean's. -/

namespace Sys2Proof

/-- Why a word is illegal: the four causes of 30_encoding.md R83. -/
inductive DecodeError where
  /-- an opcode 0x0D-0xFF -/
  | unknownOpcode
  /-- a reserved bit [15:10] set -/
  | reservedBits
  /-- a flag bit [9:8] set on a command other than LSTEP -/
  | flagBits
  /-- an ARG bit set that the row requires to be 0 -/
  | argBits
deriving DecidableEq, Repr

/-- OPC, bits [7:0] (R80). -/
def wordOpc (w : Word) : Byte := w.extractLsb' 0 8

/-- F_REQ, bit [8] (R80). -/
def wordReq (w : Word) : Bool := w.getLsbD 8

/-- F_FRAME, bit [9] (R80). -/
def wordFrame (w : Word) : Bool := w.getLsbD 9

/-- The reserved bits [15:10] (R80). -/
def wordReserved (w : Word) : BitVec 6 := w.extractLsb' 10 6

/-- ARG, bits [31:16] (R80). -/
def wordArg (w : Word) : U16 := w.extractLsb' 16 16

/-- The word of R81, `cmdStage[3]*2^24 + cmdStage[2]*2^16 + cmdStage[1]*2^8 + v`. -/
def commandWord (b3 b2 b1 b0 : Byte) : Word :=
  BitVec.ofNat 32 (b3.toNat * 2 ^ 24 + b2.toNat * 2 ^ 16 + b1.toNat * 2 ^ 8 + b0.toNat)

/-- A row of the opcode map: `(W & mask) = match` (R82, R85). -/
def rowMatches (w value mask : Word) : Bool := w &&& mask == value

/-- The first cause of R83 that makes `w` illegal. -/
def rejectReason (w : Word) : DecodeError :=
  if 0x0C < (wordOpc w).toNat then .unknownOpcode
  else if wordReserved w ≠ 0#6 then .reservedBits
  else if (wordReq w || wordFrame w) ∧ wordOpc w ≠ 0x06#8 then .flagBits
  else .argBits

/-- The opcode map of R85, row by row; R83 for a word that no row matches. -/
def decode (w : Word) : Except DecodeError Instr :=
  if rowMatches w 0x00000000#32 0xFFFFFFFF#32 then .ok .nop
  else if rowMatches w 0x00000001#32 0xFFFFFFFF#32 then .ok .mframe
  else if rowMatches w 0x00000002#32 0xFFFFFFFF#32 then .ok .sframe
  else if rowMatches w 0x00000003#32 0xFFFFFFFF#32 then .ok .tick
  else if rowMatches w 0x00000004#32 0x0000FFFF#32 then .ok (.dim (wordArg w))
  else if rowMatches w 0x00000005#32 0xF800FFFF#32 then .ok (.enc ((wordArg w).extractLsb' 0 11))
  else if rowMatches w 0x00000006#32 0xFFFFFCFF#32 then .ok (.lstep (wordReq w) (wordFrame w))
  else if rowMatches w 0x00000007#32 0xFFFFFFFF#32 then .ok .lreset
  else if rowMatches w 0x00000008#32 0xFFFFFFFF#32 then .ok .bclr
  else if rowMatches w 0x00000009#32 0xFF00FFFF#32 then .ok (.bapp ((wordArg w).extractLsb' 0 8))
  else if rowMatches w 0x0000000A#32 0xFFFFFFFF#32 then .ok .chunk
  else if rowMatches w 0x0000000B#32 0x0000FFFF#32 then .ok (.eclr (wordArg w))
  else if rowMatches w 0x0000000C#32 0xFFFFFFFF#32 then .ok .sreset
  else .error (rejectReason w)

/-- A word from its fields (R80); the reserved bits are 0. -/
def packWord (arg : U16) (frame req : Bool) (opc : Byte) : Word :=
  BitVec.ofNat 32 (arg.toNat * 2 ^ 16 + frame.toNat * 2 ^ 9 + req.toNat * 2 ^ 8 + opc.toNat)

/-- The word of a command, written from the same rows of R85. -/
def encode : Instr → Word
  | .nop => packWord 0#16 false false 0x00#8
  | .mframe => packWord 0#16 false false 0x01#8
  | .sframe => packWord 0#16 false false 0x02#8
  | .tick => packWord 0#16 false false 0x03#8
  | .dim sample => packWord sample false false 0x04#8
  | .enc id => packWord (id.setWidth 16) false false 0x05#8
  | .lstep req frame => packWord 0#16 frame req 0x06#8
  | .lreset => packWord 0#16 false false 0x07#8
  | .bclr => packWord 0#16 false false 0x08#8
  | .bapp b => packWord (b.setWidth 16) false false 0x09#8
  | .chunk => packWord 0#16 false false 0x0A#8
  | .eclr mask => packWord mask false false 0x0B#8
  | .sreset => packWord 0#16 false false 0x0C#8

/-- A word of the opcode table as a number whose bit 0 is the word's bit 0; the table's `nbits` low bits count, every
bit above them is 0. -/
def tableWord (nbits w : Nat) : Word := BitVec.ofNat 32 (w % 2 ^ nbits)

/-- What the decoder reads from a table word, laid out as the host writes it: four bytes, the low one last (R81). -/
def decodeTableWord (nbits w : Nat) : Option Instr :=
  let v := tableWord nbits w
  (decode (commandWord (v.extractLsb' 24 8) (v.extractLsb' 16 8) (v.extractLsb' 8 8) (v.extractLsb' 0 8))).toOption

end Sys2Proof
end

