-- ==== Sys2Proof/Machine/Memory.lean ====
section
/-! DEFINITION. The byte array of the frame buffer (10_state.md R27) as a sparse list of cells in one canonical form:
indices strictly rising, no cell equal to what an unlisted index reads as. R27 and R230 set every byte of `buf` to 0 at
reset, so an unlisted index reads 0 (log 6). -/

namespace Sys2Proof.Machine

/-- The listed cells. -/
abbrev Memory := List Host.Cell

/-- What an unlisted index reads as: the reset contents of `buf` (10_state.md R27). -/
def Memory.blank : Byte := 0#8

/-- The byte at index `a`. -/
def Memory.read : Memory → Nat → Byte
  | [], _ => Memory.blank
  | (k, v) :: rest, a => if k = a then v else Memory.read rest a

/-- Put cell `(a, b)` in front of `rest`, unless `b` is what an unlisted index reads as. -/
def Memory.cons (a : Nat) (b : Byte) (rest : Memory) : Memory :=
  if b = Memory.blank then rest else (a, b) :: rest

/-- Store `b` at index `a`, keeping the canonical form. -/
def Memory.write : Memory → Nat → Byte → Memory
  | [], a, b => Memory.cons a b []
  | (k, v) :: rest, a, b =>
    if a < k then Memory.cons a b ((k, v) :: rest)
    else if a = k then Memory.cons a b rest
    else (k, v) :: Memory.write rest a b

/-- The canonical form. -/
abbrev Memory.wf (m : Memory) : Prop :=
  m.Pairwise (fun p q => p.1 < q.1) ∧ ∀ p ∈ m, p.2 ≠ Memory.blank

/-- Every listed index lies below `n`. -/
abbrev Memory.Below (n : Nat) (m : Memory) : Prop := ∀ p ∈ m, p.1 < n

end Sys2Proof.Machine
end

