-- ==== Sys2Proof/Machine/State.lean ====
section
/-! DEFINITION. The machine's state: all that 10_state.md gives the block (R20-R34), and three fields of the model's own
(`cfg` log 1, `inputs` log 3, `outputs` log 4). Plain data. -/

namespace Sys2Proof.Machine

/-- The two buses (10_state.md R31). -/
inductive Bus where
  | master
  | slave
deriving DecidableEq, Repr

/-- A CAN frame (00_scope.md R13). The length is four bits wide because an inbound frame's is (10_state.md R30); a frame
the block sends has `dlc` at most 8 (41_encode.md R130). -/
structure CanFrame where
  id : Ident
  dlc : Nibble
  d : Data8
deriving DecidableEq, Repr

/-- An entry of `txq` (10_state.md R31). -/
structure TxEntry where
  bus : Bus
  frame : CanFrame
deriving DecidableEq, Repr

/-- The Link Protocol state (10_state.md R24). -/
inductive LinkState where
  | idle
  | start
  | preamble
  | info
  | waitForCluster
  | stop
deriving DecidableEq, Repr

/-- The error conditions of 60_exceptions.md R210, in bit order. -/
inductive Err where
  | badCmd
  | busy
  | badFrame
  | decodeShort
  | badTarget
  | bufOvf
  | bufBusy
  | bufEmpty
  | linkTimeout
  | txFail
deriving DecidableEq, Repr

/-- The Signal Store (10_state.md R20). -/
structure SignalStore where
  ignition : Byte
  gearBox : Byte
  speed : U16
  rpm : U16
  /-- last raw pulse count, value < 2048 -/
  wheelPulse : U16
  /-- wrapping difference, value < 2048 -/
  wheelDelta : U16
  /-- odometer[0], least significant -/
  odo0 : Byte
  /-- odometer[1] -/
  odo1 : Byte
  /-- odometer[2], most significant -/
  odo2 : Byte
  temperature : Byte
  /-- the filter state; its high byte is dimLevel (R21) -/
  dimAvg : U16
  nightMode : Bool
  language : Byte
  isMetric : Bool
deriving DecidableEq, Repr

/-- What an agent does next (00_scope.md R8; log 3): the host writes or reads a register, the transmit collaborator
accepts or rejects, the reset source asserts power-on reset. -/
inductive Input where
  | write (a v : Byte)
  | read (a : Byte)
  | attempt (accepted : Bool)
  | powerOnReset
deriving DecidableEq, Repr

/-- The observable output (60_exceptions.md R216, R217; log 4): a frame that left the block, or a register read with the
byte it returned. -/
inductive Output where
  | sent (e : TxEntry)
  | readValue (a v : Byte)
deriving DecidableEq, Repr

/-- The state. -/
structure State where
  /-- the configuration, fixed (00_scope.md R5); the model's own field (log 1) -/
  cfg : Cfg
  /-- R20 -/
  store : SignalStore
  /-- R23 -/
  tickCnt : Byte
  /-- R24 -/
  lstate : LinkState
  /-- R25 -/
  seq : Nibble
  /-- R26 -/
  waitCnt : U16
  /-- R27 -/
  buf : Memory
  /-- R27 -/
  bufLen : U16
  /-- R27, R28 -/
  cursor : U16
  /-- R29 -/
  chunkLen : Nibble
  /-- R29 -/
  chunkLast : Bool
  /-- R29 -/
  chunkData : Data8
  /-- R30, cmdStage[1] -/
  cmd1 : Byte
  /-- R30, cmdStage[2] -/
  cmd2 : Byte
  /-- R30, cmdStage[3] -/
  cmd3 : Byte
  /-- R30 -/
  rxId : Ident
  /-- R30 -/
  rxDlc : Nibble
  /-- R30 -/
  rxData : Data8
  /-- R31, head first -/
  txq : List TxEntry
  /-- R31 -/
  txTries : U16
  /-- R34 -/
  err : U16
  /-- what the agents do next, oldest first; the model's own field (log 3) -/
  inputs : List Input
  /-- what has been observed, oldest first; the model's own field (log 4) -/
  outputs : List Output
deriving DecidableEq, Repr

/-- Why the machine stops with a fault. -/
inductive Fault where
  /-- Raised by the frame-buffer accesses of BAPP, CHUNK and a Link Protocol chunk fetch at an index the buffer does not
  have (10_state.md R27: `buf[0..BUF_CAP-1]`). No state that keeps R27 and R28 raises it. Safe (log 6). -/
  | bufferRange (index : Nat)
deriving DecidableEq, Repr

/-- Why the machine refuses to go on. -/
inductive Refusal where
  /-- Raised by an arm of `exec` for a command that has no meaning yet; no arm does. Safe. -/
  | notModelled (mnemonic : String)
  /-- Raised by `step` for a configuration that breaks 00_scope.md R6: no rule of the spec applies to it
  (93_implementation_defined.md I1). Safe (log 1). -/
  | illFormedConfig
deriving DecidableEq, Repr

/-- The Signal Store after reset (10_state.md R20, 70_reset_and_hazards.md R230). -/
def SignalStore.resetWith (c : Cfg) : SignalStore where
  ignition := 0#8
  gearBox := 0#8
  speed := 0#16
  rpm := 0#16
  wheelPulse := 0#16
  wheelDelta := 0#16
  odo0 := 0#8
  odo1 := 0#8
  odo2 := 0#8
  temperature := 0#8
  dimAvg := 0x8000#16
  nightMode := false
  language := c.langDefault
  isMetric := true

/-- The block built from configuration `c`, right after reset (70_reset_and_hazards.md R230, R234), with no agent's
action pending. -/
def State.resetWith (c : Cfg) : State where
  cfg := c
  store := SignalStore.resetWith c
  tickCnt := 0#8
  lstate := .idle
  seq := 0#4
  waitCnt := 0#16
  buf := []
  bufLen := 0#16
  cursor := 0#16
  chunkLen := 0#4
  chunkLast := false
  chunkData := Vector.replicate 8 0#8
  cmd1 := 0#8
  cmd2 := 0#8
  cmd3 := 0#8
  rxId := 0#11
  rxDlc := 0#4
  rxData := Vector.replicate 8 0#8
  txq := []
  txTries := 0#16
  err := 0#16
  inputs := []
  outputs := []

/-- The machine right after reset, built from the spec's example configuration EX (log 2). -/
def State.reset : State := State.resetWith Config.ex

end Sys2Proof.Machine
end

