-- ==== Sys2Proof/Machine/Operands.lean ====
section
/-! DEFINITION. Operand forms: bytes of a 16-bit value (20_memory.md R55), bytes and length of a frame (00_scope.md R12,
R13), the inbound frame of the RX registers (30_encoding.md R86), the derived lengths (00_scope.md R7). -/

namespace Sys2Proof

/-- `v[7:0]` of a 16-bit value. -/
def lo16 (v : U16) : Byte := v.extractLsb' 0 8

/-- `v[15:8]` of a 16-bit value. -/
def hi16 (v : U16) : Byte := v.extractLsb' 8 8

/-- The value `{h, l} = h*256 + l` of two bytes (00_scope.md R11). -/
def pairValue (h l : Byte) : Nat := h.toNat * 256 + l.toNat

/-- Eight data bytes from a list, 0 where the list ends. -/
def bytes8 (l : List Byte) : Data8 := Vector.ofFn fun i => l.getD i.val 0#8

/-- All data bytes 0 (41_encode.md R132). -/
def zero8 : Data8 := Vector.replicate 8 0#8

/-- `d[i] <- b`. -/
def put (d : Data8) (i : Nat) (b : Byte) : Data8 := d.setIfInBounds i b

/-- LEN_IGN (00_scope.md R7). -/
def Cfg.lenIgn (_ : Cfg) : Nat := 1

/-- LEN_WHEEL (00_scope.md R7). -/
def Cfg.lenWheel (c : Cfg) : Nat :=
  1 + max 0 (max c.mSpdLo.val (max c.mSpdHi.val (max c.mWpLo.val (max c.mWpHi.val c.mTemp.val))))

/-- LEN_ODO (00_scope.md R7). -/
def Cfg.lenOdo (c : Cfg) : Nat := c.mOdoOff.val + 3

/-- LEN_RPM (00_scope.md R7). -/
def Cfg.lenRpm (c : Cfg) : Nat := 1 + max c.mRpmLo.val c.mRpmHi.val

namespace Machine

/-- Data byte `d[i]`. -/
def CanFrame.byte (f : CanFrame) (i : Nat) : Byte := f.d.getD i 0#8

/-- `frame(id, n, d)`: the data bytes n..7 are 0 (00_scope.md R12, 41_encode.md R130). -/
def mkFrame (id : Ident) (n : Nat) (d : Data8) : CanFrame where
  id := id
  dlc := BitVec.ofNat 4 n
  d := Vector.ofFn fun i => if i.val < n then d.getD i.val 0#8 else 0#8

/-- A frame is malformed when its length exceeds 8 (30_encoding.md R87). -/
def CanFrame.malformed (f : CanFrame) : Bool := 8 < f.dlc.toNat

/-- The inbound frame as the RX registers hold it (30_encoding.md R86). -/
def rxFrame (s : State) : CanFrame := ⟨s.rxId, s.rxDlc, s.rxData⟩

end Machine
end Sys2Proof
end

