-- ==== Sys2Proof/Machine/Flags.lean ====
section
/-! DEFINITION. The flags of the block (10_state.md R36): the ERR bits (60_exceptions.md R210), TX_PENDING (R32), the
streaming and waiting conditions, the night-mode hysteresis (42_dimming.md R151), the STATUS and LINKSTAT bytes
(20_memory.md R51). -/

namespace Sys2Proof.Machine

/-- The bit number of an error (60_exceptions.md R210). -/
def Err.bit : Err → Nat
  | .badCmd => 0
  | .busy => 1
  | .badFrame => 2
  | .decodeShort => 3
  | .badTarget => 4
  | .bufOvf => 5
  | .bufBusy => 6
  | .bufEmpty => 7
  | .linkTimeout => 8
  | .txFail => 9

/-- `2^bit(E)` (60_exceptions.md R211). -/
def Err.mask (e : Err) : U16 := BitVec.twoPow 16 e.bit

/-- The 3-bit code of a Link state (10_state.md R24). -/
def LinkState.code : LinkState → BitVec 3
  | .idle => 0#3
  | .start => 1#3
  | .preamble => 2#3
  | .info => 3#3
  | .waitForCluster => 4#3
  | .stop => 5#3

/-- TX_PENDING (10_state.md R32). -/
def txPending (s : State) : Bool := !s.txq.isEmpty

/-- The Link Protocol is streaming (45_frame_buffer.md R194). -/
def LinkState.streaming : LinkState → Bool
  | .info => true
  | .waitForCluster => true
  | _ => false

/-- The states the deadline counts in (43_schedule.md R162). -/
def LinkState.waiting : LinkState → Bool
  | .start => true
  | .preamble => true
  | .waitForCluster => true
  | _ => false

/-- Night mode after an update with dimLevel `level` (42_dimming.md R151). -/
def hysteresis (c : Cfg) (night : Bool) (level : Byte) : Bool :=
  if night = false ∧ level < c.dimLower then true
  else if night = true ∧ c.dimUpper < level then false
  else night

/-- A byte with bit `i` set when `b` holds. -/
def bitIf (b : Bool) (i : Nat) : Byte := if b then BitVec.twoPow 8 i else 0#8

/-- STATUS (20_memory.md R51): [0] TX_PENDING, [1] nightMode, [2] isMetric. -/
def statusByte (s : State) : Byte :=
  bitIf (txPending s) 0 ||| bitIf s.store.nightMode 1 ||| bitIf s.store.isMetric 2

/-- LINKSTAT (20_memory.md R51): [2:0] lstate code, [3] 0, [7:4] seq. -/
def linkstatByte (s : State) : Byte := BitVec.ofNat 8 (s.lstate.code.toNat + s.seq.toNat * 16)

end Sys2Proof.Machine
end

