-- ==== Sys2Proof/Machine/Ops.lean ====
section
/-! DEFINITION. The shared operations: `raise` (the block's only error mechanism: there is no trap entry and no return,
60_exceptions.md R211, R219), `transmit`, the Link Protocol's `setState` and `linkRestart`, `resetState`, the frame-buffer
accesses and the chunk extraction. -/

namespace Sys2Proof.Machine

/-- `raise E` (60_exceptions.md R211): set the bit and nothing else. -/
def raise (e : Err) (s : State) : State := { s with err := s.err ||| e.mask }

/-- `transmit(bus, frame)` (00_scope.md R12): append to the tail of `txq`. -/
def transmit (bus : Bus) (f : CanFrame) (s : State) : State := { s with txq := s.txq ++ [⟨bus, f⟩] }

/-- `setState(x)` (44_link_protocol.md R172). -/
def setState (x : LinkState) (s : State) : State := { s with lstate := x, waitCnt := 0#16 }

/-- `linkRestart()` (44_link_protocol.md R180). -/
def linkRestart (s : State) : State := { s with lstate := .idle, seq := 0#4, waitCnt := 0#16, cursor := 0#16 }

/-- `resetState()` (70_reset_and_hazards.md R230): every piece of the block's state gets its reset value. The
configuration does not change (R233), and neither do the agents' pending inputs and the observed outputs, which are not
the block's (log 7). -/
def resetState (s : State) : State := { State.resetWith s.cfg with inputs := s.inputs, outputs := s.outputs }

/-- `cmdStage[1..3] <- 0` (30_encoding.md R81). -/
def clearStage (s : State) : State := { s with cmd1 := 0#8, cmd2 := 0#8, cmd3 := 0#8 }

/-- Append to the observed outputs (60_exceptions.md R216: `emit Sent`; log 4). -/
def emit (o : Output) (s : State) : State := { s with outputs := s.outputs ++ [o] }

/-- `BufWrite(i, v)` (00_scope.md R12); the buffer has the indices 0..BUF_CAP-1 only (10_state.md R27; log 6). -/
def bufWrite (s : State) (i : Nat) (v : Byte) : Except Fault State :=
  if i < s.cfg.bufCap then .ok { s with buf := s.buf.write i v } else .error (.bufferRange i)

/-- The eight bytes `buf[p..p+7]` (45_frame_buffer.md R192); each index must exist (log 6). -/
def bufRead8 (s : State) (p : Nat) : Except Fault Data8 :=
  if p + 7 < s.cfg.bufCap then .ok (Vector.ofFn fun i => s.buf.read (p + i.val)) else .error (.bufferRange (p + 7))

/-- What `nextChunk()` returns: eight bytes, the length, the last flag (45_frame_buffer.md R192). -/
structure Chunk where
  data : Data8
  len : Nat
  last : Bool
deriving DecidableEq, Repr

/-- `last` of 45_frame_buffer.md R192. -/
def chunkIsLast (s : State) : Bool := s.bufLen.toNat ≤ s.cursor.toNat + 8

/-- `L` of 45_frame_buffer.md R192. -/
def chunkLength (s : State) : Nat :=
  if chunkIsLast s then (if s.bufLen.toNat % 8 = 0 then 8 else s.bufLen.toNat % 8) else 8

/-- `nextChunk()` (45_frame_buffer.md R192): the chunk, and the state with the cursor moved. -/
def nextChunk (s : State) : Except Fault (Chunk × State) :=
  match bufRead8 s s.cursor.toNat with
  | .error e => .error e
  | .ok data =>
    let last := chunkIsLast s
    .ok (⟨data, chunkLength s, last⟩, { s with cursor := if last then 0#16 else s.cursor + 8#16 })

/-- A meaning's outcome from an operation that may fault. -/
def finish (r : Except Fault State) : Host.Outcome State Fault Refusal :=
  match r with
  | .ok s => .next s
  | .error e => .fault e

end Sys2Proof.Machine
end

