-- ==== Sys2Proof/Machine/Buffer.lean ====
section
/-! DEFINITION. The frame buffer commands (45_frame_buffer.md): BCLR, BAPP, CHUNK. -/

namespace Sys2Proof.Machine

/-- BCLR (45_frame_buffer.md R190): the bytes of `buf` are kept. -/
def execBclr (s : State) : Host.Outcome State Fault Refusal :=
  if s.lstate.streaming then .next (raise .bufBusy s)
  else .next { s with bufLen := 0#16, cursor := 0#16 }

/-- The append of 45_frame_buffer.md R191, once its checks have passed. -/
def appendByte (b : Byte) (s : State) : Except Fault State :=
  match bufWrite s s.bufLen.toNat b with
  | .error e => .error e
  | .ok s1 => .ok { s1 with bufLen := s1.bufLen + 1#16 }

/-- BAPP (45_frame_buffer.md R191). -/
def execBapp (b : Byte) (s : State) : Host.Outcome State Fault Refusal :=
  if s.lstate.streaming then .next (raise .bufBusy s)
  else if s.bufLen.toNat = s.cfg.bufCap then .next (raise .bufOvf s)
  else finish (appendByte b s)

/-- Put the next chunk into the chunk result registers (45_frame_buffer.md R193, 10_state.md R29). -/
def fetchChunk (s : State) : Except Fault State :=
  match nextChunk s with
  | .error e => .error e
  | .ok (ch, s1) =>
    .ok { s1 with chunkData := ch.data, chunkLen := BitVec.ofNat 4 ch.len, chunkLast := ch.last }

/-- CHUNK (45_frame_buffer.md R193). -/
def execChunk (s : State) : Host.Outcome State Fault Refusal :=
  if s.lstate.streaming then .next (raise .bufBusy s)
  else if s.bufLen = 0#16 then .next (raise .bufEmpty s)
  else finish (fetchChunk s)

end Sys2Proof.Machine
end

