-- ==== Sys2Proof/Machine/Control.lean ====
section
/-! DEFINITION. The control commands (46_control.md): NOP, ECLR, SRESET. -/

namespace Sys2Proof.Machine

/-- NOP (46_control.md R200). -/
def execNop (s : State) : Host.Outcome State Fault Refusal := .next s

/-- ECLR (46_control.md R201). -/
def execEclr (mask : U16) (s : State) : Host.Outcome State Fault Refusal := .next { s with err := s.err &&& ~~~mask }

/-- SRESET (46_control.md R202): `txq` and `txTries` are among what resetState writes. -/
def execSreset (s : State) : Host.Outcome State Fault Refusal := .next (resetState s)

end Sys2Proof.Machine
end

