-- ==== Sys2Proof/Machine/Dimming.lean ====
section
/-! DEFINITION. The dimming filter and the night-mode hysteresis (42_dimming.md): DIM. -/

namespace Sys2Proof.Machine

/-- The filter's next state, an exact integer (42_dimming.md R150; `round` is floor, 93_implementation_defined.md I3). The
subtraction never goes below 0, since floor(s/K) ≤ s. -/
def filterNext (k r s : Nat) : Nat := r / k + (s - s / k)

/-- DIM (42_dimming.md R150, R151). -/
def execDim (sample : U16) (s : State) : Host.Outcome State Fault Refusal :=
  let avg : U16 := BitVec.ofNat 16 (filterNext s.cfg.dimK.toNat sample.toNat s.store.dimAvg.toNat)
  .next { s with
    store := { s.store with
      dimAvg := avg
      nightMode := hysteresis s.cfg s.store.nightMode (hi16 avg) } }

end Sys2Proof.Machine
end

