-- ==== Sys2Proof/Machine/Link.lean ====
section
/-! DEFINITION. The Link Protocol (44_link_protocol.md): the recognisers and frame layouts of 30_encoding.md R95-R97, the
step, and the commands LSTEP and LRESET. -/

namespace Sys2Proof.Machine

/-- An inbound frame is a start-ack (30_encoding.md R96 (a)). -/
def isStartAck (c : Cfg) (f : Option CanFrame) : Bool :=
  match f with
  | none => false
  | some f => 1 ≤ f.dlc.toNat && f.id == c.idLStart && f.byte 0 == c.startAckB0

/-- An inbound frame is a preamble-ack (30_encoding.md R96 (b)). -/
def isPreambleAck (c : Cfg) (f : Option CanFrame) : Bool :=
  match f with
  | none => false
  | some f => 1 ≤ f.dlc.toNat && f.id == c.idLAck && f.byte 0 == c.preAckB0

/-- `ACK_MARK | s` (30_encoding.md R95 (d), R96 (c)). -/
def ackByte (c : Cfg) (s : Nibble) : Byte := c.ackMark ||| s.setWidth 8

/-- An inbound frame is the chunk-ack for sequence `s` (30_encoding.md R96 (c)). -/
def isChunkAck (c : Cfg) (s : Nibble) (f : Option CanFrame) : Bool :=
  match f with
  | none => false
  | some f => 1 ≤ f.dlc.toNat && f.id == c.idLAck && f.byte 0 == ackByte c s

/-- The received sequence of a close frame, none where the frame is no close (30_encoding.md R96 (d)). -/
def closeSeq (c : Cfg) (f : Option CanFrame) : Option Nibble :=
  match f with
  | none => none
  | some f =>
    if 1 ≤ f.dlc.toNat && f.id == c.idLAck && (f.byte 0).extractLsb' 4 4 == c.closeNib then
      some ((f.byte 0).extractLsb' 0 4)
    else none

/-- The open-request frame (30_encoding.md R95 (a)). -/
def openFrame (c : Cfg) : CanFrame := mkFrame c.idLOpen 3 (bytes8 c.openData.toList)

/-- The preamble frame (30_encoding.md R95 (b)). -/
def preambleFrame (c : Cfg) : CanFrame := mkFrame c.idLPre 6 (bytes8 c.preData.toList)

/-- The close acknowledgement for received sequence `rxseq` (30_encoding.md R95 (d)). -/
def closeAckFrame (c : Cfg) (rxseq : Nibble) : CanFrame := mkFrame c.idLData 1 (bytes8 [ackByte c (rxseq + 1#4)])

/-- The close-acknowledge frame (30_encoding.md R95 (e)). -/
def closeFrame (c : Cfg) : CanFrame := mkFrame c.idLClose 1 (bytes8 [c.closeData])

/-- The leading byte `marker*16 + seq` (30_encoding.md R97). -/
def leadByte (c : Cfg) (last : Bool) (seq : Nibble) : Byte :=
  BitVec.ofNat 8 ((if last then c.mkLast.toNat else c.mkMore.toNat) * 16 + seq.toNat)

/-- The data chunk frame (30_encoding.md R95 (c), 44_link_protocol.md R173): byte 0, the header slot, is the leading
byte, and bytes at `len` and beyond are not copied. -/
def dataFrame (c : Cfg) (seq : Nibble) (ch : Chunk) : CanFrame :=
  mkFrame c.idLData ch.len (put ch.data 0 (leadByte c ch.last seq))

/-- `sendChunk()` (44_link_protocol.md R173). -/
def sendChunk (s : State) : Except Fault State :=
  match nextChunk s with
  | .error e => .error e
  | .ok (ch, s1) =>
    let s2 := transmit .master (dataFrame s.cfg s.seq ch) s1
    let s3 := { s2 with seq := s2.seq + 1#4 }
    .ok (if ch.last then s3 else setState .waitForCluster s3)

/-- The Idle action (44_link_protocol.md R174). -/
def linkIdle (req : Bool) (s : State) : State :=
  if req then setState .start (transmit .master (openFrame s.cfg) s) else s

/-- The Start action (44_link_protocol.md R175). -/
def linkStart (f : Option CanFrame) (s : State) : State :=
  if isStartAck s.cfg f then setState .preamble (transmit .master (preambleFrame s.cfg) s) else s

/-- The Preamble action (44_link_protocol.md R176). -/
def linkPreamble (f : Option CanFrame) (s : State) : State :=
  if isPreambleAck s.cfg f then setState .info s else s

/-- The Info action (44_link_protocol.md R177). -/
def linkInfo (f : Option CanFrame) (s : State) : Except Fault State :=
  match closeSeq s.cfg f with
  | some rxseq => .ok (setState .stop (transmit .master (closeAckFrame s.cfg rxseq) s))
  | none => if s.bufLen = 0#16 then .ok (raise .bufEmpty s) else sendChunk s

/-- The WaitForCluster action (44_link_protocol.md R178). -/
def linkWait (f : Option CanFrame) (s : State) : State :=
  if isChunkAck s.cfg s.seq f then setState .info s else s

/-- The Stop action (44_link_protocol.md R179). -/
def linkStop (s : State) : State :=
  setState .idle (transmit .master (closeFrame s.cfg) { s with seq := 0#4 })

/-- `linkStep(req, f)` (44_link_protocol.md R171): one state's action, chosen by the state at entry. -/
def linkStep (req : Bool) (f : Option CanFrame) (s : State) : Except Fault State :=
  match s.lstate with
  | .idle => .ok (linkIdle req s)
  | .start => .ok (linkStart f s)
  | .preamble => .ok (linkPreamble f s)
  | .info => linkInfo f s
  | .waitForCluster => .ok (linkWait f s)
  | .stop => .ok (linkStop s)

/-- LSTEP (44_link_protocol.md R170). -/
def execLstep (req frame : Bool) (s : State) : Host.Outcome State Fault Refusal :=
  if frame && (rxFrame s).malformed then .next (raise .badFrame s)
  else finish (linkStep req (if frame then some (rxFrame s) else none) s)

/-- LRESET (44_link_protocol.md R180). -/
def execLreset (s : State) : Host.Outcome State Fault Refusal := .next (linkRestart s)

end Sys2Proof.Machine
end

