-- ==== Sys2Proof/Machine/MasterDecode.lean ====
section
/-! DEFINITION. Master-bus decode (40_decode.md): MFRAME and SFRAME. -/

namespace Sys2Proof.Machine

/-- The ignition value of byte 0 (40_decode.md R113): ON, then START, then ACC, else 0. -/
def ignitionValue (c : Cfg) (b : Byte) : Byte :=
  if b.getLsbD c.mIgnOnBit.val then c.sKeyin ||| c.sIgnOn
  else if b.getLsbD c.mIgnStartBit.val then c.sKeyin ||| c.sStart
  else if b.getLsbD c.mIgnAccBit.val then c.sKeyin ||| c.sAcc
  else 0#8

/-- decodeIgn (40_decode.md R113). -/
def decodeIgn (f : CanFrame) (s : State) : State :=
  if f.dlc.toNat < s.cfg.lenIgn then raise .decodeShort s
  else { s with store := { s.store with ignition := ignitionValue s.cfg (f.byte 0) } }

/-- The low 11 bits of the wheel-pulse input (40_decode.md R114). -/
def rawPulse (c : Cfg) (f : CanFrame) : Nat := pairValue (f.byte c.mWpHi.val) (f.byte c.mWpLo.val) % 2048

/-- decodeWheel (40_decode.md R114). The delta is unsigned modulo 2048, from the old wheelPulse. -/
def decodeWheel (f : CanFrame) (s : State) : State :=
  if f.dlc.toNat < s.cfg.lenWheel then raise .decodeShort s
  else
    let c := s.cfg
    let raw := rawPulse c f
    { s with
      store := { s.store with
        gearBox := if (f.byte 0).getLsbD c.mGearBit.val then c.sGearRev else c.sGearDrive
        speed := BitVec.ofNat 16 (pairValue (f.byte c.mSpdHi.val) (f.byte c.mSpdLo.val) * 2)
        wheelDelta := BitVec.ofNat 16 (((raw : Int) - s.store.wheelPulse.toNat) % 2048).toNat
        wheelPulse := BitVec.ofNat 16 raw
        temperature := f.byte c.mTemp.val } }

/-- The 24-bit odometer input, doubled modulo 2^24 (40_decode.md R115). -/
def odometerValue (c : Cfg) (f : CanFrame) : BitVec 24 :=
  BitVec.ofNat 24 (((f.byte c.mOdoOff.val).toNat + (f.byte (c.mOdoOff.val + 1)).toNat * 2 ^ 8
    + (f.byte (c.mOdoOff.val + 2)).toNat * 2 ^ 16) * 2)

/-- decodeOdo (40_decode.md R115). -/
def decodeOdo (f : CanFrame) (s : State) : State :=
  if f.dlc.toNat < s.cfg.lenOdo then raise .decodeShort s
  else
    let w := odometerValue s.cfg f
    { s with
      store := { s.store with
        odo0 := w.extractLsb' 0 8
        odo1 := w.extractLsb' 8 8
        odo2 := w.extractLsb' 16 8 } }

/-- decodeRpm (40_decode.md R116). -/
def decodeRpm (f : CanFrame) (s : State) : State :=
  if f.dlc.toNat < s.cfg.lenRpm then raise .decodeShort s
  else
    { s with
      store := { s.store with
        rpm := BitVec.ofNat 16 (pairValue (f.byte s.cfg.mRpmHi.val) (f.byte s.cfg.mRpmLo.val) / 4) } }

/-- MFRAME (40_decode.md R110): dispatch on the identifier; an identifier no arm names is ignored (R118), a Link
identifier is forwarded as one Link step without request (R119). -/
def execMframe (s : State) : Host.Outcome State Fault Refusal :=
  let rx := rxFrame s
  if rx.malformed then .next (raise .badFrame s)
  else if rx.id = s.cfg.idMIgn then .next (decodeIgn rx s)
  else if rx.id = s.cfg.idMWheel then .next (decodeWheel rx s)
  else if rx.id = s.cfg.idMOdo then .next (decodeOdo rx s)
  else if rx.id = s.cfg.idMRpm then .next (decodeRpm rx s)
  else if rx.id = s.cfg.idLStart ∨ rx.id = s.cfg.idLAck then finish (linkStep false (some rx) s)
  else .next s

/-- SFRAME (40_decode.md R117): every well-formed slave frame is ignored. -/
def execSframe (s : State) : Host.Outcome State Fault Refusal :=
  if (rxFrame s).malformed then .next (raise .badFrame s) else .next s

end Sys2Proof.Machine
end

