-- ==== Sys2Proof/Machine/SlaveEncode.lean ====
section
/-! DEFINITION. Slave-bus encode (41_encode.md): `encodeFrame` over the layouts of 30_encoding.md R94, and ENC. Each
frame starts from eight zero bytes (R132). -/

namespace Sys2Proof.Machine

/-- A little-endian two-byte field at offset `i` (20_memory.md R57). -/
def put16 (d : Data8) (i : Nat) (v : U16) : Data8 := put (put d i (lo16 v)) (i + 1) (hi16 v)

/-- The ignition frame (41_encode.md R133). -/
def ignFrame (c : Cfg) (st : SignalStore) : CanFrame := mkFrame c.idSIgn 2 (put zero8 0 st.ignition)

/-- The wheel/engine/speed frame (41_encode.md R134). -/
def wheelFrame (c : Cfg) (st : SignalStore) : CanFrame :=
  mkFrame c.idSWheel 8
    (put16 (put16 (put16 zero8 c.wSpeedOff.val st.speed) c.wRpmOff.val st.rpm) c.wDeltaOff.val st.wheelDelta)

/-- The dimming frame (41_encode.md R135). -/
def dimFrame (c : Cfg) (st : SignalStore) : CanFrame :=
  mkFrame c.idSDim 3 (put (put zero8 c.dLevelOff.val (hi16 st.dimAvg)) c.dNightOff.val (bitIf st.nightMode c.dNightBit.val))

/-- The reverse-gear frame (41_encode.md R136). -/
def gearFrame (c : Cfg) (st : SignalStore) : CanFrame := mkFrame c.idSGear 7 (put zero8 2 st.gearBox)

/-- The language/unit byte (41_encode.md R137): language in the high nibble, metric flag in bit 0. -/
def langByte (st : SignalStore) : Byte :=
  BitVec.ofNat 8 (st.language.toNat % 16 * 16 + (if st.isMetric then 1 else 0))

/-- The language/unit frame (41_encode.md R137). -/
def langFrame (c : Cfg) (st : SignalStore) : CanFrame := mkFrame c.idSLang 4 (put zero8 0 (langByte st))

/-- The odometer+temperature frame (41_encode.md R138). -/
def odoFrame (c : Cfg) (st : SignalStore) : CanFrame :=
  mkFrame c.idSOdo 7
    (put (put (put (put zero8 c.oOdoOff.val st.odo0) (c.oOdoOff.val + 1) st.odo1) (c.oOdoOff.val + 2) st.odo2)
      c.oTempOff.val st.temperature)

/-- The vehicle-config frame (41_encode.md R139). -/
def cfgFrame (c : Cfg) : CanFrame := mkFrame c.idSCfg 8 c.cfgData

/-- `encodeFrame(id)` (41_encode.md R132); none for an identifier that is not one of the seven. -/
def encodeFrame (c : Cfg) (st : SignalStore) (id : Ident) : Option CanFrame :=
  if id = c.idSIgn then some (ignFrame c st)
  else if id = c.idSWheel then some (wheelFrame c st)
  else if id = c.idSGear then some (gearFrame c st)
  else if id = c.idSDim then some (dimFrame c st)
  else if id = c.idSOdo then some (odoFrame c st)
  else if id = c.idSLang then some (langFrame c st)
  else if id = c.idSCfg then some (cfgFrame c)
  else none

/-- `transmit(Slave, encodeFrame(id))` (43_schedule.md R161), for an identifier that is one of the seven. -/
def transmitEncoded (id : Ident) (s : State) : State :=
  match encodeFrame s.cfg s.store id with
  | some f => transmit .slave f s
  | none => s

/-- ENC (41_encode.md R131). -/
def execEnc (id : Ident) (s : State) : Host.Outcome State Fault Refusal :=
  match encodeFrame s.cfg s.store id with
  | some f => .next (transmit .slave f s)
  | none => .next (raise .badTarget s)

end Sys2Proof.Machine
end

