-- ==== Sys2Proof/Machine/Schedule.lean ====
section
/-! DEFINITION. The transmit schedule and the link deadline (43_schedule.md): TICK. -/

namespace Sys2Proof.Machine

/-- The schedule counter after one tick: increment, then modulo DIV_D (43_schedule.md R160). -/
def nextTick (s : State) : Byte := BitVec.ofNat 8 ((s.tickCnt.toNat + 1) % s.cfg.divD.toNat)

/-- `if c mod DIV = 0 : …` (43_schedule.md R161). -/
def gated (count div : Byte) (emission : State → State) (s : State) : State :=
  if count.toNat % div.toNat = 0 then emission s else s

/-- The first group: ignition, wheel, odometer (43_schedule.md R161). -/
def emitGroupA (s : State) : State :=
  transmitEncoded s.cfg.idSOdo (transmitEncoded s.cfg.idSWheel (transmitEncoded s.cfg.idSIgn s))

/-- The second group: dimming, gear (43_schedule.md R161). -/
def emitGroupB (s : State) : State := transmitEncoded s.cfg.idSGear (transmitEncoded s.cfg.idSDim s)

/-- The third group: language (43_schedule.md R161). -/
def emitGroupC (s : State) : State := transmitEncoded s.cfg.idSLang s

/-- The fourth group: vehicle config (43_schedule.md R161). -/
def emitGroupD (s : State) : State := transmitEncoded s.cfg.idSCfg s

/-- `emitGroups(c)` (43_schedule.md R161). -/
def emitGroups (count : Byte) (s : State) : State :=
  gated count s.cfg.divD emitGroupD
    (gated count s.cfg.divC emitGroupC (gated count s.cfg.divB emitGroupB (gated count s.cfg.divA emitGroupA s)))

/-- `linkDeadline()` (43_schedule.md R162). The sum is the exact integer (00_scope.md R11; log 8). -/
def linkDeadline (s : State) : State :=
  if s.cfg.waitLimit ≠ 0#16 ∧ s.lstate.waiting then
    if s.cfg.waitLimit.toNat ≤ s.waitCnt.toNat + 1 then raise .linkTimeout (linkRestart s)
    else { s with waitCnt := s.waitCnt + 1#16 }
  else s

/-- TICK (43_schedule.md R160). -/
def execTick (s : State) : Host.Outcome State Fault Refusal :=
  .next (linkDeadline (emitGroups (nextTick s) { s with tickCnt := nextTick s }))

end Sys2Proof.Machine
end

