-- ==== Sys2Proof/Machine/Dispatch.lean ====
section
/-! DEFINITION. One arm per command: `perform row's rule with the fields of W` (30_encoding.md R82). The BUSY test of R82
comes before, in Machine/HostPort.lean. -/

namespace Sys2Proof.Machine

def exec (i : Instr) (s : State) : Host.Outcome State Fault Refusal :=
  match i with
  | .nop => Sys2Proof.Machine.execNop s
  | .mframe => Sys2Proof.Machine.execMframe s
  | .sframe => Sys2Proof.Machine.execSframe s
  | .tick => Sys2Proof.Machine.execTick s
  | .dim sample => Sys2Proof.Machine.execDim sample s
  | .enc id => Sys2Proof.Machine.execEnc id s
  | .lstep req frame => Sys2Proof.Machine.execLstep req frame s
  | .lreset => Sys2Proof.Machine.execLreset s
  | .bclr => Sys2Proof.Machine.execBclr s
  | .bapp b => Sys2Proof.Machine.execBapp b s
  | .chunk => Sys2Proof.Machine.execChunk s
  | .eclr mask => Sys2Proof.Machine.execEclr mask s
  | .sreset => Sys2Proof.Machine.execSreset s

end Sys2Proof.Machine
end

