-- ==== Sys2Proof/Machine/Registers.lean ====
section
/-! DEFINITION. The host register space (20_memory.md R51-R55): the read of every address, and the writes that are no
trigger. -/

namespace Sys2Proof.Machine

/-- `RegRead(a)` (20_memory.md R51, R53); reserved and write-only addresses read 0. -/
def regRead (s : State) (a : Byte) : Byte :=
  match a.toNat with
  | 0x04 => statusByte s
  | 0x05 => linkstatByte s
  | 0x06 => lo16 s.err
  | 0x07 => hi16 s.err
  | 0x08 => s.tickCnt
  | 0x09 => s.store.ignition
  | 0x0A => s.store.gearBox
  | 0x0B => s.store.temperature
  | 0x0C => lo16 s.store.speed
  | 0x0D => hi16 s.store.speed
  | 0x0E => lo16 s.store.rpm
  | 0x0F => hi16 s.store.rpm
  | 0x10 => lo16 s.store.wheelPulse
  | 0x11 => hi16 s.store.wheelPulse &&& 0x07#8
  | 0x12 => lo16 s.store.wheelDelta
  | 0x13 => hi16 s.store.wheelDelta &&& 0x07#8
  | 0x14 => s.store.odo0
  | 0x15 => s.store.odo1
  | 0x16 => s.store.odo2
  | 0x17 => hi16 s.store.dimAvg
  | 0x18 => lo16 s.store.dimAvg
  | 0x19 => hi16 s.store.dimAvg
  | 0x1A => s.store.language
  | 0x1C => lo16 s.bufLen
  | 0x1D => hi16 s.bufLen
  | 0x1E => lo16 s.cursor
  | 0x1F => hi16 s.cursor
  | 0x20 => lo16 s.waitCnt
  | 0x21 => hi16 s.waitCnt
  | 0x22 => BitVec.ofNat 8 (s.txq.length % 8)
  | 0x24 => s.rxId.extractLsb' 0 8
  | 0x25 => (s.rxId.extractLsb' 8 3).setWidth 8
  | 0x26 => s.rxDlc.setWidth 8
  | 0x28 => s.rxData[0]
  | 0x29 => s.rxData[1]
  | 0x2A => s.rxData[2]
  | 0x2B => s.rxData[3]
  | 0x2C => s.rxData[4]
  | 0x2D => s.rxData[5]
  | 0x2E => s.rxData[6]
  | 0x2F => s.rxData[7]
  | 0x30 => s.chunkLen.setWidth 8
  | 0x31 => bitIf s.chunkLast 0
  | 0x38 => s.chunkData[0]
  | 0x39 => s.chunkData[1]
  | 0x3A => s.chunkData[2]
  | 0x3B => s.chunkData[3]
  | 0x3C => s.chunkData[4]
  | 0x3D => s.chunkData[5]
  | 0x3E => s.chunkData[6]
  | 0x3F => s.chunkData[7]
  | _ => 0#8

/-- `RegWrite(a, v)` for an address other than 0x00 (20_memory.md R52). -/
def stageWrite (a v : Byte) (s : State) : State :=
  if a = 0x01#8 then { s with cmd1 := v }
  else if a = 0x02#8 then { s with cmd2 := v }
  else if a = 0x03#8 then { s with cmd3 := v }
  else if a = 0x24#8 then { s with rxId := BitVec.ofNat 11 (s.rxId.toNat / 256 * 256 + v.toNat) }
  else if a = 0x25#8 then { s with rxId := BitVec.ofNat 11 (v.toNat % 8 * 256 + s.rxId.toNat % 256) }
  else if a = 0x26#8 then { s with rxDlc := v.extractLsb' 0 4 }
  else if 0x28 ≤ a.toNat ∧ a.toNat ≤ 0x2F then { s with rxData := put s.rxData (a.toNat - 0x28) v }
  else s

end Sys2Proof.Machine
end

