-- ==== Sys2Proof/Machine/Transmit.lean ====
section
/-! DEFINITION. The transmit collaborator's step (60_exceptions.md R216). -/

namespace Sys2Proof.Machine

/-- `attempt(accepted)` (60_exceptions.md R216). The count saturates at 65535, which only a limit of 0 lets it reach
(93_implementation_defined.md I4; log 8). With `txq` empty there is no attempt, and nothing changes (log 5). -/
def attempt (accepted : Bool) (s : State) : State :=
  match s.txq with
  | [] => s
  | e :: rest =>
    if accepted then emit (.sent e) { s with txq := rest, txTries := 0#16 }
    else if s.cfg.txRetryLimit ≠ 0#16 ∧ s.cfg.txRetryLimit.toNat ≤ s.txTries.toNat + 1 then
      raise .txFail { s with txq := rest, txTries := 0#16 }
    else { s with txTries := if s.txTries = 0xFFFF#16 then s.txTries else s.txTries + 1#16 }

end Sys2Proof.Machine
end

