-- ==== Sys2Proof/Machine/HostPort.lean ====
section
/-! DEFINITION. What one input does: a host write (with the command trigger of 30_encoding.md R81 and the execution rule
R82), a host read, a transmit attempt, a power-on reset. -/

namespace Sys2Proof.Machine

/-- The word SRESET, the one command a non-empty `txq` does not hold up (30_encoding.md R84). -/
def sresetWord : Word := 0x0000000C#32

/-- `execute(W)` (30_encoding.md R82). -/
def execute (w : Word) (s : State) : Host.Outcome State Fault Refusal :=
  if txPending s ∧ w ≠ sresetWord then .next (raise .busy s)
  else
    match decode w with
    | .error _ => .next (raise .badCmd s)
    | .ok i => exec i s

/-- The command word a write of `v` to 0x00 forms (30_encoding.md R81). -/
def triggeredWord (v : Byte) (s : State) : Word := commandWord s.cmd3 s.cmd2 s.cmd1 v

/-- A write of `v` to address 0x00 (30_encoding.md R81): the staging bytes clear whatever happens to the word. -/
def trigger (v : Byte) (s : State) : Host.Outcome State Fault Refusal := execute (triggeredWord v s) (clearStage s)

/-- `RegWrite(a, v)` (20_memory.md R52). -/
def regWrite (a v : Byte) (s : State) : Host.Outcome State Fault Refusal :=
  if a = 0x00#8 then trigger v s else .next (stageWrite a v s)

/-- One input's effect; a read changes nothing but what has been observed (20_memory.md R53; log 4). -/
def perform (i : Input) (s : State) : Host.Outcome State Fault Refusal :=
  match i with
  | .write a v => regWrite a v s
  | .read a => .next (emit (.readValue a (regRead s a)) s)
  | .attempt accepted => .next (attempt accepted s)
  | .powerOnReset => .next (resetState s)

/-- One step of the block: refuse an ill-formed configuration (log 1), else take the oldest input, or stay idle when no
agent acts (70_reset_and_hazards.md R232; log 3). -/
def stepBlock (s : State) : Host.Outcome State Fault Refusal :=
  if s.cfg.WellFormed then
    match s.inputs with
    | [] => .next s
    | i :: rest => perform i { s with inputs := rest }
  else .refused .illFormedConfig

/-- Stage the high bytes of `w` and put the write that triggers it before every other input (30_encoding.md R88; log 3). -/
def issueWord (w : Word) (s : State) : State :=
  { s with
    cmd1 := w.extractLsb' 8 8
    cmd2 := w.extractLsb' 16 8
    cmd3 := w.extractLsb' 24 8
    inputs := .write 0x00#8 (w.extractLsb' 0 8) :: s.inputs }

end Sys2Proof.Machine
end

