-- ==== Sys2Proof/Machine/Step.lean ====
section
/-! DEFINITION. The step of the machine, and the placing of one command where the next step takes it. -/

namespace Sys2Proof.Machine

/-- One step (Machine/HostPort.lean's `stepBlock`). -/
def step (s : State) : Host.Outcome State Fault Refusal := stepBlock s

/-- `s` with the command of a table word staged and its trigger write next (log 3): there is no program memory
(10_state.md R35), the host's writes are the program. -/
def State.withFetchWord (s : State) (nbits w : Nat) : State := issueWord (tableWord nbits w) s

end Sys2Proof.Machine
end

