-- ==== Sys2Proof/Machine/Assembler.lean ====
section
/-! DEFINITION. The host's assembly notation (30_encoding.md R88, R89): the lines, the host accesses each stands for, and
the reading of a line's characters. The block knows none of it: it sees the accesses only. -/

namespace Sys2Proof.Machine

/-- One assembly line: a base form (R88) or a pseudo-instruction (R89). -/
inductive AsmLine where
  | base (i : Instr)
  | wr (a v : Byte)
  | rd (a : Byte)
  | rx (id : Ident) (bytes : List Byte)
  | master (id : Ident) (bytes : List Byte)
  | slave (id : Ident) (bytes : List Byte)
  | lframe (id : Ident) (bytes : List Byte)
  | bapps (bytes : List Byte)
deriving DecidableEq, Repr

/-- R89: a frame's byte list has at most 8 bytes. -/
def AsmLine.wellFormed : AsmLine → Bool
  | .rx _ bytes | .master _ bytes | .slave _ bytes | .lframe _ bytes => bytes.length ≤ 8
  | .base i => i.wellFormed
  | .wr _ _ | .rd _ | .bapps _ => true

/-- `WR a, v` if `v ≠ 0` (R88). -/
def stageInput (a v : Byte) : List Input := if v = 0#8 then [] else [.write a v]

/-- The byte writes a word is issued as, in R88's order. -/
def issueInputs (w : Word) : List Input :=
  stageInput 0x03#8 (w.extractLsb' 24 8) ++ stageInput 0x02#8 (w.extractLsb' 16 8)
    ++ stageInput 0x01#8 (w.extractLsb' 8 8) ++ [.write 0x00#8 (w.extractLsb' 0 8)]

/-- The data bytes of `RX`, from address `a` upwards (R89). -/
def rxByteInputs : Byte → List Byte → List Input
  | _, [] => []
  | a, b :: rest => .write a b :: rxByteInputs (a + 1#8) rest

/-- `RX id, [bytes]` (R89). -/
def rxInputs (id : Ident) (bytes : List Byte) : List Input :=
  [.write 0x24#8 (id.extractLsb' 0 8), .write 0x25#8 ((id.extractLsb' 8 3).setWidth 8),
    .write 0x26#8 (BitVec.ofNat 8 bytes.length)] ++ rxByteInputs 0x28#8 bytes

/-- The host accesses a line stands for, in order (R88, R89). -/
def AsmLine.expand : AsmLine → List Input
  | .base i => issueInputs (encode i)
  | .wr a v => [.write a v]
  | .rd a => [.read a]
  | .rx id bytes => rxInputs id bytes
  | .master id bytes => rxInputs id bytes ++ issueInputs (encode .mframe)
  | .slave id bytes => rxInputs id bytes ++ issueInputs (encode .sframe)
  | .lframe id bytes => rxInputs id bytes ++ issueInputs (encode (.lstep false true))
  | .bapps bytes => bytes.flatMap fun b => issueInputs (encode (.bapp b))

/-- A lexical token of a line. -/
inductive AsmToken where
  | word (cs : List Char)
  | comma
  | leftBracket
  | rightBracket
deriving DecidableEq, Repr

/-- Put a finished word in front of the tokens after it. -/
def wordThen (cs : List Char) (rest : List AsmToken) : List AsmToken :=
  if cs = [] then rest else .word cs :: rest

/-- The tokens of a line; `;` starts a comment (R88). `acc` is the word being read, in order. -/
def asmTokens : List Char → List Char → List AsmToken
  | [], acc => wordThen acc []
  | c :: rest, acc =>
    if c = ';' then wordThen acc []
    else if c = ' ' ∨ c = '\t' then wordThen acc (asmTokens rest [])
    else if c = ',' then wordThen acc (.comma :: asmTokens rest [])
    else if c = '[' then wordThen acc (.leftBracket :: asmTokens rest [])
    else if c = ']' then wordThen acc (.rightBracket :: asmTokens rest [])
    else asmTokens rest (acc ++ [c])

/-- The value of a digit below `base`. -/
def asmDigit (base : Nat) (c : Char) : Option Nat :=
  let n := c.toNat
  let v := if 48 ≤ n ∧ n ≤ 57 then n - 48 else if 65 ≤ n ∧ n ≤ 70 then n - 55 else if 97 ≤ n ∧ n ≤ 102 then n - 87 else 99
  if v < base then some v else none

/-- Digits read after the value `acc`. -/
def asmDigits (base : Nat) : List Char → Nat → Option Nat
  | [], acc => some acc
  | c :: rest, acc =>
    match asmDigit base c with
    | some v => asmDigits base rest (acc * base + v)
    | none => none

/-- A number, `0x` hexadecimal or decimal (R88). -/
def asmNumber : List Char → Option Nat
  | '0' :: 'x' :: c :: rest => asmDigits 16 (c :: rest) 0
  | c :: rest => asmDigits 10 (c :: rest) 0
  | [] => none

/-- A number of `n` bits; a number that does not fit is rejected (log 12). -/
def asmBits (n : Nat) (cs : List Char) : Option (BitVec n) :=
  match asmNumber cs with
  | some v => if v < 2 ^ n then some (BitVec.ofNat n v) else none
  | none => none

/-- The rest of a byte list, after its `[` or a comma. -/
def asmItems : List AsmToken → Option (List Byte)
  | [.word b, .rightBracket] => (asmBits 8 b).map fun v => [v]
  | .word b :: .comma :: rest =>
    match asmBits 8 b, asmItems rest with
    | some v, some vs => some (v :: vs)
    | _, _ => none
  | _ => none

/-- A byte list `[b0, ..., b(n-1)]`, possibly empty. -/
def asmBytes : List AsmToken → Option (List Byte)
  | [.leftBracket, .rightBracket] => some []
  | .leftBracket :: rest => asmItems rest
  | _ => none

/-- A base form without operand (R88). -/
def asmPlain (cs : List Char) : Option Instr :=
  if cs = ['N', 'O', 'P'] then some .nop
  else if cs = ['M', 'F', 'R', 'A', 'M', 'E'] then some .mframe
  else if cs = ['S', 'F', 'R', 'A', 'M', 'E'] then some .sframe
  else if cs = ['T', 'I', 'C', 'K'] then some .tick
  else if cs = ['L', 'S', 'T', 'E', 'P'] then some (.lstep false false)
  else if cs = ['L', 'S', 'T', 'E', 'P', '.', 'R'] then some (.lstep true false)
  else if cs = ['L', 'S', 'T', 'E', 'P', '.', 'F'] then some (.lstep false true)
  else if cs = ['L', 'S', 'T', 'E', 'P', '.', 'R', 'F'] then some (.lstep true true)
  else if cs = ['L', 'R', 'E', 'S', 'E', 'T'] then some .lreset
  else if cs = ['B', 'C', 'L', 'R'] then some .bclr
  else if cs = ['C', 'H', 'U', 'N', 'K'] then some .chunk
  else if cs = ['S', 'R', 'E', 'S', 'E', 'T'] then some .sreset
  else none

/-- A form with one number: `DIM v`, `ENC id`, `BAPP b`, `ECLR m`, `RD a`. -/
def asmOneNumber (cs v : List Char) : Option AsmLine :=
  if cs = ['D', 'I', 'M'] then (asmBits 16 v).map fun x => .base (.dim x)
  else if cs = ['E', 'N', 'C'] then (asmBits 11 v).map fun x => .base (.enc x)
  else if cs = ['B', 'A', 'P', 'P'] then (asmBits 8 v).map fun x => .base (.bapp x)
  else if cs = ['E', 'C', 'L', 'R'] then (asmBits 16 v).map fun x => .base (.eclr x)
  else if cs = ['R', 'D'] then (asmBits 8 v).map fun x => .rd x
  else none

/-- A form with an identifier and a byte list: RX, MASTER, SLAVE, LFRAME (R89). -/
def asmFrameForm (cs : List Char) (id : Ident) (bytes : List Byte) : Option AsmLine :=
  if 8 < bytes.length then none
  else if cs = ['R', 'X'] then some (.rx id bytes)
  else if cs = ['M', 'A', 'S', 'T', 'E', 'R'] then some (.master id bytes)
  else if cs = ['S', 'L', 'A', 'V', 'E'] then some (.slave id bytes)
  else if cs = ['L', 'F', 'R', 'A', 'M', 'E'] then some (.lframe id bytes)
  else none

/-- `WR a, v` (R89). -/
def asmWrite (cs a v : List Char) : Option AsmLine :=
  if cs = ['W', 'R'] then
    match asmBits 8 a, asmBits 8 v with
    | some a, some v => some (.wr a v)
    | _, _ => none
  else none

/-- A line from its tokens. -/
def asmParse : List AsmToken → Option AsmLine
  | [.word cs] => (asmPlain cs).map .base
  | [.word cs, .word v] => asmOneNumber cs v
  | [.word cs, .word a, .comma, .word v] => asmWrite cs a v
  | .word cs :: .word id :: .comma :: rest =>
    match asmBits 11 id, asmBytes rest with
    | some id, some bytes => asmFrameForm cs id bytes
    | _, _ => none
  | .word cs :: rest =>
    if cs = ['B', 'A', 'P', 'P', 'S'] then (asmBytes rest).map .bapps else none
  | _ => none

/-- Read the characters of one line (R88); none where they are no line. -/
def asmLine (cs : List Char) : Option AsmLine := asmParse (asmTokens cs [])

end Sys2Proof.Machine
end

