-- ==== Sys2Proof/Safety.lean ====
section
/-! DEFINITION. The terms statements are written in: the invariant of the reachable states, normal frames, repeated
commands. -/

namespace Sys2Proof.Machine

/-- A frame in normal form: at most 8 bytes, and its data bytes at index DLC..7 are 0 (41_encode.md R130). -/
abbrev CanFrame.Normal (f : CanFrame) : Prop :=
  f.dlc.toNat ≤ 8 ∧ ∀ i < 8, f.dlc.toNat ≤ i → f.byte i = 0#8

/-- 10_state.md R27, R28, and the canonical form of the cell list. -/
abbrev BufferInv (s : State) : Prop :=
  Memory.wf s.buf ∧ Memory.Below s.cfg.bufCap s.buf ∧ s.bufLen.toNat ≤ s.cfg.bufCap ∧ s.cursor.toNat % 8 = 0 ∧
    (s.cursor = 0#16 ∨ s.cursor.toNat < s.bufLen.toNat)

/-- The values the Signal Store's fields can hold: 10_state.md R20, R22; 40_decode.md R113, R114, R116. -/
abbrev StoreInv (s : State) : Prop :=
  s.store.wheelPulse.toNat < 2048 ∧ s.store.wheelDelta.toNat < 2048 ∧ s.store.rpm.toNat < 2 ^ 14 ∧
    s.store.language = s.cfg.langDefault ∧ s.store.isMetric = true ∧
    s.store.ignition ∈ [0#8, s.cfg.sKeyin ||| s.cfg.sIgnOn, s.cfg.sKeyin ||| s.cfg.sStart, s.cfg.sKeyin ||| s.cfg.sAcc] ∧
    s.store.gearBox ∈ [0#8, s.cfg.sGearRev, s.cfg.sGearDrive]

/-- The schedule counter (10_state.md R23) and the deadline counter (R26; 43_schedule.md R162), which counts only in a
waiting state and below WAIT_LIMIT; a transfer that waits for an acknowledgement stands inside the buffer. -/
abbrev LinkInv (s : State) : Prop :=
  s.tickCnt.toNat < s.cfg.divD.toNat ∧ (s.lstate.waiting = false → s.waitCnt = 0#16) ∧
    (s.cfg.waitLimit = 0#16 → s.waitCnt = 0#16) ∧
    (s.cfg.waitLimit ≠ 0#16 → s.waitCnt.toNat < s.cfg.waitLimit.toNat) ∧
    (s.lstate = .waitForCluster → s.cursor ≠ 0#16)

/-- The transmit queue (10_state.md R31, R33; 41_encode.md R130; 60_exceptions.md R216). -/
abbrev TxInv (s : State) : Prop :=
  s.txq.length ≤ 7 ∧ (∀ e ∈ s.txq, e.frame.Normal) ∧ (s.txq = [] → s.txTries = 0#16) ∧
    (s.cfg.txRetryLimit ≠ 0#16 → s.txTries.toNat < s.cfg.txRetryLimit.toNat)

/-- The invariant of the reachable states: a well-formed configuration (00_scope.md R6), the buffer, the store, the
counters, the queue, err[15:10] = 0 (10_state.md R34) and chunkLen in 0..8 (R29). -/
abbrev BlockInv (s : State) : Prop :=
  s.cfg.WellFormed ∧ BufferInv s ∧ StoreInv s ∧ LinkInv s ∧ TxInv s ∧ s.err.toNat < 1024 ∧ s.chunkLen.toNat ≤ 8

/-- The word of 30_encoding.md R81 as a number: `cmdStage[3]*2^24 + cmdStage[2]*2^16 + cmdStage[1]*2^8 + v`. -/
def stagedNat (s : State) (v : Byte) : Nat :=
  s.cmd3.toNat * 2 ^ 24 + s.cmd2.toNat * 2 ^ 16 + s.cmd1.toNat * 2 ^ 8 + v.toNat

/-- The causes of 30_encoding.md R83 on a word as a number: the opcode, a reserved bit, a flag bit on another command than
LSTEP, an ARG bit that the command's row of R85 requires to be 0. -/
def IllegalNat (w : Nat) : Prop :=
  let opc := w % 256
  let arg := w / 2 ^ 16
  0x0C < opc ∨ w / 2 ^ 10 % 64 ≠ 0 ∨ (w / 2 ^ 8 % 4 ≠ 0 ∧ opc ≠ 0x06) ∨
    (arg ≠ 0 ∧ opc ≠ 0x04 ∧ opc ≠ 0x05 ∧ opc ≠ 0x09 ∧ opc ≠ 0x0B) ∨ (2048 ≤ arg ∧ opc = 0x05) ∨
    (256 ≤ arg ∧ opc = 0x09)

/-- The match and mask columns of the opcode map (30_encoding.md R85), row by row. -/
def opcodeRows : List (Word × Word) :=
  [(0x00000000#32, 0xFFFFFFFF#32), (0x00000001#32, 0xFFFFFFFF#32), (0x00000002#32, 0xFFFFFFFF#32),
    (0x00000003#32, 0xFFFFFFFF#32), (0x00000004#32, 0x0000FFFF#32), (0x00000005#32, 0xF800FFFF#32),
    (0x00000006#32, 0xFFFFFCFF#32), (0x00000007#32, 0xFFFFFFFF#32), (0x00000008#32, 0xFFFFFFFF#32),
    (0x00000009#32, 0xFF00FFFF#32), (0x0000000A#32, 0xFFFFFFFF#32), (0x0000000B#32, 0x0000FFFF#32),
    (0x0000000C#32, 0xFFFFFFFF#32)]

/-- The identifiers of the frames one tick with counter `n` queues, in order (43_schedule.md R161). -/
def tickIds (c : Cfg) (n : Nat) : List Ident :=
  (if n % c.divA.toNat = 0 then [c.idSIgn, c.idSWheel, c.idSOdo] else [])
  ++ (if n % c.divB.toNat = 0 then [c.idSDim, c.idSGear] else [])
  ++ (if n % c.divC.toNat = 0 then [c.idSLang] else [])
  ++ (if n % c.divD.toNat = 0 then [c.idSCfg] else [])

/-- The inbound frame of an LSTEP is no malformed one (30_encoding.md R87, 44_link_protocol.md R170). -/
abbrev FrameUsable (frame : Bool) (s : State) : Prop := frame = true → s.rxDlc.toNat ≤ 8

/-- An LSTEP delivers a frame of at least one byte with identifier `id` (30_encoding.md R96). -/
abbrev Delivers (frame : Bool) (id : Ident) (s : State) : Prop :=
  frame = true ∧ 1 ≤ s.rxDlc.toNat ∧ s.rxId = id

/-- An LSTEP delivers a close frame (30_encoding.md R96 (d)). -/
abbrev DeliversClose (frame : Bool) (s : State) : Prop :=
  Delivers frame s.cfg.idLAck s ∧ s.rxData[0].toNat / 16 = s.cfg.closeNib.toNat

/-- The command `i` performs one Link Protocol step that delivers the RX frame where `frame` says so: LSTEP
(44_link_protocol.md R170), or MFRAME with a Link identifier, which is forwarded with its frame (40_decode.md R119). -/
def LinkStepOf (i : Instr) (frame : Bool) (s : State) : Prop :=
  (∃ req, i = .lstep req frame) ∨ (i = .mframe ∧ frame = true ∧ (s.rxId = s.cfg.idLStart ∨ s.rxId = s.cfg.idLAck))

/-- The command `i` performs one Link Protocol step. -/
def TakesLinkStep (i : Instr) (s : State) : Prop := ∃ frame, LinkStepOf i frame s

/-- The command `i` restarts the Link Protocol: LRESET (44_link_protocol.md R180), or a TICK on which the deadline expires
(43_schedule.md R162). -/
def RestartsLink (i : Instr) (s : State) : Prop :=
  i = .lreset ∨ (i = .tick ∧ s.cfg.waitLimit ≠ 0#16 ∧ s.lstate ∈ [.start, .preamble, .waitForCluster] ∧
    s.cfg.waitLimit.toNat ≤ s.waitCnt.toNat + 1)

/-- The err bits a command may set: the column "raised by" of 60_exceptions.md R210. -/
def raisable (i : Instr) : U16 :=
  match i with
  | .nop => 0x0000#16
  | .mframe => 0x008C#16
  | .sframe => 0x0004#16
  | .tick => 0x0100#16
  | .dim _ => 0x0000#16
  | .enc _ => 0x0010#16
  | .lstep _ _ => 0x0084#16
  | .lreset => 0x0000#16
  | .bclr => 0x0040#16
  | .bapp _ => 0x0060#16
  | .chunk => 0x00C0#16
  | .eclr _ => 0x0000#16
  | .sreset => 0x0000#16

/-- The next chunk is the last one (45_frame_buffer.md R192). -/
abbrev LastChunk (s : State) : Prop := s.bufLen.toNat ≤ s.cursor.toNat + 8

/-- The next chunk's length (45_frame_buffer.md R192). -/
def nextLen (s : State) : Nat :=
  if LastChunk s then (if s.bufLen.toNat % 8 = 0 then 8 else s.bufLen.toNat % 8) else 8

/-- The command `i`, `n` times in a row. -/
def execTimes (i : Instr) : Nat → State → Host.Outcome State Fault Refusal
  | 0, s => .next s
  | n + 1, s =>
    match exec i s with
    | .next t => execTimes i n t
    | .fault r => .fault r
    | .refused r => .refused r

/-- The bytes `c[0..L-1]` the chunk result registers hold. -/
def chunkBytes (s : State) : List Byte := s.chunkData.toList.take s.chunkLen.toNat

/-- The bytes of `n` CHUNK commands in a row, concatenated (45_frame_buffer.md R195). -/
def collectChunks : Nat → State → List Byte
  | 0, _ => []
  | n + 1, s =>
    match exec .chunk s with
    | .next t => chunkBytes t ++ collectChunks n t
    | _ => []

end Sys2Proof.Machine
end

