-- ==== Sys2Proof/Certificates/Slice0/Obligations.lean ====
section
/-! DEFINITION. The statements for the provers. Where a statement speaks of `step`, its premise is a well-formed
configuration (00_scope.md R6): another is refused (log 1). A result written as an equation `… = .next t` says the
frame as well: every field that `t` does not name is unchanged. -/

open Sys2Proof Sys2Proof.Machine

/-! ### Encoding -/

/-- 30_encoding.md R80, R85: decoding the word of a command gives the command back, whatever its operands. -/
def Obligations.DecodeOfEncodeIsIdentity : Prop :=
  ∀ i : Instr, i.wellFormed = true → decode (encode i) = .ok i

/-- 30_encoding.md R80, R85: a legal word is the word of the command it decodes to: no bit of it is dropped. -/
def Obligations.EncodeOfDecodeIsTheWord : Prop :=
  ∀ (w : Word) (i : Instr), decode w = .ok i → encode i = w

/-- 30_encoding.md R82: the masks of the rows do not overlap, so at most one row matches, and a word is rejected exactly
when none does. -/
def Obligations.AtMostOneRowMatches : Prop :=
  ∀ w : Word,
    (opcodeRows.filter fun r => w &&& r.2 == r.1).length ≤ 1 ∧
      ((∃ e, decode w = .error e) ↔ ∀ r ∈ opcodeRows, w &&& r.2 ≠ r.1)

/-- Words written out from 30_encoding.md R85 and 95_test_vectors.md, one per family, decode to their commands. -/
def Obligations.SampleWordsDecode : Prop :=
  decode 0x00000001#32 = .ok .mframe ∧ decode 0x02100005#32 = .ok (.enc 0x210#11) ∧
    decode 0xFFFF0004#32 = .ok (.dim 0xFFFF#16) ∧ decode 0x00000003#32 = .ok .tick ∧
    decode 0x00000106#32 = .ok (.lstep true false) ∧ decode 0x00000206#32 = .ok (.lstep false true) ∧
    decode 0x00990009#32 = .ok (.bapp 0x99#8) ∧ decode 0x0202000B#32 = .ok (.eclr 0x0202#16)

/-! ### The host port -/

/-- A step runs the decoded command: when the next input is the trigger write and the word it forms (30_encoding.md R81)
decodes to `i`, and the command is not held up (R84), the step is `exec i` on the state with the input taken and the
staging bytes cleared. -/
def Obligations.StepRunsTheDecodedCommand : Prop :=
  ∀ (s : State) (v : Byte) (rest : List Input) (i : Instr),
    s.cfg.WellFormed → s.inputs = .write 0x00#8 v :: rest → decode (BitVec.ofNat 32 (stagedNat s v)) = .ok i →
    (s.txq = [] ∨ i = .sreset) →
    step s = exec i { s with inputs := rest, cmd1 := 0#8, cmd2 := 0#8, cmd3 := 0#8 }

/-- 30_encoding.md R84: while `txq` is non-empty a trigger raises BUSY (err bit 1) and changes nothing else but the staging
bytes, which it clears (R81), unless the word is SRESET's, which executes and empties `txq`. -/
def Obligations.PendingFramesHoldUpEveryCommandButSreset : Prop :=
  ∀ (s : State) (v : Byte) (rest : List Input),
    s.cfg.WellFormed → s.inputs = .write 0x00#8 v :: rest → s.txq ≠ [] →
    (stagedNat s v ≠ 0x0000000C →
      step s = .next { s with inputs := rest, cmd1 := 0#8, cmd2 := 0#8, cmd3 := 0#8, err := s.err ||| 0x0002#16 }) ∧
    (stagedNat s v = 0x0000000C →
      ∃ t, exec .sreset { s with inputs := rest, cmd1 := 0#8, cmd2 := 0#8, cmd3 := 0#8 } = .next t ∧
        step s = .next t ∧ t.txq = [])

/-- 30_encoding.md R83: a word with one of the listed causes raises BAD_CMD (err bit 0) and changes nothing else but the
staging bytes, which every trigger clears (R81); a word with none of them is legal; the all-zero word is NOP. -/
def Obligations.IllegalWordsRaiseBadCmd : Prop :=
  (∀ (s : State) (v : Byte) (rest : List Input),
    s.cfg.WellFormed → s.inputs = .write 0x00#8 v :: rest → s.txq = [] → IllegalNat (stagedNat s v) →
    step s = .next { s with inputs := rest, cmd1 := 0#8, cmd2 := 0#8, cmd3 := 0#8, err := s.err ||| 0x0001#16 }) ∧
  (∀ w : Word, ¬IllegalNat w.toNat → ∃ i, decode w = .ok i) ∧ decode 0#32 = .ok .nop

/-- 20_memory.md R52, address by address; no clause asks whether frames are pending. -/
def Obligations.RegisterWrites : Prop :=
  ∀ (s : State) (a v : Byte) (rest : List Input),
    s.cfg.WellFormed → s.inputs = .write a v :: rest →
    (a = 0x00#8 → step s = execute (BitVec.ofNat 32 (stagedNat s v))
      { s with inputs := rest, cmd1 := 0#8, cmd2 := 0#8, cmd3 := 0#8 }) ∧
    (a = 0x01#8 → step s = .next { s with inputs := rest, cmd1 := v }) ∧
    (a = 0x02#8 → step s = .next { s with inputs := rest, cmd2 := v }) ∧
    (a = 0x03#8 → step s = .next { s with inputs := rest, cmd3 := v }) ∧
    (a = 0x24#8 → step s =
      .next { s with inputs := rest, rxId := BitVec.ofNat 11 (s.rxId.toNat / 256 * 256 + v.toNat) }) ∧
    (a = 0x25#8 → step s =
      .next { s with inputs := rest, rxId := BitVec.ofNat 11 (v.toNat % 8 * 256 + s.rxId.toNat % 256) }) ∧
    (a = 0x26#8 → step s = .next { s with inputs := rest, rxDlc := BitVec.ofNat 4 (v.toNat % 16) }) ∧
    (∀ i : Fin 8, a.toNat = 0x28 + i.val → step s = .next { s with inputs := rest, rxData := s.rxData.set i.val v }) ∧
    (a ≠ 0x00#8 → a ≠ 0x01#8 → a ≠ 0x02#8 → a ≠ 0x03#8 → a ≠ 0x24#8 → a ≠ 0x25#8 → a ≠ 0x26#8 →
      (a.toNat < 0x28 ∨ 0x2F < a.toNat) → step s = .next { s with inputs := rest })

/-- 20_memory.md R53: a read answers the map's byte for its address and changes nothing (the model records what was
read, log 4); reserved and write-only addresses read 0. -/
def Obligations.RegisterReadsHaveNoSideEffect : Prop :=
  (∀ (s : State) (a : Byte) (rest : List Input), s.cfg.WellFormed → s.inputs = .read a :: rest →
    step s = .next { s with inputs := rest, outputs := s.outputs ++ [.readValue a (regRead s a)] }) ∧
  (∀ (s : State) (a : Byte),
    (a.toNat ≤ 0x03 ∨ a = 0x1B#8 ∨ a = 0x23#8 ∨ a = 0x27#8 ∨ (0x32 ≤ a.toNat ∧ a.toNat ≤ 0x37) ∨ 0x40 ≤ a.toNat) →
    regRead s a = 0#8)

/-- 20_memory.md R51, R55: the content of every readable address, as a number; little-endian pairs. -/
def Obligations.RegisterMapContents : Prop :=
  ∀ s : State, s.txq.length ≤ 7 →
    (regRead s 0x04#8).toNat = (if s.txq = [] then 0 else 1) + (if s.store.nightMode = true then 2 else 0)
      + (if s.store.isMetric = true then 4 else 0) ∧
    (regRead s 0x05#8).toNat = s.lstate.code.toNat + s.seq.toNat * 16 ∧
    (regRead s 0x06#8).toNat + (regRead s 0x07#8).toNat * 256 = s.err.toNat ∧
    regRead s 0x08#8 = s.tickCnt ∧ regRead s 0x09#8 = s.store.ignition ∧ regRead s 0x0A#8 = s.store.gearBox ∧
    regRead s 0x0B#8 = s.store.temperature ∧
    (regRead s 0x0C#8).toNat + (regRead s 0x0D#8).toNat * 256 = s.store.speed.toNat ∧
    (regRead s 0x0E#8).toNat + (regRead s 0x0F#8).toNat * 256 = s.store.rpm.toNat ∧
    (regRead s 0x10#8).toNat + (regRead s 0x11#8).toNat * 256 = s.store.wheelPulse.toNat % 2048 ∧
    (regRead s 0x12#8).toNat + (regRead s 0x13#8).toNat * 256 = s.store.wheelDelta.toNat % 2048 ∧
    regRead s 0x14#8 = s.store.odo0 ∧ regRead s 0x15#8 = s.store.odo1 ∧ regRead s 0x16#8 = s.store.odo2 ∧
    (regRead s 0x17#8).toNat = s.store.dimAvg.toNat / 256 ∧
    (regRead s 0x18#8).toNat + (regRead s 0x19#8).toNat * 256 = s.store.dimAvg.toNat ∧
    regRead s 0x1A#8 = s.store.language ∧
    (regRead s 0x1C#8).toNat + (regRead s 0x1D#8).toNat * 256 = s.bufLen.toNat ∧
    (regRead s 0x1E#8).toNat + (regRead s 0x1F#8).toNat * 256 = s.cursor.toNat ∧
    (regRead s 0x20#8).toNat + (regRead s 0x21#8).toNat * 256 = s.waitCnt.toNat ∧
    (regRead s 0x22#8).toNat = s.txq.length ∧
    (regRead s 0x24#8).toNat + (regRead s 0x25#8).toNat * 256 = s.rxId.toNat ∧
    (regRead s 0x26#8).toNat = s.rxDlc.toNat ∧
    (∀ i : Fin 8, regRead s (BitVec.ofNat 8 (0x28 + i.val)) = s.rxData[i]) ∧
    (regRead s 0x30#8).toNat = s.chunkLen.toNat ∧
    (regRead s 0x31#8).toNat = (if s.chunkLast = true then 1 else 0) ∧
    (∀ i : Fin 8, regRead s (BitVec.ofNat 8 (0x38 + i.val)) = s.chunkData[i])

/-- 30_encoding.md R88: the byte writes a base form is issued as, with the staging bytes clear and no frame pending, run
exactly that command. -/
def Obligations.AssembledCommandRuns : Prop :=
  ∀ (s : State) (i : Instr) (rest : List Input),
    s.cfg.WellFormed → s.cmd1 = 0#8 → s.cmd2 = 0#8 → s.cmd3 = 0#8 → s.txq = [] →
    s.inputs = (AsmLine.base i).expand ++ rest →
    Sys2Proof.core.run (AsmLine.base i).expand.length s = exec i { s with inputs := rest }

/-- 30_encoding.md R89: the writes of `RX id, [bytes]` with at most 8 bytes load the RX registers with that frame, leave
the data bytes beyond it as they were, and change nothing else. -/
def Obligations.RxLineLoadsTheFrame : Prop :=
  ∀ (s : State) (id : Ident) (bytes : List Byte) (rest : List Input),
    s.cfg.WellFormed → bytes.length ≤ 8 → s.inputs = (AsmLine.rx id bytes).expand ++ rest →
    ∃ d : Data8,
      Sys2Proof.core.run (AsmLine.rx id bytes).expand.length s =
        .next { s with inputs := rest, rxId := id, rxDlc := BitVec.ofNat 4 bytes.length, rxData := d } ∧
      ∀ j : Fin 8, d[j] = if j.val < bytes.length then bytes.getD j.val 0#8 else s.rxData[j]

/-! ### Reset, configuration and the invariant -/

/-- 70_reset_and_hazards.md R230: power-on reset and SRESET write every piece of the block's state with its reset value;
the configuration does not change. What becomes of the model's own fields `inputs` and `outputs` is left open here
(log 7). -/
def Obligations.ResetWritesEveryField : Prop :=
  ∀ (s : State) (rest : List Input),
    let written (ins : List Input) (outs : List Output) : State :=
      { cfg := s.cfg
        store :=
          { ignition := 0#8, gearBox := 0#8, speed := 0#16, rpm := 0#16, wheelPulse := 0#16, wheelDelta := 0#16,
            odo0 := 0#8, odo1 := 0#8, odo2 := 0#8, temperature := 0#8, dimAvg := 0x8000#16, nightMode := false,
            language := s.cfg.langDefault, isMetric := true }
        tickCnt := 0#8, lstate := .idle, seq := 0#4, waitCnt := 0#16, buf := [], bufLen := 0#16, cursor := 0#16,
        chunkLen := 0#4, chunkLast := false, chunkData := #v[0#8, 0#8, 0#8, 0#8, 0#8, 0#8, 0#8, 0#8],
        cmd1 := 0#8, cmd2 := 0#8, cmd3 := 0#8, rxId := 0#11, rxDlc := 0#4,
        rxData := #v[0#8, 0#8, 0#8, 0#8, 0#8, 0#8, 0#8, 0#8], txq := [], txTries := 0#16, err := 0#16,
        inputs := ins, outputs := outs }
    (∃ ins outs, exec .sreset s = .next (written ins outs)) ∧
      (s.cfg.WellFormed → s.inputs = .powerOnReset :: rest → ∃ ins outs, step s = .next (written ins outs)) ∧
      ∀ ins outs a, (written ins outs).buf.read a = 0#8

/-- 70_reset_and_hazards.md R231: after reset only STATUS, DIMLEVEL, DIMAVG_H and LANGUAGE can read other than 0; with EX
LANGUAGE reads 0x02. -/
def Obligations.ResetRegisterReads : Prop :=
  (∀ (c : Cfg) (a : Byte),
    regRead (State.resetWith c) a =
      if a = 0x04#8 then 0x04#8 else if a = 0x17#8 ∨ a = 0x19#8 then 0x80#8
      else if a = 0x1A#8 then c.langDefault else 0#8) ∧
  regRead (State.resetWith Config.ex) 0x1A#8 = 0x02#8

/-- The invariant holds at reset, for every well-formed configuration (the model's own start is EX, log 2). -/
def Obligations.ResetStateSatisfiesTheInvariant : Prop :=
  (∀ c : Cfg, c.WellFormed → BlockInv (State.resetWith c)) ∧ BlockInv State.reset

/-- Every step keeps the invariant: 10_state.md R23, R26-R28, R31, R33, R34, 41_encode.md R130. -/
def Obligations.StepKeepsTheInvariant : Prop :=
  ∀ s t : State, BlockInv s → step s = .next t → BlockInv t

/-- 60_exceptions.md R213, 20_memory.md R54: no state that keeps the invariant stops, whatever the agents do: there is no
fault and no refusal. -/
def Obligations.InvariantStatesNeverStop : Prop :=
  ∀ s : State, BlockInv s → ∃ t, step s = .next t

/-- 00_scope.md R5, R6: a step refuses a configuration exactly when it breaks a constraint of R5's tables or one of
(a)-(k); that the refusal is the step's, under this name, is the model's choice (log 1). -/
def Obligations.IllFormedConfigurationsAreRefused : Prop :=
  ∀ s : State,
    let c := s.cfg
    (step s = .refused .illFormedConfig) ↔
    ¬((c.mGearBit.val = 1 ∧ 1 ≤ c.dimK.toNat ∧ 1 ≤ c.divA.toNat ∧ 1 ≤ c.divB.toNat ∧ 1 ≤ c.divC.toNat ∧
        1 ≤ c.divD.toNat ∧ 8 ≤ c.bufCap ∧ c.bufCap ≤ 65528) ∧
      (c.idMIgn ≠ c.idMWheel ∧ c.idMIgn ≠ c.idMOdo ∧ c.idMIgn ≠ c.idMRpm ∧ c.idMWheel ≠ c.idMOdo ∧
        c.idMWheel ≠ c.idMRpm ∧ c.idMOdo ≠ c.idMRpm ∧
        ∀ i ∈ [c.idMIgn, c.idMWheel, c.idMOdo, c.idMRpm], i ≠ c.idLStart ∧ i ≠ c.idLAck) ∧
      [c.idSIgn, c.idSWheel, c.idSGear, c.idSDim, c.idSOdo, c.idSLang, c.idSCfg].Pairwise (· ≠ ·) ∧
      (c.mIgnOnBit ≠ c.mIgnStartBit ∧ c.mIgnOnBit ≠ c.mIgnAccBit ∧ c.mIgnStartBit ≠ c.mIgnAccBit) ∧
      (∀ x ∈ [c.wSpeedOff.val, c.wSpeedOff.val + 1], ∀ y ∈ [c.wRpmOff.val, c.wRpmOff.val + 1],
        ∀ z ∈ [c.wDeltaOff.val, c.wDeltaOff.val + 1], x ≠ y ∧ x ≠ z ∧ y ≠ z) ∧
      c.dLevelOff ≠ c.dNightOff ∧
      (∀ j < 3, c.oTempOff.val ≠ c.oOdoOff.val + j) ∧
      c.dimLower.toNat < c.dimUpper.toNat ∧
      (c.divD.toNat % c.divA.toNat = 0 ∧ c.divD.toNat % c.divB.toNat = 0 ∧ c.divD.toNat % c.divC.toNat = 0) ∧
      c.bufCap % 8 = 0 ∧ c.ackMark.toNat % 16 = 0 ∧
      (c.mkMore ≠ c.mkLast ∧ c.mkMore ≠ c.mkWait ∧ c.mkLast ≠ c.mkWait))

/-- 00_scope.md R5: no step changes the configuration. -/
def Obligations.ConfigurationNeverChanges : Prop :=
  ∀ s t : State, step s = .next t → t.cfg = s.cfg

/-- What a command may write, SRESET apart, which writes all (10_state.md R22-R31, R34, R36; 20_memory.md R50). The store:
MFRAME its decoded fields, DIM the filter state and nightMode. The Link Protocol's registers: a Link Protocol step, and a
restart (`RestartsLink`); beside them TICK counts `waitCnt`, and CHUNK and BCLR move `cursor`. `seq` moves by one in an
Info step and becomes 0 in a Stop step and a restart. `txq`: ENC, TICK and a Link Protocol step. `err`: ECLR clears its
mask's bits, every other command sets bits of its own only (`raisable`). The staging and RX registers and `txTries`: none. -/
def Obligations.CommandsWriteOnlyTheirState : Prop :=
  ∀ (i : Instr) (s t : State), exec i s = .next t → i ≠ .sreset →
    (i ≠ .mframe → (∀ r, i ≠ .dim r) → t.store = s.store) ∧
    (i ≠ .mframe → t.store = { s.store with dimAvg := t.store.dimAvg, nightMode := t.store.nightMode }) ∧
    ((∀ r, i ≠ .dim r) → t.store.dimAvg = s.store.dimAvg ∧ t.store.nightMode = s.store.nightMode) ∧
    t.store.language = s.store.language ∧ t.store.isMetric = s.store.isMetric ∧
    (i ≠ .tick → t.tickCnt = s.tickCnt) ∧
    (t.lstate = s.lstate ∨ TakesLinkStep i s ∨ (RestartsLink i s ∧ t.lstate = .idle)) ∧
    (t.seq = s.seq ∨ (TakesLinkStep i s ∧ s.lstate = .info ∧ t.seq = s.seq + 1#4) ∨
      (TakesLinkStep i s ∧ s.lstate = .stop ∧ t.seq = 0#4) ∨ (RestartsLink i s ∧ t.seq = 0#4)) ∧
    (t.waitCnt = s.waitCnt ∨ (i = .tick ∧ t.waitCnt = s.waitCnt + 1#16) ∨
      (TakesLinkStep i s ∧ t.waitCnt = 0#16) ∨ (RestartsLink i s ∧ t.waitCnt = 0#16)) ∧
    (t.cursor = s.cursor ∨ t.cursor = 0#16 ∨ t.cursor = s.cursor + 8#16) ∧
    (t.cursor = s.cursor ∨ i = .chunk ∨ i = .bclr ∨ (TakesLinkStep i s ∧ s.lstate = .info) ∨ RestartsLink i s) ∧
    (t.txq = s.txq ∨ i = .tick ∨ (∃ id, i = .enc id) ∨ TakesLinkStep i s) ∧
    ((∀ m, i ≠ .eclr m) → ∃ b : U16, t.err = s.err ||| (b &&& raisable i)) ∧
    (∀ m, i = .eclr m → t.err = s.err &&& ~~~m) ∧
    (i ≠ .chunk → t.chunkLen = s.chunkLen ∧ t.chunkLast = s.chunkLast ∧ t.chunkData = s.chunkData) ∧
    ((∀ b, i ≠ .bapp b) → t.buf = s.buf) ∧
    ((∀ b, i ≠ .bapp b) → i ≠ .bclr → t.bufLen = s.bufLen) ∧
    t.cmd1 = s.cmd1 ∧ t.cmd2 = s.cmd2 ∧ t.cmd3 = s.cmd3 ∧ t.rxId = s.rxId ∧ t.rxDlc = s.rxDlc ∧ t.rxData = s.rxData ∧
    t.txTries = s.txTries ∧ t.cfg = s.cfg ∧ t.inputs = s.inputs ∧ t.outputs = s.outputs

/-- 41_encode.md R130: every frame a command puts into `txq` is in normal form; a command appends at most 7
(10_state.md R33) and takes none away, SRESET apart. -/
def Obligations.QueuedFramesAreNormal : Prop :=
  ∀ (i : Instr) (s t : State), exec i s = .next t → i ≠ .sreset →
    ∃ l : List TxEntry, t.txq = s.txq ++ l ∧ l.length ≤ 7 ∧ ∀ e ∈ l, e.frame.Normal

/-- 60_exceptions.md R214, R215: a command sets at most one error bit; and where a command other than TICK sets a bit
that was clear, it changes nothing else. -/
def Obligations.OneErrorPerCommand : Prop :=
  ∀ (i : Instr) (s t : State), exec i s = .next t → i ≠ .sreset → (∀ m, i ≠ .eclr m) →
    (t.err = s.err ∨ ∃ k < 9, t.err = s.err ||| BitVec.twoPow 16 k) ∧
    (i ≠ .tick → t.err ≠ s.err → t = { s with err := t.err })

/-! ### Transmit attempts -/

/-- 60_exceptions.md R216: an accepted attempt sends the head; a rejected one is counted, and at a non-zero retry limit the
head is dropped and TX_FAIL (err bit 9) is raised. The count saturates (93_implementation_defined.md I4). A Sent event is
recorded in the model's own field `outputs` (log 4). -/
def Obligations.TransmitAttempt : Prop :=
  ∀ (s : State) (accepted : Bool) (rest : List Input) (e : TxEntry) (q : List TxEntry),
    s.cfg.WellFormed → s.inputs = .attempt accepted :: rest → s.txq = e :: q →
    (accepted = true →
      step s = .next { s with inputs := rest, txq := q, txTries := 0#16, outputs := s.outputs ++ [.sent e] }) ∧
    (accepted = false → s.cfg.txRetryLimit.toNat ≠ 0 → s.cfg.txRetryLimit.toNat ≤ s.txTries.toNat + 1 →
      step s = .next { s with inputs := rest, txq := q, txTries := 0#16, err := s.err ||| 0x0200#16 }) ∧
    (accepted = false → (s.cfg.txRetryLimit.toNat = 0 ∨ s.txTries.toNat + 1 < s.cfg.txRetryLimit.toNat) →
      step s = .next { s with
        inputs := rest
        txTries := if s.txTries.toNat = 65535 then s.txTries else s.txTries + 1#16 })

/-- 20_memory.md R63: a collaborator that accepts drains the queue in its order, one frame an attempt; the Sent events are
recorded in `outputs` (log 4). -/
def Obligations.AcceptedFramesLeaveInOrder : Prop :=
  ∀ (s : State) (rest : List Input), s.cfg.WellFormed → s.txq ≠ [] →
    s.inputs = List.replicate s.txq.length (.attempt true) ++ rest →
    Sys2Proof.core.run s.txq.length s =
      .next { s with inputs := rest, txq := [], txTries := 0#16, outputs := s.outputs ++ s.txq.map Output.sent }

/-! ### Master-bus decode -/

/-- 40_decode.md R113: the ignition value, ON before START before ACC, assigned from the masks. -/
def Obligations.IgnitionFrameDecodes : Prop :=
  ∀ s : State, s.cfg.WellFormed → s.rxId = s.cfg.idMIgn → s.rxDlc.toNat ≤ 8 →
    (s.rxDlc.toNat = 0 → exec .mframe s = .next { s with err := s.err ||| 0x0008#16 }) ∧
    (1 ≤ s.rxDlc.toNat →
      exec .mframe s = .next { s with store := { s.store with
        ignition :=
          if s.rxData[0].getLsbD s.cfg.mIgnOnBit.val then s.cfg.sKeyin ||| s.cfg.sIgnOn
          else if s.rxData[0].getLsbD s.cfg.mIgnStartBit.val then s.cfg.sKeyin ||| s.cfg.sStart
          else if s.rxData[0].getLsbD s.cfg.mIgnAccBit.val then s.cfg.sKeyin ||| s.cfg.sAcc
          else 0#8 } })

/-- 40_decode.md R114: gear, speed doubled modulo 2^16 (and byte by byte), the 11-bit pulse count, the wrapping delta from
the old count, the temperature. -/
def Obligations.WheelFrameDecodes : Prop :=
  ∀ s : State, s.cfg.WellFormed → s.rxId = s.cfg.idMWheel → s.rxDlc.toNat ≤ 8 →
    (s.rxDlc.toNat < s.cfg.lenWheel → exec .mframe s = .next { s with err := s.err ||| 0x0008#16 }) ∧
    (s.cfg.lenWheel ≤ s.rxDlc.toNat →
      let lo := s.rxData[s.cfg.mSpdLo].toNat
      let hi := s.rxData[s.cfg.mSpdHi].toNat
      let raw := (s.rxData[s.cfg.mWpHi].toNat * 256 + s.rxData[s.cfg.mWpLo].toNat) % 2048
      ∃ speed delta pulse : U16,
        exec .mframe s = .next { s with store := { s.store with
          gearBox := if s.rxData[0].getLsbD 1 then s.cfg.sGearRev else s.cfg.sGearDrive
          speed := speed, wheelDelta := delta, wheelPulse := pulse, temperature := s.rxData[s.cfg.mTemp] } } ∧
        speed.toNat = (hi * 256 + lo) * 2 % 2 ^ 16 ∧
        speed.toNat % 256 = lo * 2 % 256 ∧ speed.toNat / 256 = (hi * 2 + lo / 128) % 256 ∧
        pulse.toNat = raw ∧ (delta.toNat : Int) = ((raw : Int) - s.store.wheelPulse.toNat) % 2048)

/-- 40_decode.md R115: the 24-bit odometer doubled modulo 2^24, and byte by byte. -/
def Obligations.OdometerFrameDecodes : Prop :=
  ∀ (s : State) (b0 b1 b2 : Byte), s.cfg.WellFormed → s.rxId = s.cfg.idMOdo → s.rxDlc.toNat ≤ 8 →
    s.rxData[s.cfg.mOdoOff.val]? = some b0 → s.rxData[s.cfg.mOdoOff.val + 1]? = some b1 →
    s.rxData[s.cfg.mOdoOff.val + 2]? = some b2 →
    (s.rxDlc.toNat < s.cfg.mOdoOff.val + 3 → exec .mframe s = .next { s with err := s.err ||| 0x0008#16 }) ∧
    (s.cfg.mOdoOff.val + 3 ≤ s.rxDlc.toNat →
      ∃ o0 o1 o2 : Byte,
        exec .mframe s = .next { s with store := { s.store with odo0 := o0, odo1 := o1, odo2 := o2 } } ∧
        o0.toNat + o1.toNat * 2 ^ 8 + o2.toNat * 2 ^ 16 =
          (b0.toNat + b1.toNat * 2 ^ 8 + b2.toNat * 2 ^ 16) * 2 % 2 ^ 24 ∧
        o0.toNat = b0.toNat * 2 % 256 ∧ o1.toNat = (b1.toNat * 2 + b0.toNat / 128) % 256 ∧
        o2.toNat = (b2.toNat * 2 + b1.toNat / 128) % 256)

/-- 40_decode.md R116: the RPM input divided by 4, and byte by byte. -/
def Obligations.RpmFrameDecodes : Prop :=
  ∀ s : State, s.cfg.WellFormed → s.rxId = s.cfg.idMRpm → s.rxDlc.toNat ≤ 8 →
    (s.rxDlc.toNat < s.cfg.lenRpm → exec .mframe s = .next { s with err := s.err ||| 0x0008#16 }) ∧
    (s.cfg.lenRpm ≤ s.rxDlc.toNat →
      let lo := s.rxData[s.cfg.mRpmLo].toNat
      let hi := s.rxData[s.cfg.mRpmHi].toNat
      ∃ rpm : U16, exec .mframe s = .next { s with store := { s.store with rpm := rpm } } ∧
        rpm.toNat = (hi * 256 + lo) / 4 ∧ rpm.toNat % 256 = lo / 4 + hi % 4 * 64 ∧ rpm.toNat / 256 = hi / 4)

/-- 00_scope.md R7: the required lengths, as the positions they must cover: a frame is long enough exactly when every
byte its kind reads lies below the length. -/
def Obligations.RequiredLengthsCoverTheFields : Prop :=
  ∀ (c : Cfg) (n : Nat),
    c.lenIgn = 1 ∧ c.lenOdo = c.mOdoOff.val + 3 ∧
    (c.lenWheel ≤ n ↔ 0 < n ∧ c.mSpdLo.val < n ∧ c.mSpdHi.val < n ∧ c.mWpLo.val < n ∧ c.mWpHi.val < n ∧ c.mTemp.val < n) ∧
    (c.lenRpm ≤ n ↔ c.mRpmLo.val < n ∧ c.mRpmHi.val < n)

/-- 30_encoding.md R87, 40_decode.md R112: an inbound frame of more than 8 bytes raises BAD_FRAME (err bit 2) in MFRAME,
SFRAME and LSTEP with F_FRAME, whatever its identifier, and changes nothing else. -/
def Obligations.MalformedFramesRaiseBadFrame : Prop :=
  ∀ (s : State) (i : Instr), 8 < s.rxDlc.toNat →
    (i = .mframe ∨ i = .sframe ∨ ∃ req, i = .lstep req true) →
    exec i s = .next { s with err := s.err ||| 0x0004#16 }

/-- 40_decode.md R117, R118: every well-formed slave frame, and a master frame with an identifier that is none of the six,
changes nothing and raises nothing. -/
def Obligations.UnmappedFramesAreIgnored : Prop :=
  ∀ s : State, s.rxDlc.toNat ≤ 8 →
    exec .sframe s = .next s ∧
    (s.rxId ≠ s.cfg.idMIgn → s.rxId ≠ s.cfg.idMWheel → s.rxId ≠ s.cfg.idMOdo → s.rxId ≠ s.cfg.idMRpm →
      s.rxId ≠ s.cfg.idLStart → s.rxId ≠ s.cfg.idLAck → exec .mframe s = .next s)

/-- 40_decode.md R119: an MFRAME with a Link identifier has exactly the effects of `LSTEP.F`. -/
def Obligations.LinkFramesAreForwarded : Prop :=
  ∀ s : State, s.cfg.WellFormed → (s.rxId = s.cfg.idLStart ∨ s.rxId = s.cfg.idLAck) →
    exec .mframe s = exec (.lstep false true) s

/-! ### Slave-bus encode -/

/-- 41_encode.md R133, R136, R137, R139: the ignition, gear, language and configuration frames. -/
def Obligations.EncSendsTheOneFieldFrames : Prop :=
  ∀ s : State, s.cfg.WellFormed →
    exec (.enc s.cfg.idSIgn) s = .next { s with txq := s.txq ++
      [⟨.slave, ⟨s.cfg.idSIgn, 2#4, #v[s.store.ignition, 0#8, 0#8, 0#8, 0#8, 0#8, 0#8, 0#8]⟩⟩] } ∧
    exec (.enc s.cfg.idSGear) s = .next { s with txq := s.txq ++
      [⟨.slave, ⟨s.cfg.idSGear, 7#4, #v[0#8, 0#8, s.store.gearBox, 0#8, 0#8, 0#8, 0#8, 0#8]⟩⟩] } ∧
    exec (.enc s.cfg.idSLang) s = .next { s with txq := s.txq ++
      [⟨.slave, ⟨s.cfg.idSLang, 4#4,
        #v[BitVec.ofNat 8 (s.store.language.toNat % 16 * 16 + (if s.store.isMetric = true then 1 else 0)),
          0#8, 0#8, 0#8, 0#8, 0#8, 0#8, 0#8]⟩⟩] } ∧
    exec (.enc s.cfg.idSCfg) s = .next { s with txq := s.txq ++ [⟨.slave, ⟨s.cfg.idSCfg, 8#4, s.cfg.cfgData⟩⟩] }

/-- 41_encode.md R134: the wheel/engine/speed frame: three little-endian fields at their offsets, every other byte
0; of a delta the store can hold (10_state.md R20) bits [15:11] are 0. -/
def Obligations.EncSendsTheWheelFrame : Prop :=
  ∀ s : State, s.cfg.WellFormed →
    ∃ f : CanFrame, exec (.enc s.cfg.idSWheel) s = .next { s with txq := s.txq ++ [⟨.slave, f⟩] } ∧
      f.id = s.cfg.idSWheel ∧ f.dlc = 8#4 ∧
      (f.byte s.cfg.wSpeedOff.val).toNat + (f.byte (s.cfg.wSpeedOff.val + 1)).toNat * 256 = s.store.speed.toNat ∧
      (f.byte s.cfg.wRpmOff.val).toNat + (f.byte (s.cfg.wRpmOff.val + 1)).toNat * 256 = s.store.rpm.toNat ∧
      (f.byte s.cfg.wDeltaOff.val).toNat + (f.byte (s.cfg.wDeltaOff.val + 1)).toNat * 256 = s.store.wheelDelta.toNat ∧
      (s.store.wheelDelta.toNat < 2048 → (f.byte (s.cfg.wDeltaOff.val + 1)).toNat < 8) ∧
      ∀ j < 8, j ∉ [s.cfg.wSpeedOff.val, s.cfg.wSpeedOff.val + 1, s.cfg.wRpmOff.val, s.cfg.wRpmOff.val + 1,
        s.cfg.wDeltaOff.val, s.cfg.wDeltaOff.val + 1] → f.byte j = 0#8

/-- 41_encode.md R135: the dimming frame: dimLevel, the night bit alone in its byte, every other byte 0. -/
def Obligations.EncSendsTheDimmingFrame : Prop :=
  ∀ s : State, s.cfg.WellFormed →
    ∃ f : CanFrame, exec (.enc s.cfg.idSDim) s = .next { s with txq := s.txq ++ [⟨.slave, f⟩] } ∧
      f.id = s.cfg.idSDim ∧ f.dlc = 3#4 ∧
      (f.byte s.cfg.dLevelOff.val).toNat = s.store.dimAvg.toNat / 256 ∧
      (f.byte s.cfg.dNightOff.val).toNat = (if s.store.nightMode = true then 2 ^ s.cfg.dNightBit.val else 0) ∧
      ∀ j < 8, j ≠ s.cfg.dLevelOff.val → j ≠ s.cfg.dNightOff.val → f.byte j = 0#8

/-- 41_encode.md R138: the odometer+temperature frame. -/
def Obligations.EncSendsTheOdometerFrame : Prop :=
  ∀ s : State, s.cfg.WellFormed →
    ∃ f : CanFrame, exec (.enc s.cfg.idSOdo) s = .next { s with txq := s.txq ++ [⟨.slave, f⟩] } ∧
      f.id = s.cfg.idSOdo ∧ f.dlc = 7#4 ∧
      f.byte s.cfg.oOdoOff.val = s.store.odo0 ∧ f.byte (s.cfg.oOdoOff.val + 1) = s.store.odo1 ∧
      f.byte (s.cfg.oOdoOff.val + 2) = s.store.odo2 ∧ f.byte s.cfg.oTempOff.val = s.store.temperature ∧
      ∀ j < 8, j ∉ [s.cfg.oOdoOff.val, s.cfg.oOdoOff.val + 1, s.cfg.oOdoOff.val + 2, s.cfg.oTempOff.val] →
        f.byte j = 0#8

/-- 41_encode.md R131: an identifier that is none of the seven raises BAD_TARGET (err bit 4) and queues nothing. -/
def Obligations.EncOfAnUnknownTargetRaisesBadTarget : Prop :=
  ∀ (s : State) (id : Ident),
    id ∉ [s.cfg.idSIgn, s.cfg.idSWheel, s.cfg.idSGear, s.cfg.idSDim, s.cfg.idSOdo, s.cfg.idSLang, s.cfg.idSCfg] →
    exec (.enc id) s = .next { s with err := s.err ||| 0x0010#16 }

/-! ### Dimming -/

/-- 42_dimming.md R150, R151: the filter update as an exact integer, the strict hysteresis on the new dimLevel, and
nothing else. -/
def Obligations.DimUpdatesFilterAndNightMode : Prop :=
  ∀ (s : State) (r : U16),
    ∃ (avg : U16) (night : Bool),
      exec (.dim r) s = .next { s with store := { s.store with dimAvg := avg, nightMode := night } } ∧
      (avg.toNat : Int) = (r.toNat / s.cfg.dimK.toNat : Int) + s.store.dimAvg.toNat
        - (s.store.dimAvg.toNat / s.cfg.dimK.toNat : Int) ∧
      (s.store.nightMode = false → avg.toNat / 256 < s.cfg.dimLower.toNat → night = true) ∧
      (s.store.nightMode = true → s.cfg.dimUpper.toNat < avg.toNat / 256 → night = false) ∧
      (¬(s.store.nightMode = false ∧ avg.toNat / 256 < s.cfg.dimLower.toNat) →
        ¬(s.store.nightMode = true ∧ s.cfg.dimUpper.toNat < avg.toNat / 256) → night = s.store.nightMode)

/-- 42_dimming.md R152: (a) the exact next state stays in range; (b) the fixed points; (c) monotone convergence towards
[K*q, K*q+K-1]. -/
def Obligations.FilterLaws : Prop :=
  ∀ (s t : State) (r : U16), s.cfg.WellFormed → exec (.dim r) s = .next t →
    let k := s.cfg.dimK.toNat
    let q := r.toNat / k
    let x := s.store.dimAvg.toNat
    let y := t.store.dimAvg.toNat
    ((y : Int) = q + x - (x / k : Int)) ∧
    (y = x ↔ k * q ≤ x ∧ x ≤ k * q + k - 1) ∧
    (x / k < q → x < y ∧ y ≤ k * q) ∧ (q < x / k → k * q + k - 1 ≤ y ∧ y < x)

/-- 42_dimming.md R152 (c): under a constant sample the filter state moves into [K*q, K*q+K-1] and stays at one value
there, after at most 65535 updates. -/
def Obligations.ConstantSampleSettlesTheFilter : Prop :=
  ∀ (s : State) (r : U16), s.cfg.WellFormed →
    ∃ (n : Nat) (v : U16), n ≤ 65535 ∧
      s.cfg.dimK.toNat * (r.toNat / s.cfg.dimK.toNat) ≤ v.toNat ∧
      v.toNat ≤ s.cfg.dimK.toNat * (r.toNat / s.cfg.dimK.toNat) + s.cfg.dimK.toNat - 1 ∧
      ∀ m, n ≤ m → ∃ t, execTimes (.dim r) m s = .next t ∧ t.store.dimAvg = v

/-! ### Schedule -/

/-- 43_schedule.md R160-R162: the counter, the gated frames in their order, encoded from the store, then the deadline. -/
def Obligations.TickEmitsAndTimes : Prop :=
  ∀ s : State, s.cfg.WellFormed →
    let n := (s.tickCnt.toNat + 1) % s.cfg.divD.toNat
    let waiting := s.lstate = .start ∨ s.lstate = .preamble ∨ s.lstate = .waitForCluster
    ∃ fs : List CanFrame,
      fs.map some = (tickIds s.cfg n).map (encodeFrame s.cfg s.store) ∧
      (s.cfg.waitLimit = 0#16 ∨ ¬waiting →
        exec .tick s = .next { s with tickCnt := BitVec.ofNat 8 n, txq := s.txq ++ fs.map (TxEntry.mk .slave) }) ∧
      (s.cfg.waitLimit ≠ 0#16 → waiting → s.waitCnt.toNat + 1 < s.cfg.waitLimit.toNat →
        exec .tick s = .next { s with
          tickCnt := BitVec.ofNat 8 n
          txq := s.txq ++ fs.map (TxEntry.mk .slave)
          waitCnt := s.waitCnt + 1#16 }) ∧
      (s.cfg.waitLimit ≠ 0#16 → waiting → s.cfg.waitLimit.toNat ≤ s.waitCnt.toNat + 1 →
        exec .tick s = .next { s with
          tickCnt := BitVec.ofNat 8 n
          txq := s.txq ++ fs.map (TxEntry.mk .slave)
          lstate := .idle, seq := 0#4, waitCnt := 0#16, cursor := 0#16, err := s.err ||| 0x0100#16 })

/-- 43_schedule.md R160 (1), (2), 10_state.md R23: after `n` ticks the counter is the start value plus `n`, modulo
DIV_D. -/
def Obligations.TickCounterCountsModuloDivD : Prop :=
  ∀ (s : State) (n : Nat), s.cfg.WellFormed → s.tickCnt.toNat < s.cfg.divD.toNat →
    ∃ t, execTimes .tick n s = .next t ∧ t.tickCnt.toNat = (s.tickCnt.toNat + n) % s.cfg.divD.toNat

/-- 70_reset_and_hazards.md R247, 43_schedule.md R162: with a non-zero limit a waiting state expires on exactly the
limit-th tick after it was entered, with LINK_TIMEOUT and the Link Protocol restarted. -/
def Obligations.WaitingStateExpiresAtTheLimit : Prop :=
  ∀ (s : State) (n : Nat), s.cfg.WellFormed → s.cfg.waitLimit ≠ 0#16 → s.waitCnt = 0#16 →
    (s.lstate = .start ∨ s.lstate = .preamble ∨ s.lstate = .waitForCluster) →
    (n < s.cfg.waitLimit.toNat →
      ∃ t, execTimes .tick n s = .next t ∧ t.lstate = s.lstate ∧ t.waitCnt.toNat = n ∧ t.err = s.err) ∧
    (n = s.cfg.waitLimit.toNat →
      ∃ t, execTimes .tick n s = .next t ∧ t.lstate = .idle ∧ t.seq = 0#4 ∧ t.waitCnt = 0#16 ∧ t.cursor = 0#16 ∧
        t.err = s.err ||| 0x0100#16)

/-! ### Link Protocol -/

/-- 44_link_protocol.md R174: the Idle action. -/
def Obligations.LinkIdleAction : Prop :=
  ∀ (s : State) (req frame : Bool), s.lstate = .idle → FrameUsable frame s →
    (req = true → exec (.lstep req frame) s = .next { s with
      lstate := .start, waitCnt := 0#16,
      txq := s.txq ++ [⟨.master, ⟨s.cfg.idLOpen, 3#4,
        #v[s.cfg.openData[0], s.cfg.openData[1], s.cfg.openData[2], 0#8, 0#8, 0#8, 0#8, 0#8]⟩⟩] }) ∧
    (req = false → exec (.lstep req frame) s = .next s)

/-- 44_link_protocol.md R175: the Start action. -/
def Obligations.LinkStartAction : Prop :=
  ∀ (s : State) (req frame : Bool), s.lstate = .start → FrameUsable frame s →
    (Delivers frame s.cfg.idLStart s ∧ s.rxData[0] = s.cfg.startAckB0 →
      exec (.lstep req frame) s = .next { s with
        lstate := .preamble, waitCnt := 0#16,
        txq := s.txq ++ [⟨.master, ⟨s.cfg.idLPre, 6#4,
          #v[s.cfg.preData[0], s.cfg.preData[1], s.cfg.preData[2], s.cfg.preData[3], s.cfg.preData[4],
            s.cfg.preData[5], 0#8, 0#8]⟩⟩] }) ∧
    (¬(Delivers frame s.cfg.idLStart s ∧ s.rxData[0] = s.cfg.startAckB0) → exec (.lstep req frame) s = .next s)

/-- 44_link_protocol.md R176: the Preamble action sends nothing. -/
def Obligations.LinkPreambleAction : Prop :=
  ∀ (s : State) (req frame : Bool), s.lstate = .preamble → FrameUsable frame s →
    (Delivers frame s.cfg.idLAck s ∧ s.rxData[0] = s.cfg.preAckB0 →
      exec (.lstep req frame) s = .next { s with lstate := .info, waitCnt := 0#16 }) ∧
    (¬(Delivers frame s.cfg.idLAck s ∧ s.rxData[0] = s.cfg.preAckB0) → exec (.lstep req frame) s = .next s)

/-- 44_link_protocol.md R177, a close frame: the acknowledgement `ACK_MARK | ((rxseq + 1) mod 16)`, then Stop; and an
empty buffer: BUF_EMPTY (err bit 7), nothing sent, the state unchanged. -/
def Obligations.LinkInfoCloseAndEmpty : Prop :=
  ∀ (s : State) (req frame : Bool), s.lstate = .info → FrameUsable frame s →
    (DeliversClose frame s →
      exec (.lstep req frame) s = .next { s with
        lstate := .stop, waitCnt := 0#16,
        txq := s.txq ++ [⟨.master, ⟨s.cfg.idLData, 1#4,
          #v[s.cfg.ackMark ||| BitVec.ofNat 8 ((s.rxData[0].toNat % 16 + 1) % 16),
            0#8, 0#8, 0#8, 0#8, 0#8, 0#8, 0#8]⟩⟩] }) ∧
    (¬DeliversClose frame s → s.bufLen = 0#16 →
      exec (.lstep req frame) s = .next { s with err := s.err ||| 0x0080#16 })

/-- 44_link_protocol.md R173, R177 with 45_frame_buffer.md R192 and 30_encoding.md R97: the Info data action. The header
slot is replaced by the leading byte, L - 1 buffer bytes follow, the rest is 0; the counter and the cursor move; a chunk
that is not the last makes the machine wait. -/
def Obligations.LinkInfoSendsAChunk : Prop :=
  ∀ (s : State) (req frame : Bool), s.lstate = .info → FrameUsable frame s → ¬DeliversClose frame s →
    s.bufLen ≠ 0#16 → s.cursor.toNat + 7 < s.cfg.bufCap →
    ∃ f : CanFrame,
      f.id = s.cfg.idLData ∧ f.dlc.toNat = nextLen s ∧
      (f.byte 0).toNat = (if LastChunk s then s.cfg.mkLast.toNat else s.cfg.mkMore.toNat) * 16 + s.seq.toNat ∧
      (∀ j, 1 ≤ j → j < nextLen s → f.byte j = s.buf.read (s.cursor.toNat + j)) ∧
      (∀ j, nextLen s ≤ j → f.byte j = 0#8) ∧
      (LastChunk s → exec (.lstep req frame) s = .next { s with
        txq := s.txq ++ [⟨.master, f⟩], seq := s.seq + 1#4, cursor := 0#16 }) ∧
      (¬LastChunk s → exec (.lstep req frame) s = .next { s with
        txq := s.txq ++ [⟨.master, f⟩], seq := s.seq + 1#4, cursor := s.cursor + 8#16,
        lstate := .waitForCluster, waitCnt := 0#16 })

/-- 44_link_protocol.md R178: the WaitForCluster action: only the ack of the counter's value moves on. -/
def Obligations.LinkWaitAction : Prop :=
  ∀ (s : State) (req frame : Bool), s.lstate = .waitForCluster → FrameUsable frame s →
    (Delivers frame s.cfg.idLAck s ∧ s.rxData[0] = s.cfg.ackMark ||| BitVec.ofNat 8 s.seq.toNat →
      exec (.lstep req frame) s = .next { s with lstate := .info, waitCnt := 0#16 }) ∧
    (¬(Delivers frame s.cfg.idLAck s ∧ s.rxData[0] = s.cfg.ackMark ||| BitVec.ofNat 8 s.seq.toNat) →
      exec (.lstep req frame) s = .next s)

/-- 44_link_protocol.md R179 and R180: the Stop action, and LRESET in any state. -/
def Obligations.LinkStopActionAndRestart : Prop :=
  ∀ (s : State) (req frame : Bool),
    (s.lstate = .stop → FrameUsable frame s →
      exec (.lstep req frame) s = .next { s with
        lstate := .idle, seq := 0#4, waitCnt := 0#16,
        txq := s.txq ++ [⟨.master, ⟨s.cfg.idLClose, 1#4,
          #v[s.cfg.closeData, 0#8, 0#8, 0#8, 0#8, 0#8, 0#8, 0#8]⟩⟩] }) ∧
    exec .lreset s = .next { s with lstate := .idle, seq := 0#4, waitCnt := 0#16, cursor := 0#16 }

/-- 44_link_protocol.md R181: the transitions of the table are the only ones, over all commands; SRESET's is the reset. -/
def Obligations.LinkTransitionsAreThoseOfTheTable : Prop :=
  ∀ (i : Instr) (s t : State), exec i s = .next t →
    t.lstate = s.lstate ∨
    (t.lstate = .idle ∧ (i = .lreset ∨ i = .sreset ∨
      (i = .tick ∧ s.cfg.waitLimit ≠ 0#16 ∧ s.lstate ≠ .idle ∧ s.lstate ≠ .info ∧ s.lstate ≠ .stop))) ∨
    ((i = .mframe ∨ ∃ req frame, i = .lstep req frame) ∧
      (s.lstate, t.lstate) ∈ [(LinkState.idle, LinkState.start), (.start, .preamble), (.preamble, .info), (.info, .stop),
        (.info, .waitForCluster), (.waitForCluster, .info), (.stop, .idle)])

/-- 44_link_protocol.md R182: the Info step that sends the last chunk leaves the state Info and the cursor 0. From any state
`t` with the configuration, the Link Protocol's place and the buffer that step leaves (the queue drained, since
30_encoding.md R84 holds up a trigger until then; other RX registers), the next Info step that delivers no close frame
sends chunk 0 and restarts the stream: the frame is `g`, and the state after it is given whole. -/
def Obligations.LastChunkIsFollowedByChunkZero : Prop :=
  ∀ (s : State) (i : Instr) (frame : Bool), s.cfg.WellFormed → LinkStepOf i frame s → s.lstate = .info →
    s.bufLen ≠ 0#16 → LastChunk s → s.cursor.toNat + 7 < s.cfg.bufCap → FrameUsable frame s → ¬DeliversClose frame s →
    (∃ f : CanFrame, exec i s = .next { s with
      lstate := .info, cursor := 0#16, seq := s.seq + 1#4, txq := s.txq ++ [⟨.master, f⟩] }) ∧
    ∀ (t : State) (i' : Instr) (frame' : Bool),
      t.cfg = s.cfg → t.lstate = .info → t.cursor = 0#16 → t.seq = s.seq + 1#4 → t.buf = s.buf → t.bufLen = s.bufLen →
      LinkStepOf i' frame' t → FrameUsable frame' t → ¬DeliversClose frame' t →
      ∃ g : CanFrame,
        g.id = s.cfg.idLData ∧ g.dlc.toNat = (if s.bufLen.toNat < 8 then s.bufLen.toNat else 8) ∧
        (g.byte 0).toNat = (if s.bufLen.toNat ≤ 8 then s.cfg.mkLast.toNat else s.cfg.mkMore.toNat) * 16 +
          (s.seq.toNat + 1) % 16 ∧
        (∀ j, 1 ≤ j → j < g.dlc.toNat → g.byte j = s.buf.read j) ∧
        (∀ j, g.dlc.toNat ≤ j → g.byte j = 0#8) ∧
        (s.bufLen.toNat ≤ 8 → exec i' t = .next { t with
          lstate := .info, cursor := 0#16, seq := s.seq + 2#4, txq := t.txq ++ [⟨.master, g⟩] }) ∧
        (8 < s.bufLen.toNat → exec i' t = .next { t with
          lstate := .waitForCluster, waitCnt := 0#16, cursor := 8#16, seq := s.seq + 2#4,
          txq := t.txq ++ [⟨.master, g⟩] })

/-! ### Frame buffer -/

/-- 45_frame_buffer.md R194: while the Link Protocol is streaming, BCLR, BAPP and CHUNK raise BUF_BUSY (err bit 6) and
change nothing else. -/
def Obligations.StreamingRefusesBufferCommands : Prop :=
  ∀ (s : State) (i : Instr), (s.lstate = .info ∨ s.lstate = .waitForCluster) →
    (i = .bclr ∨ i = .chunk ∨ ∃ b, i = .bapp b) →
    exec i s = .next { s with err := s.err ||| 0x0040#16 }

/-- 45_frame_buffer.md R190, R191: while streaming both raise BUF_BUSY (err bit 6); else BCLR empties the buffer and keeps
its bytes, and BAPP appends one byte below the capacity, changing no other byte, and raises BUF_OVF (err bit 5) at the
capacity. -/
def Obligations.BufferIsClearedAndAppendedTo : Prop :=
  ∀ (s : State) (b : Byte),
    (s.lstate = .info ∨ s.lstate = .waitForCluster →
      exec .bclr s = .next { s with err := s.err ||| 0x0040#16 } ∧
      exec (.bapp b) s = .next { s with err := s.err ||| 0x0040#16 }) ∧
    (s.lstate ≠ .info → s.lstate ≠ .waitForCluster →
      exec .bclr s = .next { s with bufLen := 0#16, cursor := 0#16 } ∧
      (s.bufLen.toNat = s.cfg.bufCap → exec (.bapp b) s = .next { s with err := s.err ||| 0x0020#16 }) ∧
      (s.bufLen.toNat < s.cfg.bufCap → Memory.wf s.buf →
        ∃ m : Memory, exec (.bapp b) s = .next { s with buf := m, bufLen := s.bufLen + 1#16 } ∧ Memory.wf m ∧
          m.read s.bufLen.toNat = b ∧ ∀ a, a ≠ s.bufLen.toNat → m.read a = s.buf.read a))

/-- 45_frame_buffer.md R193: while streaming CHUNK raises BUF_BUSY (err bit 6), with an empty buffer BUF_EMPTY (err bit 7);
else it copies eight bytes from the cursor, reports length and last, and moves the cursor (R192). -/
def Obligations.ChunkCopiesEightBytes : Prop :=
  ∀ s : State,
    (s.lstate = .info ∨ s.lstate = .waitForCluster → exec .chunk s = .next { s with err := s.err ||| 0x0040#16 }) ∧
    (s.lstate ≠ .info → s.lstate ≠ .waitForCluster →
      (s.bufLen = 0#16 → exec .chunk s = .next { s with err := s.err ||| 0x0080#16 }) ∧
      (s.bufLen ≠ 0#16 → s.cursor.toNat + 7 < s.cfg.bufCap →
        ∃ d : Data8,
          (∀ j : Fin 8, d[j] = s.buf.read (s.cursor.toNat + j.val)) ∧
          exec .chunk s = .next { s with
            chunkData := d, chunkLen := BitVec.ofNat 4 (nextLen s)
            chunkLast := decide (LastChunk s), cursor := if LastChunk s then 0#16 else s.cursor + 8#16 }))

/-- 45_frame_buffer.md R195: for a buffer of N ≥ 1 bytes and cursor 0, the ceil(N/8)-th CHUNK is the first that reports
last, each reports its length, the bytes concatenate to the buffer's first N, and the cursor is then 0 again. -/
def Obligations.ChunkRoundTrip : Prop :=
  ∀ s : State, s.cfg.WellFormed → s.lstate ≠ .info → s.lstate ≠ .waitForCluster → s.cursor = 0#16 →
    s.bufLen ≠ 0#16 → s.bufLen.toNat ≤ s.cfg.bufCap →
    let n := (s.bufLen.toNat + 7) / 8
    (∀ k < n, ∃ t, execTimes .chunk (k + 1) s = .next t ∧ (t.chunkLast = true ↔ k + 1 = n) ∧
      t.chunkLen.toNat = (if k + 1 = n ∧ s.bufLen.toNat % 8 ≠ 0 then s.bufLen.toNat % 8 else 8) ∧
      (∀ j : Fin 8, t.chunkData[j] = s.buf.read (8 * k + j.val)) ∧
      t.cursor.toNat = (if k + 1 = n then 0 else 8 * (k + 1))) ∧
    collectChunks n s = (List.range s.bufLen.toNat).map fun a => s.buf.read a

/-! ### Control -/

/-- 46_control.md R200, R201: NOP changes nothing; ECLR clears exactly the err bits the mask selects. -/
def Obligations.NopAndEclr : Prop :=
  ∀ (s : State) (m : U16),
    exec .nop s = .next s ∧
    ∃ e : U16, exec (.eclr m) s = .next { s with err := e } ∧
      ∀ k < 16, e.getLsbD k = (s.err.getLsbD k && !m.getLsbD k)
end

