-- ==== Sys2Proof/Laws/Memory.lean ====
section
/-! SUPPORT. The laws of the cell list: a write is read back, leaves every other index alone, keeps the canonical form and
the bound on the indices; equal contents are equal lists. -/

namespace Sys2Proof.Machine

@[simp] theorem Memory.read_nil (a : Nat) : Memory.read [] a = Memory.blank := rfl

theorem Memory.read_of_lt {m : Memory} {a : Nat} (h : ∀ p ∈ m, a < p.1) : Memory.read m a = Memory.blank := by
  induction m with
  | nil => rfl
  | cons p rest ih =>
    have hp := h p (by simp)
    simp only [Memory.read]
    rw [if_neg (by omega)]
    exact ih fun q hq => h q (by simp [hq])

theorem Memory.read_cons (a : Nat) (b : Byte) (rest : Memory) (x : Nat) (h : ∀ p ∈ rest, a < p.1) :
    Memory.read (Memory.cons a b rest) x = if a = x then b else Memory.read rest x := by
  unfold Memory.cons
  split
  · next hb =>
    split
    · next hx => subst hx; rw [hb]; exact Memory.read_of_lt h
    · rfl
  · rfl

/-- The one law of a store: read after write, at the same index and at every other. -/
theorem Memory.read_write {m : Memory} (hm : Memory.wf m) (a : Nat) (b : Byte) (x : Nat) :
    Memory.read (Memory.write m a b) x = if a = x then b else Memory.read m x := by
  induction m with
  | nil =>
    rw [Memory.write, Memory.read_cons _ _ _ _ (by simp)]
  | cons p rest ih =>
    obtain ⟨k, v⟩ := p
    have hk : ∀ q ∈ rest, k < q.1 := (List.pairwise_cons.mp hm.1).1
    have hr : Memory.wf rest := ⟨(List.pairwise_cons.mp hm.1).2, fun q hq => hm.2 q (by simp [hq])⟩
    simp only [Memory.write]
    split
    · next hlt =>
      rw [Memory.read_cons]
      intro q hq
      rcases List.mem_cons.mp hq with rfl | hq
      · exact hlt
      · exact Nat.lt_trans hlt (hk q hq)
    · split
      · next heq =>
        subst heq
        rw [Memory.read_cons _ _ _ _ hk]
        simp only [Memory.read]
        split <;> rfl
      · next hne =>
        simp only [Memory.read, ih hr]
        split
        · next hkx => rw [if_neg (by omega)]
        · rfl

/-- Every index of the list after a write was listed before or is the written one. -/
theorem Memory.mem_write {m : Memory} {a : Nat} {b : Byte} {p : Host.Cell} (h : p ∈ Memory.write m a b) :
    p ∈ m ∨ (p = (a, b) ∧ b ≠ Memory.blank) := by
  have hc : ∀ {rest : Memory}, p ∈ Memory.cons a b rest → p ∈ rest ∨ (p = (a, b) ∧ b ≠ Memory.blank) := by
    intro rest hp
    unfold Memory.cons at hp
    split at hp
    · exact .inl hp
    · next hb => exact (List.mem_cons.mp hp).elim (fun e => .inr ⟨e, hb⟩) .inl
  induction m with
  | nil => exact hc h
  | cons q rest ih =>
    obtain ⟨k, v⟩ := q
    simp only [Memory.write] at h
    split at h
    · exact hc h
    · split at h
      · exact (hc h).elim (fun e => .inl (by simp [e])) .inr
      · rcases List.mem_cons.mp h with e | e
        · exact .inl (by simp [e])
        · exact (ih e).elim (fun e => .inl (by simp [e])) .inr

/-- A write keeps the canonical form. -/
theorem Memory.wf_write {m : Memory} (hm : Memory.wf m) (a : Nat) (b : Byte) : Memory.wf (Memory.write m a b) := by
  refine ⟨?_, fun p hp => (Memory.mem_write hp).elim (hm.2 p) fun e => by simpa [e.1] using e.2⟩
  have hc : ∀ {rest : Memory}, rest.Pairwise (fun p q => p.1 < q.1) → (∀ q ∈ rest, a < q.1) →
      (Memory.cons a b rest).Pairwise (fun p q => p.1 < q.1) := by
    intro rest hr ha
    unfold Memory.cons
    split
    · exact hr
    · exact List.pairwise_cons.mpr ⟨ha, hr⟩
  induction m with
  | nil => exact hc List.Pairwise.nil (by simp)
  | cons q rest ih =>
    obtain ⟨k, v⟩ := q
    have hk : ∀ q ∈ rest, k < q.1 := (List.pairwise_cons.mp hm.1).1
    have hr : rest.Pairwise (fun p q => p.1 < q.1) := (List.pairwise_cons.mp hm.1).2
    simp only [Memory.write]
    split
    · next hlt =>
      refine hc hm.1 fun q hq => ?_
      rcases List.mem_cons.mp hq with rfl | hq
      · exact hlt
      · exact Nat.lt_trans hlt (hk q hq)
    · split
      · next heq => exact hc hr (by simpa [heq] using hk)
      · next hlt hne =>
        refine List.pairwise_cons.mpr ⟨fun q hq => ?_, ih ⟨hr, fun q hq => hm.2 q (by simp [hq])⟩⟩
        rcases Memory.mem_write hq with hq | hq
        · exact hk q hq
        · rw [hq.1]; simp only; omega

/-- A write below the bound keeps the bound. -/
theorem Memory.below_write {n : Nat} {m : Memory} (hm : Memory.Below n m) {a : Nat} (ha : a < n) (b : Byte) :
    Memory.Below n (Memory.write m a b) := fun p hp =>
  (Memory.mem_write hp).elim (hm p) fun e => by rw [e.1]; exact ha

/-- An index that no cell lists reads as the blank byte. -/
theorem Memory.read_of_not_listed {m : Memory} {a : Nat} (h : ∀ p ∈ m, p.1 ≠ a) : Memory.read m a = Memory.blank := by
  induction m with
  | nil => rfl
  | cons p rest ih =>
    simp only [Memory.read]
    rw [if_neg (h p (by simp))]
    exact ih fun q hq => h q (by simp [hq])

/-- An index at or beyond the bound reads as the blank byte. -/
theorem Memory.read_of_below {n : Nat} {m : Memory} (hm : Memory.Below n m) {a : Nat} (ha : n ≤ a) :
    Memory.read m a = Memory.blank :=
  Memory.read_of_not_listed fun p hp => by have := hm p hp; omega

end Sys2Proof.Machine
end

