-- ==== Sys2Proof/Laws/State.lean ====
section
/-! SUPPORT. What each shared update leaves in each field of the state: one lemma per field per update. -/

namespace Sys2Proof.Machine

/-! ### raise -/

@[simp] theorem raise_cfg (e : Err) (s : State) : (raise e s).cfg = s.cfg := rfl
@[simp] theorem raise_store (e : Err) (s : State) : (raise e s).store = s.store := rfl
@[simp] theorem raise_tickCnt (e : Err) (s : State) : (raise e s).tickCnt = s.tickCnt := rfl
@[simp] theorem raise_lstate (e : Err) (s : State) : (raise e s).lstate = s.lstate := rfl
@[simp] theorem raise_seq (e : Err) (s : State) : (raise e s).seq = s.seq := rfl
@[simp] theorem raise_waitCnt (e : Err) (s : State) : (raise e s).waitCnt = s.waitCnt := rfl
@[simp] theorem raise_buf (e : Err) (s : State) : (raise e s).buf = s.buf := rfl
@[simp] theorem raise_bufLen (e : Err) (s : State) : (raise e s).bufLen = s.bufLen := rfl
@[simp] theorem raise_cursor (e : Err) (s : State) : (raise e s).cursor = s.cursor := rfl
@[simp] theorem raise_chunkLen (e : Err) (s : State) : (raise e s).chunkLen = s.chunkLen := rfl
@[simp] theorem raise_chunkLast (e : Err) (s : State) : (raise e s).chunkLast = s.chunkLast := rfl
@[simp] theorem raise_chunkData (e : Err) (s : State) : (raise e s).chunkData = s.chunkData := rfl
@[simp] theorem raise_cmd1 (e : Err) (s : State) : (raise e s).cmd1 = s.cmd1 := rfl
@[simp] theorem raise_cmd2 (e : Err) (s : State) : (raise e s).cmd2 = s.cmd2 := rfl
@[simp] theorem raise_cmd3 (e : Err) (s : State) : (raise e s).cmd3 = s.cmd3 := rfl
@[simp] theorem raise_rxId (e : Err) (s : State) : (raise e s).rxId = s.rxId := rfl
@[simp] theorem raise_rxDlc (e : Err) (s : State) : (raise e s).rxDlc = s.rxDlc := rfl
@[simp] theorem raise_rxData (e : Err) (s : State) : (raise e s).rxData = s.rxData := rfl
@[simp] theorem raise_txq (e : Err) (s : State) : (raise e s).txq = s.txq := rfl
@[simp] theorem raise_txTries (e : Err) (s : State) : (raise e s).txTries = s.txTries := rfl
@[simp] theorem raise_err (e : Err) (s : State) : (raise e s).err = s.err ||| e.mask := rfl
@[simp] theorem raise_inputs (e : Err) (s : State) : (raise e s).inputs = s.inputs := rfl
@[simp] theorem raise_outputs (e : Err) (s : State) : (raise e s).outputs = s.outputs := rfl

/-! ### transmit -/

@[simp] theorem transmit_cfg (b : Bus) (f : CanFrame) (s : State) : (transmit b f s).cfg = s.cfg := rfl
@[simp] theorem transmit_store (b : Bus) (f : CanFrame) (s : State) : (transmit b f s).store = s.store := rfl
@[simp] theorem transmit_tickCnt (b : Bus) (f : CanFrame) (s : State) : (transmit b f s).tickCnt = s.tickCnt := rfl
@[simp] theorem transmit_lstate (b : Bus) (f : CanFrame) (s : State) : (transmit b f s).lstate = s.lstate := rfl
@[simp] theorem transmit_seq (b : Bus) (f : CanFrame) (s : State) : (transmit b f s).seq = s.seq := rfl
@[simp] theorem transmit_waitCnt (b : Bus) (f : CanFrame) (s : State) : (transmit b f s).waitCnt = s.waitCnt := rfl
@[simp] theorem transmit_buf (b : Bus) (f : CanFrame) (s : State) : (transmit b f s).buf = s.buf := rfl
@[simp] theorem transmit_bufLen (b : Bus) (f : CanFrame) (s : State) : (transmit b f s).bufLen = s.bufLen := rfl
@[simp] theorem transmit_cursor (b : Bus) (f : CanFrame) (s : State) : (transmit b f s).cursor = s.cursor := rfl
@[simp] theorem transmit_chunkLen (b : Bus) (f : CanFrame) (s : State) : (transmit b f s).chunkLen = s.chunkLen := rfl
@[simp] theorem transmit_chunkLast (b : Bus) (f : CanFrame) (s : State) : (transmit b f s).chunkLast = s.chunkLast := rfl
@[simp] theorem transmit_chunkData (b : Bus) (f : CanFrame) (s : State) : (transmit b f s).chunkData = s.chunkData := rfl
@[simp] theorem transmit_cmd1 (b : Bus) (f : CanFrame) (s : State) : (transmit b f s).cmd1 = s.cmd1 := rfl
@[simp] theorem transmit_cmd2 (b : Bus) (f : CanFrame) (s : State) : (transmit b f s).cmd2 = s.cmd2 := rfl
@[simp] theorem transmit_cmd3 (b : Bus) (f : CanFrame) (s : State) : (transmit b f s).cmd3 = s.cmd3 := rfl
@[simp] theorem transmit_rxId (b : Bus) (f : CanFrame) (s : State) : (transmit b f s).rxId = s.rxId := rfl
@[simp] theorem transmit_rxDlc (b : Bus) (f : CanFrame) (s : State) : (transmit b f s).rxDlc = s.rxDlc := rfl
@[simp] theorem transmit_rxData (b : Bus) (f : CanFrame) (s : State) : (transmit b f s).rxData = s.rxData := rfl
@[simp] theorem transmit_txq (b : Bus) (f : CanFrame) (s : State) : (transmit b f s).txq = s.txq ++ [⟨b, f⟩] := rfl
@[simp] theorem transmit_txTries (b : Bus) (f : CanFrame) (s : State) : (transmit b f s).txTries = s.txTries := rfl
@[simp] theorem transmit_err (b : Bus) (f : CanFrame) (s : State) : (transmit b f s).err = s.err := rfl
@[simp] theorem transmit_inputs (b : Bus) (f : CanFrame) (s : State) : (transmit b f s).inputs = s.inputs := rfl
@[simp] theorem transmit_outputs (b : Bus) (f : CanFrame) (s : State) : (transmit b f s).outputs = s.outputs := rfl

/-! ### setState -/

@[simp] theorem setState_cfg (x : LinkState) (s : State) : (setState x s).cfg = s.cfg := rfl
@[simp] theorem setState_store (x : LinkState) (s : State) : (setState x s).store = s.store := rfl
@[simp] theorem setState_tickCnt (x : LinkState) (s : State) : (setState x s).tickCnt = s.tickCnt := rfl
@[simp] theorem setState_lstate (x : LinkState) (s : State) : (setState x s).lstate = x := rfl
@[simp] theorem setState_seq (x : LinkState) (s : State) : (setState x s).seq = s.seq := rfl
@[simp] theorem setState_waitCnt (x : LinkState) (s : State) : (setState x s).waitCnt = 0#16 := rfl
@[simp] theorem setState_buf (x : LinkState) (s : State) : (setState x s).buf = s.buf := rfl
@[simp] theorem setState_bufLen (x : LinkState) (s : State) : (setState x s).bufLen = s.bufLen := rfl
@[simp] theorem setState_cursor (x : LinkState) (s : State) : (setState x s).cursor = s.cursor := rfl
@[simp] theorem setState_chunkLen (x : LinkState) (s : State) : (setState x s).chunkLen = s.chunkLen := rfl
@[simp] theorem setState_chunkLast (x : LinkState) (s : State) : (setState x s).chunkLast = s.chunkLast := rfl
@[simp] theorem setState_chunkData (x : LinkState) (s : State) : (setState x s).chunkData = s.chunkData := rfl
@[simp] theorem setState_cmd1 (x : LinkState) (s : State) : (setState x s).cmd1 = s.cmd1 := rfl
@[simp] theorem setState_cmd2 (x : LinkState) (s : State) : (setState x s).cmd2 = s.cmd2 := rfl
@[simp] theorem setState_cmd3 (x : LinkState) (s : State) : (setState x s).cmd3 = s.cmd3 := rfl
@[simp] theorem setState_rxId (x : LinkState) (s : State) : (setState x s).rxId = s.rxId := rfl
@[simp] theorem setState_rxDlc (x : LinkState) (s : State) : (setState x s).rxDlc = s.rxDlc := rfl
@[simp] theorem setState_rxData (x : LinkState) (s : State) : (setState x s).rxData = s.rxData := rfl
@[simp] theorem setState_txq (x : LinkState) (s : State) : (setState x s).txq = s.txq := rfl
@[simp] theorem setState_txTries (x : LinkState) (s : State) : (setState x s).txTries = s.txTries := rfl
@[simp] theorem setState_err (x : LinkState) (s : State) : (setState x s).err = s.err := rfl
@[simp] theorem setState_inputs (x : LinkState) (s : State) : (setState x s).inputs = s.inputs := rfl
@[simp] theorem setState_outputs (x : LinkState) (s : State) : (setState x s).outputs = s.outputs := rfl

/-! ### linkRestart -/

@[simp] theorem linkRestart_cfg (s : State) : (linkRestart s).cfg = s.cfg := rfl
@[simp] theorem linkRestart_store (s : State) : (linkRestart s).store = s.store := rfl
@[simp] theorem linkRestart_tickCnt (s : State) : (linkRestart s).tickCnt = s.tickCnt := rfl
@[simp] theorem linkRestart_lstate (s : State) : (linkRestart s).lstate = .idle := rfl
@[simp] theorem linkRestart_seq (s : State) : (linkRestart s).seq = 0#4 := rfl
@[simp] theorem linkRestart_waitCnt (s : State) : (linkRestart s).waitCnt = 0#16 := rfl
@[simp] theorem linkRestart_buf (s : State) : (linkRestart s).buf = s.buf := rfl
@[simp] theorem linkRestart_bufLen (s : State) : (linkRestart s).bufLen = s.bufLen := rfl
@[simp] theorem linkRestart_cursor (s : State) : (linkRestart s).cursor = 0#16 := rfl
@[simp] theorem linkRestart_chunkLen (s : State) : (linkRestart s).chunkLen = s.chunkLen := rfl
@[simp] theorem linkRestart_chunkLast (s : State) : (linkRestart s).chunkLast = s.chunkLast := rfl
@[simp] theorem linkRestart_chunkData (s : State) : (linkRestart s).chunkData = s.chunkData := rfl
@[simp] theorem linkRestart_cmd1 (s : State) : (linkRestart s).cmd1 = s.cmd1 := rfl
@[simp] theorem linkRestart_cmd2 (s : State) : (linkRestart s).cmd2 = s.cmd2 := rfl
@[simp] theorem linkRestart_cmd3 (s : State) : (linkRestart s).cmd3 = s.cmd3 := rfl
@[simp] theorem linkRestart_rxId (s : State) : (linkRestart s).rxId = s.rxId := rfl
@[simp] theorem linkRestart_rxDlc (s : State) : (linkRestart s).rxDlc = s.rxDlc := rfl
@[simp] theorem linkRestart_rxData (s : State) : (linkRestart s).rxData = s.rxData := rfl
@[simp] theorem linkRestart_txq (s : State) : (linkRestart s).txq = s.txq := rfl
@[simp] theorem linkRestart_txTries (s : State) : (linkRestart s).txTries = s.txTries := rfl
@[simp] theorem linkRestart_err (s : State) : (linkRestart s).err = s.err := rfl
@[simp] theorem linkRestart_inputs (s : State) : (linkRestart s).inputs = s.inputs := rfl
@[simp] theorem linkRestart_outputs (s : State) : (linkRestart s).outputs = s.outputs := rfl

/-! ### clearStage -/

@[simp] theorem clearStage_cfg (s : State) : (clearStage s).cfg = s.cfg := rfl
@[simp] theorem clearStage_store (s : State) : (clearStage s).store = s.store := rfl
@[simp] theorem clearStage_tickCnt (s : State) : (clearStage s).tickCnt = s.tickCnt := rfl
@[simp] theorem clearStage_lstate (s : State) : (clearStage s).lstate = s.lstate := rfl
@[simp] theorem clearStage_seq (s : State) : (clearStage s).seq = s.seq := rfl
@[simp] theorem clearStage_waitCnt (s : State) : (clearStage s).waitCnt = s.waitCnt := rfl
@[simp] theorem clearStage_buf (s : State) : (clearStage s).buf = s.buf := rfl
@[simp] theorem clearStage_bufLen (s : State) : (clearStage s).bufLen = s.bufLen := rfl
@[simp] theorem clearStage_cursor (s : State) : (clearStage s).cursor = s.cursor := rfl
@[simp] theorem clearStage_chunkLen (s : State) : (clearStage s).chunkLen = s.chunkLen := rfl
@[simp] theorem clearStage_chunkLast (s : State) : (clearStage s).chunkLast = s.chunkLast := rfl
@[simp] theorem clearStage_chunkData (s : State) : (clearStage s).chunkData = s.chunkData := rfl
@[simp] theorem clearStage_cmd1 (s : State) : (clearStage s).cmd1 = 0#8 := rfl
@[simp] theorem clearStage_cmd2 (s : State) : (clearStage s).cmd2 = 0#8 := rfl
@[simp] theorem clearStage_cmd3 (s : State) : (clearStage s).cmd3 = 0#8 := rfl
@[simp] theorem clearStage_rxId (s : State) : (clearStage s).rxId = s.rxId := rfl
@[simp] theorem clearStage_rxDlc (s : State) : (clearStage s).rxDlc = s.rxDlc := rfl
@[simp] theorem clearStage_rxData (s : State) : (clearStage s).rxData = s.rxData := rfl
@[simp] theorem clearStage_txq (s : State) : (clearStage s).txq = s.txq := rfl
@[simp] theorem clearStage_txTries (s : State) : (clearStage s).txTries = s.txTries := rfl
@[simp] theorem clearStage_err (s : State) : (clearStage s).err = s.err := rfl
@[simp] theorem clearStage_inputs (s : State) : (clearStage s).inputs = s.inputs := rfl
@[simp] theorem clearStage_outputs (s : State) : (clearStage s).outputs = s.outputs := rfl

/-! ### emit -/

@[simp] theorem emit_cfg (o : Output) (s : State) : (emit o s).cfg = s.cfg := rfl
@[simp] theorem emit_store (o : Output) (s : State) : (emit o s).store = s.store := rfl
@[simp] theorem emit_tickCnt (o : Output) (s : State) : (emit o s).tickCnt = s.tickCnt := rfl
@[simp] theorem emit_lstate (o : Output) (s : State) : (emit o s).lstate = s.lstate := rfl
@[simp] theorem emit_seq (o : Output) (s : State) : (emit o s).seq = s.seq := rfl
@[simp] theorem emit_waitCnt (o : Output) (s : State) : (emit o s).waitCnt = s.waitCnt := rfl
@[simp] theorem emit_buf (o : Output) (s : State) : (emit o s).buf = s.buf := rfl
@[simp] theorem emit_bufLen (o : Output) (s : State) : (emit o s).bufLen = s.bufLen := rfl
@[simp] theorem emit_cursor (o : Output) (s : State) : (emit o s).cursor = s.cursor := rfl
@[simp] theorem emit_chunkLen (o : Output) (s : State) : (emit o s).chunkLen = s.chunkLen := rfl
@[simp] theorem emit_chunkLast (o : Output) (s : State) : (emit o s).chunkLast = s.chunkLast := rfl
@[simp] theorem emit_chunkData (o : Output) (s : State) : (emit o s).chunkData = s.chunkData := rfl
@[simp] theorem emit_cmd1 (o : Output) (s : State) : (emit o s).cmd1 = s.cmd1 := rfl
@[simp] theorem emit_cmd2 (o : Output) (s : State) : (emit o s).cmd2 = s.cmd2 := rfl
@[simp] theorem emit_cmd3 (o : Output) (s : State) : (emit o s).cmd3 = s.cmd3 := rfl
@[simp] theorem emit_rxId (o : Output) (s : State) : (emit o s).rxId = s.rxId := rfl
@[simp] theorem emit_rxDlc (o : Output) (s : State) : (emit o s).rxDlc = s.rxDlc := rfl
@[simp] theorem emit_rxData (o : Output) (s : State) : (emit o s).rxData = s.rxData := rfl
@[simp] theorem emit_txq (o : Output) (s : State) : (emit o s).txq = s.txq := rfl
@[simp] theorem emit_txTries (o : Output) (s : State) : (emit o s).txTries = s.txTries := rfl
@[simp] theorem emit_err (o : Output) (s : State) : (emit o s).err = s.err := rfl
@[simp] theorem emit_inputs (o : Output) (s : State) : (emit o s).inputs = s.inputs := rfl
@[simp] theorem emit_outputs (o : Output) (s : State) : (emit o s).outputs = s.outputs ++ [o] := rfl

/-! ### resetState -/

@[simp] theorem resetState_cfg (s : State) : (resetState s).cfg = s.cfg := rfl
@[simp] theorem resetState_store (s : State) : (resetState s).store = SignalStore.resetWith s.cfg := rfl
@[simp] theorem resetState_tickCnt (s : State) : (resetState s).tickCnt = 0#8 := rfl
@[simp] theorem resetState_lstate (s : State) : (resetState s).lstate = .idle := rfl
@[simp] theorem resetState_seq (s : State) : (resetState s).seq = 0#4 := rfl
@[simp] theorem resetState_waitCnt (s : State) : (resetState s).waitCnt = 0#16 := rfl
@[simp] theorem resetState_buf (s : State) : (resetState s).buf = [] := rfl
@[simp] theorem resetState_bufLen (s : State) : (resetState s).bufLen = 0#16 := rfl
@[simp] theorem resetState_cursor (s : State) : (resetState s).cursor = 0#16 := rfl
@[simp] theorem resetState_chunkLen (s : State) : (resetState s).chunkLen = 0#4 := rfl
@[simp] theorem resetState_chunkLast (s : State) : (resetState s).chunkLast = false := rfl
@[simp] theorem resetState_chunkData (s : State) : (resetState s).chunkData = Vector.replicate 8 0#8 := rfl
@[simp] theorem resetState_cmd1 (s : State) : (resetState s).cmd1 = 0#8 := rfl
@[simp] theorem resetState_cmd2 (s : State) : (resetState s).cmd2 = 0#8 := rfl
@[simp] theorem resetState_cmd3 (s : State) : (resetState s).cmd3 = 0#8 := rfl
@[simp] theorem resetState_rxId (s : State) : (resetState s).rxId = 0#11 := rfl
@[simp] theorem resetState_rxDlc (s : State) : (resetState s).rxDlc = 0#4 := rfl
@[simp] theorem resetState_rxData (s : State) : (resetState s).rxData = Vector.replicate 8 0#8 := rfl
@[simp] theorem resetState_txq (s : State) : (resetState s).txq = [] := rfl
@[simp] theorem resetState_txTries (s : State) : (resetState s).txTries = 0#16 := rfl
@[simp] theorem resetState_err (s : State) : (resetState s).err = 0#16 := rfl
@[simp] theorem resetState_inputs (s : State) : (resetState s).inputs = s.inputs := rfl
@[simp] theorem resetState_outputs (s : State) : (resetState s).outputs = s.outputs := rfl

/-- The reset memory has the canonical form. -/
theorem State.resetWith_buf_wf (c : Cfg) : Memory.wf (State.resetWith c).buf :=
  ⟨List.Pairwise.nil, by intro p hp; cases hp⟩

end Sys2Proof.Machine
end

