-- ==== Sys2Proof/Laws/Ops.lean ====
section
/-! SUPPORT. For each shared operation, once, all that it can do. -/

namespace Sys2Proof.Machine

theorem bufWrite_ok {s t : State} {i : Nat} {v : Byte} (h : bufWrite s i v = .ok t) :
    i < s.cfg.bufCap ∧ t = { s with buf := s.buf.write i v } := by
  unfold bufWrite at h
  split at h
  · next hi => exact ⟨hi, by injection h with h; exact h.symm⟩
  · cases h

theorem bufRead8_ok {s : State} {p : Nat} {d : Data8} (h : bufRead8 s p = .ok d) :
    p + 7 < s.cfg.bufCap ∧ d = Vector.ofFn fun i => s.buf.read (p + i.val) := by
  unfold bufRead8 at h
  split at h
  · next hi => exact ⟨hi, by injection h with h; exact h.symm⟩
  · cases h

theorem nextChunk_of_inRange {s : State} (h : s.cursor.toNat + 7 < s.cfg.bufCap) :
    nextChunk s = .ok (⟨Vector.ofFn fun i => s.buf.read (s.cursor.toNat + i.val), chunkLength s, chunkIsLast s⟩,
      { s with cursor := if chunkIsLast s then 0#16 else s.cursor + 8#16 }) := by
  simp [nextChunk, bufRead8, h]

theorem nextChunk_ok {s t : State} {ch : Chunk} (h : nextChunk s = .ok (ch, t)) :
    s.cursor.toNat + 7 < s.cfg.bufCap ∧
      ch = ⟨Vector.ofFn fun i => s.buf.read (s.cursor.toNat + i.val), chunkLength s, chunkIsLast s⟩ ∧
      t = { s with cursor := if chunkIsLast s then 0#16 else s.cursor + 8#16 } := by
  by_cases hr : s.cursor.toNat + 7 < s.cfg.bufCap
  · rw [nextChunk_of_inRange hr] at h
    injection h with h
    injection h with h1 h2
    exact ⟨hr, h1.symm, h2.symm⟩
  · simp [nextChunk, bufRead8, hr] at h

theorem chunkLength_le (s : State) : chunkLength s ≤ 8 := by
  unfold chunkLength
  split
  · split <;> omega
  · omega

theorem chunkLength_pos (s : State) : 1 ≤ chunkLength s := by
  unfold chunkLength
  split
  · split <;> omega
  · omega

/-- A sent chunk: the frame is queued, the sequence counter and the cursor move, and a chunk that is not the last makes
the machine wait. -/
theorem sendChunk_ok {s t : State} (h : sendChunk s = .ok t) :
    s.cursor.toNat + 7 < s.cfg.bufCap ∧
      t = { s with
        txq := s.txq ++ [⟨.master, dataFrame s.cfg s.seq
          ⟨Vector.ofFn fun i => s.buf.read (s.cursor.toNat + i.val), chunkLength s, chunkIsLast s⟩⟩]
        seq := s.seq + 1#4
        cursor := if chunkIsLast s then 0#16 else s.cursor + 8#16
        lstate := if chunkIsLast s then s.lstate else .waitForCluster
        waitCnt := if chunkIsLast s then s.waitCnt else 0#16 } := by
  unfold sendChunk at h
  split at h
  · cases h
  · next ch s1 hn =>
    obtain ⟨hr, rfl, rfl⟩ := nextChunk_ok hn
    refine ⟨hr, ?_⟩
    injection h with h
    rw [← h]
    by_cases hl : chunkIsLast s <;> simp [hl, transmit, setState]

theorem sendChunk_of_inRange {s : State} (h : s.cursor.toNat + 7 < s.cfg.bufCap) : ∃ t, sendChunk s = .ok t := by
  simp [sendChunk, nextChunk_of_inRange h]

/-- One Link Protocol step does one of eleven things (44_link_protocol.md R181). -/
theorem linkStep_ok {req : Bool} {f : Option CanFrame} {s t : State} (h : linkStep req f s = .ok t) :
    (s.lstate = .idle ∧ req = true ∧ t = setState .start (transmit .master (openFrame s.cfg) s)) ∨
    (s.lstate = .idle ∧ req = false ∧ t = s) ∨
    (s.lstate = .start ∧ isStartAck s.cfg f = true ∧
      t = setState .preamble (transmit .master (preambleFrame s.cfg) s)) ∨
    (s.lstate = .start ∧ isStartAck s.cfg f = false ∧ t = s) ∨
    (s.lstate = .preamble ∧ isPreambleAck s.cfg f = true ∧ t = setState .info s) ∨
    (s.lstate = .preamble ∧ isPreambleAck s.cfg f = false ∧ t = s) ∨
    (s.lstate = .info ∧ (∃ q, closeSeq s.cfg f = some q ∧
      t = setState .stop (transmit .master (closeAckFrame s.cfg q) s))) ∨
    (s.lstate = .info ∧ closeSeq s.cfg f = none ∧ s.bufLen = 0#16 ∧ t = raise .bufEmpty s) ∨
    (s.lstate = .info ∧ closeSeq s.cfg f = none ∧ s.bufLen ≠ 0#16 ∧ sendChunk s = .ok t) ∨
    (s.lstate = .waitForCluster ∧ isChunkAck s.cfg s.seq f = true ∧ t = setState .info s) ∨
    (s.lstate = .waitForCluster ∧ isChunkAck s.cfg s.seq f = false ∧ t = s) ∨
    (s.lstate = .stop ∧ t = linkStop s) := by
  cases hl : s.lstate <;> simp only [linkStep, hl] at h
  · injection h with h; subst h
    cases req <;> simp [linkIdle]
  · injection h with h; subst h
    cases ha : isStartAck s.cfg f <;> simp [linkStart, ha]
  · injection h with h; subst h
    cases ha : isPreambleAck s.cfg f <;> simp [linkPreamble, ha]
  · unfold linkInfo at h
    split at h
    · next q hq => injection h with h; subst h; simp [hq]
    · next hq =>
      split at h
      · next hb => injection h with h; subst h; simp [hq, hb]
      · next hb => simp [hq, hb, h]
  · injection h with h; subst h
    cases ha : isChunkAck s.cfg s.seq f <;> simp [linkWait, ha]
  · injection h with h; subst h; simp

/-- A Link Protocol step faults only where a chunk fetch leaves the buffer. -/
theorem linkStep_total {req : Bool} {f : Option CanFrame} {s : State}
    (h : s.bufLen ≠ 0#16 → s.cursor.toNat + 7 < s.cfg.bufCap) : ∃ t, linkStep req f s = .ok t := by
  unfold linkStep
  split <;> try exact ⟨_, rfl⟩
  unfold linkInfo
  split
  · exact ⟨_, rfl⟩
  · split
    · exact ⟨_, rfl⟩
    · next hb => exact sendChunk_of_inRange (h hb)

theorem finish_next {r : Except Fault State} {t : State} (h : finish r = .next t) : r = .ok t := by
  cases r with
  | ok s => injection h with h; rw [h]
  | error e => cases h

/-- An attempt takes the head away (accepted, or dropped at the retry limit), counts a rejection, or, with nothing
queued, changes nothing (60_exceptions.md R216). -/
theorem attempt_cases (accepted : Bool) (s : State) :
    (s.txq = [] ∧ attempt accepted s = s) ∨
    (∃ e rest, s.txq = e :: rest ∧ accepted = true ∧
      attempt accepted s = { s with txq := rest, txTries := 0#16, outputs := s.outputs ++ [.sent e] }) ∨
    (∃ e rest, s.txq = e :: rest ∧ accepted = false ∧ s.cfg.txRetryLimit ≠ 0#16 ∧
      s.cfg.txRetryLimit.toNat ≤ s.txTries.toNat + 1 ∧
      attempt accepted s = { s with txq := rest, txTries := 0#16, err := s.err ||| Err.mask .txFail }) ∨
    (∃ e rest, s.txq = e :: rest ∧ accepted = false ∧
      ¬(s.cfg.txRetryLimit ≠ 0#16 ∧ s.cfg.txRetryLimit.toNat ≤ s.txTries.toNat + 1) ∧
      attempt accepted s = { s with txTries := if s.txTries = 0xFFFF#16 then s.txTries else s.txTries + 1#16 }) := by
  cases hq : s.txq with
  | nil => exact .inl ⟨rfl, by simp [attempt, hq]⟩
  | cons e rest =>
    cases accepted with
    | true => exact .inr (.inl ⟨e, rest, rfl, rfl, by simp [attempt, hq, emit]⟩)
    | false =>
      by_cases hd : s.cfg.txRetryLimit ≠ 0#16 ∧ s.cfg.txRetryLimit.toNat ≤ s.txTries.toNat + 1
      · exact .inr (.inr (.inl ⟨e, rest, rfl, rfl, hd.1, hd.2, by simp [attempt, hq, raise, hd]⟩))
      · refine .inr (.inr (.inr ⟨e, rest, rfl, rfl, hd, ?_⟩))
        simp only [attempt, hq]
        rw [if_neg (by simp), if_neg hd]

/-- The deadline does nothing, counts one tick, or restarts the Link Protocol (43_schedule.md R162). -/
theorem linkDeadline_cases (s : State) :
    (¬(s.cfg.waitLimit ≠ 0#16 ∧ s.lstate.waiting = true) ∧ linkDeadline s = s) ∨
    ((s.cfg.waitLimit ≠ 0#16 ∧ s.lstate.waiting = true) ∧ s.waitCnt.toNat + 1 < s.cfg.waitLimit.toNat ∧
      linkDeadline s = { s with waitCnt := s.waitCnt + 1#16 }) ∨
    ((s.cfg.waitLimit ≠ 0#16 ∧ s.lstate.waiting = true) ∧ s.cfg.waitLimit.toNat ≤ s.waitCnt.toNat + 1 ∧
      linkDeadline s = raise .linkTimeout (linkRestart s)) := by
  by_cases hw : s.cfg.waitLimit ≠ 0#16 ∧ s.lstate.waiting = true
  · by_cases hl : s.cfg.waitLimit.toNat ≤ s.waitCnt.toNat + 1
    · exact .inr (.inr ⟨hw, hl, by simp [linkDeadline, hw, hl]⟩)
    · refine .inr (.inl ⟨hw, by omega, ?_⟩)
      unfold linkDeadline
      rw [if_pos hw, if_neg hl]
  · refine .inl ⟨hw, ?_⟩
    unfold linkDeadline
    rw [if_neg hw]

/-- One step: refusal of an ill-formed configuration, idling, or one input's effect. -/
theorem stepBlock_cases (s : State) :
    (¬s.cfg.WellFormed ∧ stepBlock s = .refused .illFormedConfig) ∨
    (s.cfg.WellFormed ∧ s.inputs = [] ∧ stepBlock s = .next s) ∨
    (s.cfg.WellFormed ∧ ∃ i rest, s.inputs = i :: rest ∧ stepBlock s = perform i { s with inputs := rest }) := by
  unfold stepBlock
  split
  · next hw =>
    cases hi : s.inputs with
    | nil => exact .inr (.inl ⟨hw, rfl, rfl⟩)
    | cons i rest => exact .inr (.inr ⟨hw, i, rest, rfl, rfl⟩)
  · next hw => exact .inl ⟨hw, rfl⟩

/-- A trigger is refused as BUSY, rejected as BAD_CMD, or runs the decoded command (30_encoding.md R82). -/
theorem execute_cases (w : Word) (s : State) :
    ((s.txq ≠ [] ∧ w ≠ sresetWord) ∧ execute w s = .next (raise .busy s)) ∨
    (¬(s.txq ≠ [] ∧ w ≠ sresetWord) ∧ (∃ e, decode w = .error e) ∧ execute w s = .next (raise .badCmd s)) ∨
    (¬(s.txq ≠ [] ∧ w ≠ sresetWord) ∧ ∃ i, decode w = .ok i ∧ execute w s = exec i s) := by
  have hp : (txPending s = true) ↔ s.txq ≠ [] := by cases h : s.txq <;> simp [txPending, h]
  unfold execute
  by_cases hb : s.txq ≠ [] ∧ w ≠ sresetWord
  · exact .inl ⟨hb, if_pos ⟨hp.mpr hb.1, hb.2⟩⟩
  · have hn : ¬(txPending s = true ∧ w ≠ sresetWord) := fun h => hb ⟨hp.mp h.1, h.2⟩
    rw [if_neg hn]
    cases hd : decode w with
    | error e => exact .inr (.inl ⟨hb, ⟨e, rfl⟩, rfl⟩)
    | ok i => exact .inr (.inr ⟨hb, i, rfl, rfl⟩)

/-- `encodeFrame` answers for each of the seven identifiers (41_encode.md R132). -/
theorem transmitEncoded_eq (id : Ident) (s : State) :
    transmitEncoded id s =
      { s with txq := s.txq ++ ((encodeFrame s.cfg s.store id).toList.map (TxEntry.mk .slave)) } := by
  unfold transmitEncoded
  cases encodeFrame s.cfg s.store id <;> simp [transmit]

/-- An emission only appends to the queue. -/
def Emits (f : State → State) (l : Cfg → SignalStore → List TxEntry) : Prop :=
  ∀ s, f s = { s with txq := s.txq ++ l s.cfg s.store }

theorem emits_gated {f : State → State} {l : Cfg → SignalStore → List TxEntry} (h : Emits f l) (count div : Byte)
    (s : State) :
    gated count div f s =
      { s with txq := s.txq ++ (if count.toNat % div.toNat = 0 then l s.cfg s.store else []) } := by
  unfold gated
  split
  · exact h s
  · simp

/-- The entry of one slave frame. -/
def entryOf (c : Cfg) (st : SignalStore) (id : Ident) : List TxEntry :=
  (encodeFrame c st id).toList.map (TxEntry.mk .slave)

theorem emitGroupA_emits :
    Emits emitGroupA fun c st => entryOf c st c.idSIgn ++ entryOf c st c.idSWheel ++ entryOf c st c.idSOdo := by
  intro s; simp [emitGroupA, transmitEncoded_eq, entryOf]

theorem emitGroupB_emits : Emits emitGroupB fun c st => entryOf c st c.idSDim ++ entryOf c st c.idSGear := by
  intro s; simp [emitGroupB, transmitEncoded_eq, entryOf]

theorem emitGroupC_emits : Emits emitGroupC fun c st => entryOf c st c.idSLang := by
  intro s; simp [emitGroupC, transmitEncoded_eq, entryOf]

theorem emitGroupD_emits : Emits emitGroupD fun c st => entryOf c st c.idSCfg := by
  intro s; simp [emitGroupD, transmitEncoded_eq, entryOf]

/-- The frames of one tick with counter `count` (43_schedule.md R161). -/
def groupEntries (count : Byte) (c : Cfg) (st : SignalStore) : List TxEntry :=
  (if count.toNat % c.divA.toNat = 0 then
    entryOf c st c.idSIgn ++ entryOf c st c.idSWheel ++ entryOf c st c.idSOdo else [])
  ++ (if count.toNat % c.divB.toNat = 0 then entryOf c st c.idSDim ++ entryOf c st c.idSGear else [])
  ++ (if count.toNat % c.divC.toNat = 0 then entryOf c st c.idSLang else [])
  ++ (if count.toNat % c.divD.toNat = 0 then entryOf c st c.idSCfg else [])

theorem emitGroups_eq (count : Byte) (s : State) :
    emitGroups count s = { s with txq := s.txq ++ groupEntries count s.cfg s.store } := by
  unfold emitGroups groupEntries
  rw [emits_gated emitGroupA_emits, emits_gated emitGroupB_emits, emits_gated emitGroupC_emits,
    emits_gated emitGroupD_emits]
  simp

/-- A write that is no trigger changes the staging bytes and the RX registers only (20_memory.md R52). -/
theorem stageWrite_eq (a v : Byte) (s : State) :
    ∃ c1 c2 c3 id dlc d, stageWrite a v s =
      { s with cmd1 := c1, cmd2 := c2, cmd3 := c3, rxId := id, rxDlc := dlc, rxData := d } := by
  unfold stageWrite
  repeat' split
  all_goals exact ⟨_, _, _, _, _, _, rfl⟩

/-- An encoded frame carries the target identifier and has a length of at most 8 (41_encode.md R132). -/
theorem encodeFrame_some {c : Cfg} {st : SignalStore} {id : Ident} {f : CanFrame} (h : encodeFrame c st id = some f) :
    ∃ n d, n ≤ 8 ∧ f = mkFrame id n d := by
  unfold encodeFrame at h
  repeat' split at h
  all_goals first | (subst_vars; injection h with h; exact ⟨_, _, by decide, h.symm⟩) | cases h

/-- `encodeFrame` answers for the seven slave identifiers and no other (41_encode.md R132). -/
theorem encodeFrame_eq_none_iff (c : Cfg) (st : SignalStore) (id : Ident) :
    encodeFrame c st id = none ↔
      id ∉ [c.idSIgn, c.idSWheel, c.idSGear, c.idSDim, c.idSOdo, c.idSLang, c.idSCfg] := by
  unfold encodeFrame
  repeat' split
  all_goals simp_all

end Sys2Proof.Machine
end

