-- ==== Sys2Proof/Laws/Commands.lean ====
section
/-! SUPPORT. For each command with more than one outcome, once, all that it can do when it answers a next state. -/

namespace Sys2Proof.Machine

/-- MFRAME: an error bit, decoded store fields (never the DIM fields, `language` or `isMetric`), one forwarded Link
Protocol step, or nothing (40_decode.md R110). -/
theorem exec_mframe_next {s t : State} (h : exec .mframe s = .next t) :
    t = raise .badFrame s ∨ t = raise .decodeShort s ∨
    (∃ st : SignalStore, t = { s with store := st } ∧ st.language = s.store.language ∧ st.isMetric = s.store.isMetric ∧
      st.dimAvg = s.store.dimAvg ∧ st.nightMode = s.store.nightMode) ∨
    (LinkStepOf .mframe true s ∧ linkStep false (some (rxFrame s)) s = .ok t) ∨ t = s := by
  change execMframe s = _ at h
  simp only [execMframe] at h
  split at h
  · cases h; simp
  split at h
  · cases h; unfold decodeIgn; split <;> simp
  split at h
  · cases h; unfold decodeWheel; split <;> simp
  split at h
  · cases h; unfold decodeOdo; split <;> simp
  split at h
  · cases h; unfold decodeRpm; split <;> simp
  split at h
  · next hx => exact .inr (.inr (.inr (.inl ⟨.inr ⟨rfl, rfl, hx⟩, finish_next h⟩)))
  · cases h; simp

/-- SFRAME: an error bit, or nothing (40_decode.md R117). -/
theorem exec_sframe_next {s t : State} (h : exec .sframe s = .next t) : t = raise .badFrame s ∨ t = s := by
  change execSframe s = _ at h
  unfold execSframe at h
  split at h <;> cases h <;> simp

/-- TICK: the counter, the frames of its groups, then the deadline (43_schedule.md R160); `linkDeadline_cases` says what
the deadline does. -/
theorem exec_tick_eq (s : State) :
    exec .tick s = .next (linkDeadline { s with
      tickCnt := nextTick s, txq := s.txq ++ groupEntries (nextTick s) s.cfg s.store }) := by
  change Host.Outcome.next _ = _
  rw [emitGroups_eq]

/-- ENC: one frame, or BAD_TARGET (41_encode.md R131). -/
theorem exec_enc_next {s t : State} {id : Ident} (h : exec (.enc id) s = .next t) :
    (∃ f, encodeFrame s.cfg s.store id = some f ∧ t = transmit .slave f s) ∨
    (encodeFrame s.cfg s.store id = none ∧ t = raise .badTarget s) := by
  change execEnc id s = _ at h
  unfold execEnc at h
  split at h
  · next f hf => cases h; exact .inl ⟨f, hf, rfl⟩
  · next hn => cases h; exact .inr ⟨hn, rfl⟩

/-- LSTEP: BAD_FRAME, or one Link Protocol step (44_link_protocol.md R170); `linkStep_ok` says what the step does. -/
theorem exec_lstep_next {s t : State} {req frame : Bool} (h : exec (.lstep req frame) s = .next t) :
    t = raise .badFrame s ∨ linkStep req (if frame then some (rxFrame s) else none) s = .ok t := by
  change execLstep req frame s = _ at h
  unfold execLstep at h
  split at h
  · cases h; simp
  · exact .inr (finish_next h)

/-- BCLR: BUF_BUSY, or the emptied buffer (45_frame_buffer.md R190). -/
theorem exec_bclr_next {s t : State} (h : exec .bclr s = .next t) :
    t = raise .bufBusy s ∨ t = { s with bufLen := 0#16, cursor := 0#16 } := by
  change execBclr s = _ at h
  unfold execBclr at h
  split at h <;> cases h <;> simp

/-- BAPP: BUF_BUSY, BUF_OVF, or one byte appended (45_frame_buffer.md R191). -/
theorem exec_bapp_next {s t : State} {b : Byte} (h : exec (.bapp b) s = .next t) :
    t = raise .bufBusy s ∨ t = raise .bufOvf s ∨
    t = { s with buf := s.buf.write s.bufLen.toNat b, bufLen := s.bufLen + 1#16 } := by
  change execBapp b s = _ at h
  unfold execBapp at h
  split at h
  · cases h; simp
  split at h
  · cases h; simp
  have ha := finish_next h
  unfold appendByte at ha
  split at ha
  · cases ha
  · next hw => obtain ⟨_, rfl⟩ := bufWrite_ok hw; cases ha; simp

/-- CHUNK: BUF_BUSY, BUF_EMPTY, or one chunk in the result registers (45_frame_buffer.md R193). -/
theorem exec_chunk_next {s t : State} (h : exec .chunk s = .next t) :
    t = raise .bufBusy s ∨ t = raise .bufEmpty s ∨
    t = { s with
      chunkData := Vector.ofFn fun i => s.buf.read (s.cursor.toNat + i.val)
      chunkLen := BitVec.ofNat 4 (chunkLength s)
      chunkLast := chunkIsLast s
      cursor := if chunkIsLast s then 0#16 else s.cursor + 8#16 } := by
  change execChunk s = _ at h
  unfold execChunk at h
  split at h
  · cases h; simp
  split at h
  · cases h; simp
  have hf := finish_next h
  unfold fetchChunk at hf
  split at hf
  · cases hf
  · next hn => obtain ⟨_, rfl, rfl⟩ := nextChunk_ok hn; cases hf; simp

end Sys2Proof.Machine
end

