-- ==== Sys2Proof/Laws/Decode.lean ====
section
/-! SUPPORT. The fields of a command word as numbers, the word built from fields, and each row's mask as a condition on the
word as a number. -/

namespace Sys2Proof

theorem packWord_toNat (a f r o) : (packWord a f r o).toNat = a.toNat * 2 ^ 16 + f.toNat * 2 ^ 9 + r.toNat * 2 ^ 8 + o.toNat := by
  have := a.isLt; have := o.isLt; have := f.toNat_le; have := r.toNat_le
  simp only [packWord, BitVec.toNat_ofNat]; omega
theorem wordOpc_toNat (w : Word) : (wordOpc w).toNat = w.toNat % 256 := by simp [wordOpc]
theorem wordArg_toNat (w : Word) : (wordArg w).toNat = w.toNat / 2^16 := by
  have := w.isLt
  simp [wordArg, Nat.shiftRight_eq_div_pow]; omega
theorem wordReserved_toNat (w : Word) : (wordReserved w).toNat = w.toNat / 2^10 % 64 := by
  simp [wordReserved, Nat.shiftRight_eq_div_pow]
theorem wordReq_toNat (w : Word) : (wordReq w).toNat = w.toNat / 2^8 % 2 := by
  simp [wordReq, BitVec.getLsbD, Nat.testBit_eq_decide_div_mod_eq]
  rcases Nat.mod_two_eq_zero_or_one (w.toNat/256) with h | h <;> simp [h]
theorem wordFrame_toNat (w : Word) : (wordFrame w).toNat = w.toNat / 2^9 % 2 := by
  simp [wordFrame, BitVec.getLsbD, Nat.testBit_eq_decide_div_mod_eq]
  rcases Nat.mod_two_eq_zero_or_one (w.toNat/512) with h | h <;> simp [h]
theorem bool_eq_of_toNat_eq {a b : Bool} (h : a.toNat = b.toNat) : a = b := by cases a <;> cases b <;> simp_all
theorem wordOpc_packWord (a f r o) : wordOpc (packWord a f r o) = o := by
  have := a.isLt; have := o.isLt; have := f.toNat_le; have := r.toNat_le
  apply BitVec.eq_of_toNat_eq; rw [wordOpc_toNat, packWord_toNat]; omega
theorem wordArg_packWord (a f r o) : wordArg (packWord a f r o) = a := by
  have := a.isLt; have := o.isLt; have := f.toNat_le; have := r.toNat_le
  apply BitVec.eq_of_toNat_eq; rw [wordArg_toNat, packWord_toNat]; omega
theorem wordReq_packWord (a f r o) : wordReq (packWord a f r o) = r := by
  have := a.isLt; have := o.isLt; have := f.toNat_le; have := r.toNat_le
  apply bool_eq_of_toNat_eq; rw [wordReq_toNat, packWord_toNat]; omega
theorem wordFrame_packWord (a f r o) : wordFrame (packWord a f r o) = f := by
  have := a.isLt; have := o.isLt; have := f.toNat_le; have := r.toNat_le
  apply bool_eq_of_toNat_eq; rw [wordFrame_toNat, packWord_toNat]; omega
theorem wordReserved_packWord (a f r o) : wordReserved (packWord a f r o) = 0#6 := by
  have := a.isLt; have := o.isLt; have := f.toNat_le; have := r.toNat_le
  apply BitVec.eq_of_toNat_eq; rw [wordReserved_toNat, packWord_toNat]; simp; omega
theorem packWord_fields (w : Word) (h : wordReserved w = 0#6) : packWord (wordArg w) (wordFrame w) (wordReq w) (wordOpc w) = w := by
  have h' := congrArg BitVec.toNat h
  rw [wordReserved_toNat] at h'
  apply BitVec.eq_of_toNat_eq
  rw [packWord_toNat, wordArg_toNat, wordFrame_toNat, wordReq_toNat, wordOpc_toNat]
  have := w.isLt
  simp at h'; omega

/-- A bitwise AND, split at bit `k`. -/
theorem land_split (a b k : Nat) :
    a &&& b = ((a / 2 ^ k) &&& (b / 2 ^ k)) * 2 ^ k + ((a % 2 ^ k) &&& (b % 2 ^ k)) := by
  have h1 : (a &&& b) / 2 ^ k = (a / 2 ^ k) &&& (b / 2 ^ k) := by
    rw [← Nat.shiftRight_eq_div_pow, Nat.shiftRight_and_distrib, Nat.shiftRight_eq_div_pow, Nat.shiftRight_eq_div_pow]
  have h2 : (a &&& b) % 2 ^ k = (a % 2 ^ k) &&& (b % 2 ^ k) := Nat.and_mod_two_pow
  rw [← h1, ← h2, Nat.mul_comm]
  exact (Nat.div_add_mod _ _).symm

theorem rowMatches_iff (w v m : Word) : rowMatches w v m = true ↔ w.toNat &&& m.toNat = v.toNat := by
  rw [rowMatches, beq_iff_eq, ← BitVec.toNat_inj, BitVec.toNat_and]

/-- A row with every bit fixed. -/
theorem rowMatches_all (w v : Word) : rowMatches w v 0xFFFFFFFF#32 = true ↔ w.toNat = v.toNat := by
  have h : w.toNat &&& 0xFFFFFFFF = w.toNat :=
    (Nat.and_two_pow_sub_one_eq_mod w.toNat 32).trans (Nat.mod_eq_of_lt w.isLt)
  rw [rowMatches_iff, show (0xFFFFFFFF#32).toNat = 0xFFFFFFFF from rfl, h]

/-- DIM, ECLR: ARG is free. -/
theorem rowMatches_arg16 (w v : Word) : rowMatches w v 0x0000FFFF#32 = true ↔ w.toNat % 2 ^ 16 = v.toNat := by
  rw [rowMatches_iff, show (0x0000FFFF#32).toNat = 2 ^ 16 - 1 from rfl, Nat.and_two_pow_sub_one_eq_mod]

/-- A mask whose low 16 bits are fixed and whose ARG bits below `j` are free. -/
theorem land_arg_mask (w : Word) (j : Nat) (hj : j ≤ 16) :
    w.toNat &&& ((2 ^ (16 - j) - 1) * 2 ^ (16 + j) + (2 ^ 16 - 1)) =
      w.toNat / 2 ^ (16 + j) * 2 ^ (16 + j) + w.toNat % 2 ^ 16 := by
  have hw : w.toNat / 2 ^ (16 + j) < 2 ^ (16 - j) := by
    rw [Nat.div_lt_iff_lt_mul (Nat.two_pow_pos _), ← Nat.pow_add, show 16 - j + (16 + j) = 32 by omega]
    exact w.isLt
  have hlt : 2 ^ 16 - 1 < 2 ^ (16 + j) := 
    Nat.lt_of_lt_of_le (by decide : 2 ^ 16 - 1 < 2 ^ 16) (Nat.pow_le_pow_right (by decide) (by omega))
  rw [land_split _ _ (16 + j), Nat.mul_comm (2 ^ (16 - j) - 1), Nat.mul_add_div (Nat.two_pow_pos _),
    Nat.div_eq_of_lt hlt, Nat.add_zero, Nat.and_two_pow_sub_one_eq_mod, Nat.mod_eq_of_lt hw, Nat.mul_add_mod,
    Nat.mod_eq_of_lt hlt, Nat.and_two_pow_sub_one_eq_mod, Nat.mod_mod_of_dvd _ (Nat.pow_dvd_pow 2 (by omega))]

/-- ENC: ARG[10:0] is free. -/
theorem rowMatches_enc (w v : Word) :
    rowMatches w v 0xF800FFFF#32 = true ↔ w.toNat / 2 ^ 27 * 2 ^ 27 + w.toNat % 2 ^ 16 = v.toNat := by
  rw [rowMatches_iff, show (0xF800FFFF#32).toNat = (2 ^ (16 - 11) - 1) * 2 ^ (16 + 11) + (2 ^ 16 - 1) from rfl,
    land_arg_mask w 11 (by decide)]

/-- BAPP: ARG[7:0] is free. -/
theorem rowMatches_bapp (w v : Word) :
    rowMatches w v 0xFF00FFFF#32 = true ↔ w.toNat / 2 ^ 24 * 2 ^ 24 + w.toNat % 2 ^ 16 = v.toNat := by
  rw [rowMatches_iff, show (0xFF00FFFF#32).toNat = (2 ^ (16 - 8) - 1) * 2 ^ (16 + 8) + (2 ^ 16 - 1) from rfl,
    land_arg_mask w 8 (by decide)]

/-- LSTEP: F_REQ and F_FRAME are free. -/
theorem rowMatches_lstep (w v : Word) :
    rowMatches w v 0xFFFFFCFF#32 = true ↔ w.toNat / 2 ^ 10 * 2 ^ 10 + w.toNat % 2 ^ 8 = v.toNat := by
  have hw : w.toNat / 2 ^ 10 < 2 ^ 22 := by have := w.isLt; omega
  rw [rowMatches_iff, show (0xFFFFFCFF#32).toNat = 0xFFFFFCFF from rfl, land_split _ _ 10,
    show 0xFFFFFCFF / 2 ^ 10 = 2 ^ 22 - 1 from rfl, Nat.and_two_pow_sub_one_eq_mod, Nat.mod_eq_of_lt hw,
    show 0xFFFFFCFF % 2 ^ 10 = 2 ^ 8 - 1 from rfl, Nat.and_two_pow_sub_one_eq_mod,
    Nat.mod_mod_of_dvd _ (Nat.pow_dvd_pow 2 (by decide : 8 ≤ 10))]

end Sys2Proof
end

