-- ==== Sys2Proof/Laws/Frame.lean ====
section
/-! SUPPORT. The bytes of the frames the block builds. -/

namespace Sys2Proof

theorem put_getD (d : Data8) (i j : Nat) (b : Byte) :
    (put d i b).getD j 0#8 = if i = j ∧ j < 8 then b else d.getD j 0#8 := by
  by_cases hj : j < 8 <;> simp [put, Vector.getD, hj, Array.getElem_setIfInBounds]

@[simp] theorem zero8_getD (j : Nat) : zero8.getD j 0#8 = 0#8 := by
  by_cases hj : j < 8 <;> simp [zero8, Vector.getD, hj]

theorem bytes8_getD (l : List Byte) (j : Nat) (hj : j < 8) : (bytes8 l).getD j 0#8 = l.getD j 0#8 := by
  simp [bytes8, Vector.getD, hj]

namespace Machine

@[simp] theorem mkFrame_id (id : Ident) (n : Nat) (d : Data8) : (mkFrame id n d).id = id := rfl

@[simp] theorem mkFrame_dlc (id : Ident) (n : Nat) (d : Data8) : (mkFrame id n d).dlc = BitVec.ofNat 4 n := rfl

theorem mkFrame_byte (id : Ident) (n : Nat) (d : Data8) (j : Nat) :
    (mkFrame id n d).byte j = if j < n then d.getD j 0#8 else 0#8 := by
  simp only [mkFrame, CanFrame.byte]
  by_cases hj : j < 8
  · simp [Vector.getD, hj]
  · simp [Vector.getD, hj]

end Machine
end Sys2Proof
end

