-- ==== Sys2Proof/Laws/PerInstr.lean ====
section
/-! SUPPORT. The family EncodeMatchesRow: the word of each command is matched by its own row of the opcode map. -/

namespace Sys2Proof.Laws.EncodeMatchesRow

open Sys2Proof

/-- The match and mask of the command's row (30_encoding.md R85). -/
def row : Instr → Word × Word
  | .nop => (0x00000000#32, 0xFFFFFFFF#32)
  | .mframe => (0x00000001#32, 0xFFFFFFFF#32)
  | .sframe => (0x00000002#32, 0xFFFFFFFF#32)
  | .tick => (0x00000003#32, 0xFFFFFFFF#32)
  | .dim _ => (0x00000004#32, 0x0000FFFF#32)
  | .enc _ => (0x00000005#32, 0xF800FFFF#32)
  | .lstep _ _ => (0x00000006#32, 0xFFFFFCFF#32)
  | .lreset => (0x00000007#32, 0xFFFFFFFF#32)
  | .bclr => (0x00000008#32, 0xFFFFFFFF#32)
  | .bapp _ => (0x00000009#32, 0xFF00FFFF#32)
  | .chunk => (0x0000000A#32, 0xFFFFFFFF#32)
  | .eclr _ => (0x0000000B#32, 0x0000FFFF#32)
  | .sreset => (0x0000000C#32, 0xFFFFFFFF#32)

/-- The command's word carries the fixed bits of its row (30_encoding.md R82, R85), and the row is one of the map's. -/
def Statement (i : Instr) : Prop := rowMatches (encode i) (row i).1 (row i).2 = true ∧ row i ∈ Machine.opcodeRows

theorem nop : Statement .nop := ⟨by decide, by decide⟩
theorem mframe : Statement .mframe := ⟨by decide, by decide⟩
theorem sframe : Statement .sframe := ⟨by decide, by decide⟩
theorem tick : Statement .tick := ⟨by decide, by decide⟩
theorem dim (v : U16) : Statement (.dim v) := by
  refine ⟨(rowMatches_arg16 _ _).mpr ?_, by simp [row, Machine.opcodeRows]⟩
  simp [encode, packWord_toNat, row]
theorem enc (id : Ident) : Statement (.enc id) := by
  have := id.isLt
  refine ⟨(rowMatches_enc _ _).mpr ?_, by simp [row, Machine.opcodeRows]⟩
  simp [encode, packWord_toNat, row]
  omega
theorem lstep (req frame : Bool) : Statement (.lstep req frame) := by
  cases req <;> cases frame <;> exact ⟨by decide, by decide⟩
theorem lreset : Statement .lreset := ⟨by decide, by decide⟩
theorem bclr : Statement .bclr := ⟨by decide, by decide⟩
theorem bapp (b : Byte) : Statement (.bapp b) := by
  have := b.isLt
  refine ⟨(rowMatches_bapp _ _).mpr ?_, by simp [row, Machine.opcodeRows]⟩
  simp [encode, packWord_toNat, row]
  omega
theorem chunk : Statement .chunk := ⟨by decide, by decide⟩
theorem eclr (m : U16) : Statement (.eclr m) := by
  refine ⟨(rowMatches_arg16 _ _).mpr ?_, by simp [row, Machine.opcodeRows]⟩
  simp [encode, packWord_toNat, row]
theorem sreset : Statement .sreset := ⟨by decide, by decide⟩

end Sys2Proof.Laws.EncodeMatchesRow
end

