-- ==== Sys2Proof/Tests/Slice0.lean ====
section
/-! SUPPORT. The model's own tests. Expected results come from the spec: the words of 30_encoding.md R85, the vectors and
programs of 95_test_vectors.md (named in each docstring), or hand calculation from the rule named. `witness_*` shows for
each statement with premises a concrete case that meets them, at the boundaries of its clauses. -/

namespace Sys2Proof.Tests

open Sys2Proof Sys2Proof.Machine

/-- A field of a next state. -/
def after {α : Type} (f : State → α) (o : Host.Outcome State Fault Refusal) : Option α :=
  match o with
  | .next s => some (f s)
  | .fault _ => none
  | .refused _ => none

/-- The reset state under EX, with the agents' next actions. -/
def withInputs (l : List Input) : State := { State.reset with inputs := l }

/-- The reset state under EX with a frame in the RX registers. -/
def withRx (id : Ident) (bytes : List Byte) : State :=
  { State.reset with rxId := id, rxDlc := BitVec.ofNat 4 bytes.length, rxData := bytes8 bytes }

/-- EX with WAIT_LIMIT 3 (program P5) and TX_RETRY_LIMIT 2 (program P4). -/
def exTimed : Cfg := { Config.ex with waitLimit := 3#16, txRetryLimit := 2#16 }

/-- A queued frame. -/
def entry : TxEntry := ⟨.slave, ⟨0x200#11, 2#4, #v[0x05#8, 0#8, 0#8, 0#8, 0#8, 0#8, 0#8, 0#8]⟩⟩

/-- A buffer of 20 bytes 0x40..0x53 (program P3). -/
def buf20 : Memory := (List.range 20).map fun i => (i, BitVec.ofNat 8 (0x40 + i))

/-- The reset state under EX with that buffer. -/
def filled : State := { State.reset with buf := buf20, bufLen := 20#16 }

/-! ### Well-formedness: each check refuses a term that breaks it alone -/

theorem ex_wellFormed : Config.ex.WellFormed := by decide
theorem exTimed_wellFormed : exTimed.WellFormed := by decide
theorem test_refuses_mGearBit : ¬({ Config.ex with mGearBit := 2 } : Cfg).WellFormed := by decide
theorem test_refuses_dimK : ¬({ Config.ex with dimK := 0#16 } : Cfg).WellFormed := by decide
theorem test_refuses_divA : ¬({ Config.ex with divA := 0#8 } : Cfg).WellFormed := by decide
theorem test_refuses_divB : ¬({ Config.ex with divB := 0#8 } : Cfg).WellFormed := by decide
theorem test_refuses_divC : ¬({ Config.ex with divC := 0#8 } : Cfg).WellFormed := by decide
theorem test_refuses_divD : ¬({ Config.ex with divD := 0#8 } : Cfg).WellFormed := by decide
theorem test_refuses_bufCap_low : ¬({ Config.ex with bufCap := 0 } : Cfg).WellFormed := by decide
theorem test_refuses_bufCap_high : ¬({ Config.ex with bufCap := 65536 } : Cfg).WellFormed := by decide
theorem test_refuses_a_equal_decode_ids : ¬({ Config.ex with idMWheel := 0x010#11 } : Cfg).WellFormed := by decide
theorem test_refuses_a_link_id : ¬({ Config.ex with idLAck := 0x030#11 } : Cfg).WellFormed := by decide
theorem test_refuses_b : ¬({ Config.ex with idSCfg := 0x200#11 } : Cfg).WellFormed := by decide
theorem test_refuses_c : ¬({ Config.ex with mIgnStartBit := 1 } : Cfg).WellFormed := by decide
theorem test_refuses_d : ¬({ Config.ex with wRpmOff := 1 } : Cfg).WellFormed := by decide
theorem test_refuses_e : ¬({ Config.ex with dNightOff := 0 } : Cfg).WellFormed := by decide
theorem test_refuses_f : ¬({ Config.ex with oTempOff := 2 } : Cfg).WellFormed := by decide
theorem test_refuses_g : ¬({ Config.ex with dimUpper := 0x40#8 } : Cfg).WellFormed := by decide
theorem test_refuses_h : ¬({ Config.ex with divB := 11#8 } : Cfg).WellFormed := by decide
theorem test_refuses_i : ¬({ Config.ex with bufCap := 60 } : Cfg).WellFormed := by decide
theorem test_refuses_j : ¬({ Config.ex with ackMark := 0xB1#8 } : Cfg).WellFormed := by decide
theorem test_refuses_k : ¬({ Config.ex with mkWait := 2#3 } : Cfg).WellFormed := by decide
/-- One step under an ill-formed configuration is refused by name. -/
theorem test_step_refuses_ill_formed :
    (match step { State.reset with cfg := { Config.ex with dimK := 0#16 } } with
      | .refused .illFormedConfig => true
      | _ => false) = true := by decide
theorem test_ack_id_may_equal_start_id : ({ Config.ex with idLAck := 0x050#11 } : Cfg).WellFormed := by decide
theorem test_command_wellFormed : (Instr.enc 0x7FF#11).wellFormed = true := rfl
theorem test_line_of_nine_bytes_refused : (AsmLine.rx 0#11 (List.replicate 9 0#8)).wellFormed = false := by decide

/-! ### Decoding: words written out from 30_encoding.md R80, R85 -/

theorem test_decode_nop : decode 0x00000000#32 = .ok .nop := rfl
theorem test_decode_mframe : decode 0x00000001#32 = .ok .mframe := rfl
theorem test_decode_sframe : decode 0x00000002#32 = .ok .sframe := rfl
theorem test_decode_tick : decode 0x00000003#32 = .ok .tick := rfl
theorem test_decode_dim : decode 0x12340004#32 = .ok (.dim 0x1234#16) := rfl
theorem test_decode_enc : decode 0x02100005#32 = .ok (.enc 0x210#11) := rfl
theorem test_decode_enc_top : decode 0x07FF0005#32 = .ok (.enc 0x7FF#11) := rfl
theorem test_decode_lstep : decode 0x00000006#32 = .ok (.lstep false false) := rfl
theorem test_decode_lstep_r : decode 0x00000106#32 = .ok (.lstep true false) := rfl
theorem test_decode_lstep_f : decode 0x00000206#32 = .ok (.lstep false true) := rfl
theorem test_decode_lstep_rf : decode 0x00000306#32 = .ok (.lstep true true) := rfl
theorem test_decode_lreset : decode 0x00000007#32 = .ok .lreset := rfl
theorem test_decode_bclr : decode 0x00000008#32 = .ok .bclr := rfl
theorem test_decode_bapp : decode 0x00990009#32 = .ok (.bapp 0x99#8) := rfl
theorem test_decode_chunk : decode 0x0000000A#32 = .ok .chunk := rfl
theorem test_decode_eclr : decode 0x0202000B#32 = .ok (.eclr 0x0202#16) := rfl
theorem test_decode_sreset : decode 0x0000000C#32 = .ok .sreset := rfl
theorem test_reject_opcode_0D : decode 0x0000000D#32 = .error .unknownOpcode := rfl
theorem test_reject_opcode_FF : decode 0x000000FF#32 = .error .unknownOpcode := rfl
theorem test_reject_reserved_bit_10 : decode 0x00000400#32 = .error .reservedBits := rfl
theorem test_reject_reserved_bit_15 : decode 0x00008006#32 = .error .reservedBits := rfl
theorem test_reject_flag_on_mframe : decode 0x00000101#32 = .error .flagBits := rfl
theorem test_reject_flag_on_dim : decode 0x00000204#32 = .error .flagBits := rfl
theorem test_reject_arg_on_nop : decode 0x00010000#32 = .error .argBits := rfl
theorem test_reject_arg_bit_8_on_bapp : decode 0x01000009#32 = .error .argBits := rfl
theorem test_reject_arg_bit_11_on_enc : decode 0x08000005#32 = .error .argBits := rfl
theorem test_table_word : decodeTableWord 32 0x02100005 = some (.enc 0x210#11) := by decide
theorem test_table_word_illegal : decodeTableWord 32 0x0000000D = none := by decide
theorem test_encode_eclr : encode (.eclr 0x0202#16) = 0x0202000B#32 := by decide
theorem test_encode_lstep_rf : encode (.lstep true true) = 0x00000306#32 := by decide
/-- The next step after `withFetchWord` runs the command: `DIM 0xFFFF`, V-M2. -/
theorem test_withFetchWord_dim :
    after (fun s => s.store.dimAvg) (step (State.reset.withFetchWord 32 0xFFFF0004)) = some 0x87FF#16 := by decide
theorem test_withFetchWord_nothing_left :
    after (fun s => (s.inputs, s.cmd1, s.cmd2, s.cmd3)) (step (State.reset.withFetchWord 32 0xFFFF0004))
      = some ([], 0#8, 0#8, 0#8) := by decide

/-! ### Commands: vectors of 95_test_vectors.md section 3 -/

/-- V-C1: nothing changes. -/
theorem test_nop :
    after (fun s => (s.err, s.store, s.txq)) (exec .nop filled) = some (0#16, State.reset.store, []) := by decide
/-- V-D8. -/
theorem test_mframe_wheel :
    after (fun s => (s.store.gearBox, s.store.speed, s.store.wheelPulse, s.store.wheelDelta, s.store.temperature))
      (exec .mframe (withRx 0x020#11 [0x02#8, 0x00#8, 0x34#8, 0x92#8, 0xFD#8, 0xFF#8, 0x55#8]))
      = some (0x02#8, 0x2468#16, 0x7FD#16, 0x7FD#16, 0x55#8) := by decide
/-- V-D3. -/
theorem test_mframe_start_wins_over_acc :
    after (fun s => s.store.ignition) (exec .mframe (withRx 0x010#11 [0x05#8])) = some 0x09#8 := by decide
/-- V-D19. -/
theorem test_mframe_odometer_carries :
    after (fun s => (s.store.odo0, s.store.odo1, s.store.odo2)) (exec .mframe (withRx 0x030#11 [0x80#8, 0x80#8, 0x00#8]))
      = some (0x00#8, 0x01#8, 0x01#8) := by decide
/-- V-D21. -/
theorem test_mframe_rpm :
    after (fun s => s.store.rpm) (exec .mframe (withRx 0x040#11 [0x10#8, 0x27#8])) = some 0x09C4#16 := by decide
/-- S1: from 2040 to 5 is 13. -/
theorem test_wheel_delta_wraps :
    after (fun s => s.store.wheelDelta) (exec .mframe { withRx 0x020#11 [0#8, 0#8, 0#8, 0#8, 0x05#8, 0#8, 0#8] with
      store := { State.reset.store with wheelPulse := 2040#16 } }) = some 13#16 := by decide
/-- V-D15. -/
theorem test_mframe_short :
    after (fun s => (s.err, s.store.gearBox)) (exec .mframe (withRx 0x020#11 (List.replicate 6 0#8)))
      = some (0x0008#16, 0#8) := by decide
/-- V-D27. -/
theorem test_sframe_ignored :
    after (fun s => (s.err, s.store, s.txq)) (exec .sframe (withRx 0x200#11 [0xFF#8])) = some (0#16, State.reset.store, []) := by decide
/-- R117: a length of 9. -/
theorem test_sframe_malformed :
    after (fun s => s.err) (exec .sframe { State.reset with rxDlc := 9#4 }) = some 0x0004#16 := by decide
/-- V-T2: ignition, wheel, odometer, in that order. -/
theorem test_tick_second :
    after (fun s => (s.tickCnt, s.txq.map fun e => (e.bus, e.frame.id)))
      (exec .tick { State.reset with tickCnt := 1#8 })
      = some (2#8, [(Bus.slave, 0x200#11), (Bus.slave, 0x210#11), (Bus.slave, 0x240#11)]) := by decide
/-- V-T5: all seven, and the counter is 0. -/
theorem test_tick_fortieth :
    after (fun s => (s.tickCnt, s.txq.map fun e => e.frame.id)) (exec .tick { State.reset with tickCnt := 39#8 })
      = some (0#8, [0x200#11, 0x210#11, 0x240#11, 0x230#11, 0x220#11, 0x250#11, 0x260#11]) := by decide
/-- V-T6, the third tick. -/
theorem test_tick_deadline :
    after (fun s => (s.lstate, s.seq, s.cursor, s.waitCnt, s.err))
      (exec .tick { State.reset with cfg := exTimed, lstate := .waitForCluster, seq := 5#4, cursor := 8#16, waitCnt := 2#16 })
      = some (.idle, 0#4, 0#16, 0#16, 0x0100#16) := by decide
/-- V-M4. -/
theorem test_dim_night :
    after (fun s => (s.store.dimAvg, s.store.nightMode))
      (exec (.dim 0xFFFF#16) { State.reset with store := { State.reset.store with dimAvg := 0#16 } })
      = some (0x0FFF#16, true) := by decide
/-- V-M3. -/
theorem test_dim_no_underflow :
    after (fun s => s.store.dimAvg)
      (exec (.dim 0#16) { State.reset with store := { State.reset.store with dimAvg := 0xFFFF#16 } }) = some 0xF000#16 := by decide
/-- V-E2. -/
theorem test_enc_wheel :
    after (fun s => s.txq)
      (exec (.enc 0x210#11) { State.reset with store := { State.reset.store with
        speed := 0x2468#16, rpm := 0x09C4#16, wheelDelta := 0x7FD#16 } })
      = some [⟨.slave, ⟨0x210#11, 8#4, #v[0x68#8, 0x24#8, 0xC4#8, 0x09#8, 0xFD#8, 0x07#8, 0#8, 0#8]⟩⟩] := by decide
/-- V-E8. -/
theorem test_enc_language :
    after (fun s => s.txq) (exec (.enc 0x250#11) State.reset)
      = some [⟨.slave, ⟨0x250#11, 4#4, #v[0x21#8, 0#8, 0#8, 0#8, 0#8, 0#8, 0#8, 0#8]⟩⟩] := by decide
/-- V-L1. -/
theorem test_lstep_request :
    after (fun s => (s.lstate, s.txq)) (exec (.lstep true false) State.reset)
      = some (.start, [⟨.master, ⟨0x300#11, 3#4, #v[0x01#8, 0x02#8, 0x03#8, 0#8, 0#8, 0#8, 0#8, 0#8]⟩⟩]) := by decide
/-- V-L11 with the bytes of program P3. -/
theorem test_lstep_last_chunk :
    after (fun s => (s.lstate, s.cursor, s.seq, s.txq))
      (exec (.lstep false false) { filled with lstate := .info, cursor := 16#16 })
      = some (.info, 0#16, 1#4, [⟨.master, ⟨0x302#11, 4#4, #v[0x10#8, 0x51#8, 0x52#8, 0x53#8, 0#8, 0#8, 0#8, 0#8]⟩⟩]) := by decide
/-- V-L10. -/
theorem test_lstep_close_wraps :
    after (fun s => (s.lstate, s.txq)) (exec (.lstep false true) { withRx 0x051#11 [0xAF#8] with lstate := .info })
      = some (.stop, [⟨.master, ⟨0x302#11, 1#4, #v[0xB0#8, 0#8, 0#8, 0#8, 0#8, 0#8, 0#8, 0#8]⟩⟩]) := by decide
/-- V-L12: MFRAME forwards; the acknowledgement of an old sequence is ignored. -/
theorem test_lstep_wrong_ack :
    after (fun s => s.lstate) (exec .mframe { withRx 0x051#11 [0xB0#8] with lstate := .waitForCluster, seq := 1#4 })
      = some .waitForCluster := by decide
/-- V-L16. -/
theorem test_lreset :
    after (fun s => (s.lstate, s.seq, s.cursor, s.bufLen))
      (exec .lreset { filled with lstate := .waitForCluster, seq := 3#4, cursor := 16#16 })
      = some (.idle, 0#4, 0#16, 20#16) := by decide
/-- V-B8. -/
theorem test_bclr :
    after (fun s => (s.bufLen, s.cursor, s.buf)) (exec .bclr { filled with cursor := 8#16 }) = some (0#16, 0#16, buf20) := by decide
/-- V-B1. -/
theorem test_bapp :
    after (fun s => (s.bufLen, s.buf)) (exec (.bapp 0x41#8) State.reset) = some (1#16, [(0, 0x41#8)]) := by decide
/-- V-B2. -/
theorem test_bapp_full :
    after (fun s => (s.bufLen, s.err)) (exec (.bapp 0x08#8) { State.reset with bufLen := 64#16 }) = some (64#16, 0x0020#16) := by decide
/-- V-B7. -/
theorem test_chunk_last :
    after (fun s => (s.chunkLen, s.chunkLast, s.cursor, s.chunkData)) (exec .chunk { filled with cursor := 16#16 })
      = some (4#4, true, 0#16, #v[0x50#8, 0x51#8, 0x52#8, 0x53#8, 0#8, 0#8, 0#8, 0#8]) := by decide
/-- V-B4. -/
theorem test_chunk_streaming :
    after (fun s => (s.err, s.cursor)) (exec .chunk { filled with lstate := .info }) = some (0x0040#16, 0#16) := by decide
/-- V-C6. -/
theorem test_eclr :
    after (fun s => s.err) (exec (.eclr 0x0008#16) { State.reset with err := 0x0089#16 }) = some 0x0081#16 := by decide
/-- R201 (2). -/
theorem test_eclr_all :
    after (fun s => s.err) (exec (.eclr 0xFFFF#16) { State.reset with err := 0x03FF#16 }) = some 0#16 := by decide
/-- V-C9. -/
theorem test_sreset :
    after (fun s => (s.lstate, s.seq, s.txq, s.err, regRead s 0x04#8))
      (exec .sreset { State.reset with lstate := .waitForCluster, seq := 5#4, txq := [entry, entry], err := 0x0202#16 })
      = some (.idle, 0#4, [], 0#16, 0x04#8) := by decide
/-- R202 (3). -/
theorem test_sreset_keeps_config :
    after (fun s => s.cfg) (exec .sreset { State.reset with cfg := exTimed }) = some exTimed := by decide

/-! ### Host port, transmit attempts, memory -/

/-- V-C10. -/
theorem test_write_rxdlc_keeps_four_bits :
    after (fun s => regRead s 0x26#8) (step (withInputs [.write 0x26#8 0xFF#8])) = some 0x0F#8 := by decide
/-- V-C11. -/
theorem test_write_rxid_high :
    after (fun s => regRead s 0x25#8) (step (withInputs [.write 0x25#8 0xFF#8])) = some 0x07#8 := by decide
/-- V-C12. -/
theorem test_write_reserved :
    after (fun s => (regRead s 0x40#8, s.err)) (step (withInputs [.write 0x40#8 0x55#8])) = some (0#8, 0#16) := by decide
/-- V-C13. -/
theorem test_write_only_reads_zero :
    after (fun s => (regRead s 0x02#8, s.cmd2)) (step (withInputs [.write 0x02#8 0x12#8])) = some (0#8, 0x12#8) := by decide
/-- V-C2, the trigger. -/
theorem test_trigger_reserved_bit :
    after (fun s => (s.err, s.cmd1)) (step { withInputs [.write 0x00#8 0x00#8] with cmd1 := 0x04#8 }) = some (0x0001#16, 0#8) := by decide
/-- V-C7. -/
theorem test_trigger_busy :
    after (fun s => (s.err, s.txq)) (step { withInputs [.write 0x00#8 0x00#8] with txq := [entry] }) = some (0x0002#16, [entry]) := by decide
/-- 20_memory.md R51: TX_PENDING and isMetric. -/
theorem test_read_status :
    after (fun s => s.outputs) (step { withInputs [.read 0x04#8] with txq := [entry] }) = some [.readValue 0x04#8 0x05#8] := by decide
/-- 20_memory.md R51: WaitForCluster is code 4, seq in the high nibble. -/
theorem test_read_linkstat :
    regRead { State.reset with lstate := .waitForCluster, seq := 5#4 } 0x05#8 = 0x54#8 := by decide
/-- P4, line 8. -/
theorem test_attempt_accepted :
    after (fun s => (s.txq, s.txTries, s.outputs)) (step { withInputs [.attempt true] with txq := [entry], txTries := 1#16 })
      = some ([], 0#16, [.sent entry]) := by decide
/-- P4, line 5. -/
theorem test_attempt_dropped :
    after (fun s => (s.txq, s.txTries, s.err, s.outputs))
      (step { withInputs [.attempt false] with cfg := exTimed, txq := [entry], txTries := 1#16 })
      = some ([], 0#16, 0x0200#16, []) := by decide
/-- 93_implementation_defined.md I4. -/
theorem test_attempt_saturates :
    after (fun s => (s.txq, s.txTries)) (step { withInputs [.attempt false] with txq := [entry], txTries := 0xFFFF#16 })
      = some ([entry], 0xFFFF#16) := by decide
/-- R230. -/
theorem test_power_on_reset :
    after (fun s => (s.err, s.txq, s.store)) (step { withInputs [.powerOnReset] with txq := [entry], err := 0x0003#16 })
      = some (0#16, [], State.reset.store) := by decide
/-- R232: with no agent acting nothing happens. -/
theorem test_idle :
    after (fun s => s == State.reset) (step State.reset) = some true := by decide
/-- The canonical form. -/
theorem test_memory_write_zero_removes :
    Memory.write [(3, 0x41#8)] 3 0#8 = [] := by decide
/-- The canonical form. -/
theorem test_memory_write_sorted :
    Memory.write [(3, 0x41#8)] 1 0x42#8 = [(1, 0x42#8), (3, 0x41#8)] := by decide
/-- The reset memory has the canonical form. -/
theorem test_memory_reset_wf :
    Memory.wf State.reset.buf ∧ Memory.wf buf20 := by decide

/-! ### Assembly notation (30_encoding.md R88, R89) -/

/-- P1, line 5. -/
theorem test_line_enc :
    (asmLine "ENC 0x200".toList).map AsmLine.expand = some [.write 0x03#8 0x02#8, .write 0x00#8 0x05#8] := by decide
/-- V-L1; a comment. -/
theorem test_line_lstep_r :
    (asmLine "LSTEP.R ; go".toList).map AsmLine.expand = some [.write 0x01#8 0x01#8, .write 0x00#8 0x06#8] := by decide
/-- P1, line 1. -/
theorem test_line_master :
    (asmLine "MASTER 0x010, [0x02]".toList).map AsmLine.expand
      = some [.write 0x24#8 0x10#8, .write 0x25#8 0x00#8, .write 0x26#8 0x01#8, .write 0x28#8 0x02#8, .write 0x00#8 0x01#8] := by decide
/-- P5, line 1. -/
theorem test_line_bapps :
    (asmLine "BAPPS [0x00, 0x01]".toList).map AsmLine.expand
      = some [.write 0x00#8 0x09#8, .write 0x02#8 0x01#8, .write 0x00#8 0x09#8] := by decide
/-- R89. -/
theorem test_line_rd :
    (asmLine "RD 0x26".toList).map AsmLine.expand = some [.read 0x26#8] := by decide
/-- No such mnemonic. -/
theorem test_line_unknown :
    asmLine "HALT".toList = none := by decide
/-- Mnemonics are upper case. -/
theorem test_line_lower_case :
    asmLine "tick".toList = none := by decide

/-! ### Witnesses: the premises of each statement are met -/

theorem witness_DecodeOfEncodeIsIdentity :
    (Instr.enc 0x7FF#11).wellFormed = true ∧ (Instr.lstep true true).wellFormed = true := ⟨rfl, rfl⟩
theorem witness_EncodeOfDecodeIsTheWord :
    decode 0x07FF0005#32 = .ok (.enc 0x7FF#11) := rfl
theorem witness_StepRunsTheDecodedCommand :
    let s := withInputs [.write 0x00#8 0x03#8]
    s.cfg.WellFormed ∧ s.inputs = .write 0x00#8 0x03#8 :: [] ∧
      decode (BitVec.ofNat 32 (stagedNat s 0x03#8)) = .ok .tick ∧ (s.txq = [] ∨ Instr.tick = .sreset) := ⟨ex_wellFormed, rfl, rfl, .inl rfl⟩
theorem witness_StepRunsTheDecodedCommand_sreset :
    let s := { withInputs [.write 0x00#8 0x0C#8] with txq := [entry] }
    s.cfg.WellFormed ∧ s.inputs = .write 0x00#8 0x0C#8 :: [] ∧
      decode (BitVec.ofNat 32 (stagedNat s 0x0C#8)) = .ok .sreset ∧ (s.txq = [] ∨ Instr.sreset = .sreset) := ⟨ex_wellFormed, rfl, rfl, .inr rfl⟩
theorem witness_PendingFramesHoldUpEveryCommandButSreset :
    ∀ v : Byte, let s := { withInputs [.write 0x00#8 v] with txq := [entry] }
    s.cfg.WellFormed ∧ s.inputs = .write 0x00#8 v :: [] ∧ s.txq ≠ [] := fun _ => ⟨ex_wellFormed, rfl, by simp⟩
theorem witness_PendingFramesHoldUpEveryCommandButSreset_clauses :
    stagedNat State.reset 0x0B#8 ≠ 0x0000000C ∧ stagedNat State.reset 0x0C#8 = 0x0000000C ∧
    stagedNat { State.reset with cmd1 := 1#8 } 0x0C#8 ≠ 0x0000000C := by decide
theorem witness_IllegalWordsRaiseBadCmd :
    let s := { withInputs [.write 0x00#8 0x00#8] with cmd1 := 0x04#8 }
    s.cfg.WellFormed ∧ s.inputs = .write 0x00#8 0x00#8 :: [] ∧ s.txq = [] ∧ IllegalNat (stagedNat s 0x00#8) := ⟨ex_wellFormed, rfl, rfl, by unfold IllegalNat; decide⟩
theorem witness_IllegalNat_boundaries :
    (IllegalNat 0x0D ∧ IllegalNat 0xFF ∧ IllegalNat 0x400 ∧ IllegalNat 0x8000 ∧ IllegalNat 0x101 ∧ IllegalNat 0x207 ∧
      IllegalNat 0x10000 ∧ IllegalNat 0x08000005 ∧ IllegalNat 0x01000009) ∧
    ¬IllegalNat 0x0C ∧ ¬IllegalNat 0x306 ∧ ¬IllegalNat 0xFFFF0004 ∧ ¬IllegalNat 0x07FF0005 ∧ ¬IllegalNat 0x00FF0009 ∧
      ¬IllegalNat 0xFFFF000B := by simp [IllegalNat]
theorem witness_RegisterWrites :
    ∀ a v : Byte, (withInputs [.write a v]).cfg.WellFormed ∧ (withInputs [.write a v]).inputs = .write a v :: [] := fun _ _ => ⟨ex_wellFormed, rfl⟩
theorem witness_RegisterWrites_clauses :
    (0x28#8).toNat = 0x28 + (0 : Fin 8).val ∧ (0x2F#8).toNat = 0x28 + (7 : Fin 8).val ∧ (0x27#8).toNat < 0x28 ∧
    0x2F < (0x30#8).toNat ∧ (0x04#8).toNat < 0x28 := by decide
theorem witness_RegisterReadsHaveNoSideEffect :
    ∀ a : Byte, (withInputs [.read a]).cfg.WellFormed ∧ (withInputs [.read a]).inputs = .read a :: [] := fun _ => ⟨ex_wellFormed, rfl⟩
theorem witness_RegisterReadsHaveNoSideEffect_reserved :
    (0x03#8).toNat ≤ 0x03 ∧ (0x32 ≤ (0x32#8).toNat ∧ (0x37#8).toNat ≤ 0x37) ∧ 0x40 ≤ (0x40#8).toNat ∧ 0x40 ≤ (0xFF#8).toNat := by decide
theorem witness_RegisterMapContents :
    ({ State.reset with txq := List.replicate 7 entry } : State).txq.length ≤ 7 := by decide
theorem witness_AssembledCommandRuns :
    ∀ i : Instr, let s := withInputs ((AsmLine.base i).expand ++ [])
    s.cfg.WellFormed ∧ s.cmd1 = 0#8 ∧ s.cmd2 = 0#8 ∧ s.cmd3 = 0#8 ∧ s.txq = [] ∧ s.inputs = (AsmLine.base i).expand ++ [] := fun _ => ⟨ex_wellFormed, rfl, rfl, rfl, rfl, rfl⟩
theorem witness_RxLineLoadsTheFrame :
    ∀ n ≤ 8, let l := List.replicate n 0xA5#8
    let s := withInputs ((AsmLine.rx 0x7FF#11 l).expand ++ [])
    s.cfg.WellFormed ∧ l.length ≤ 8 ∧ s.inputs = (AsmLine.rx 0x7FF#11 l).expand ++ [] := fun _ hn => ⟨ex_wellFormed, by simpa using hn, rfl⟩
theorem witness_ResetWritesEveryField :
    let s := { withInputs [.powerOnReset] with txq := [entry], err := 1#16 }
    s.cfg.WellFormed ∧ s.inputs = .powerOnReset :: [] := ⟨ex_wellFormed, rfl⟩
theorem witness_ResetStateSatisfiesTheInvariant :
    Config.ex.WellFormed ∧ exTimed.WellFormed := ⟨ex_wellFormed, exTimed_wellFormed⟩
theorem witness_StepKeepsTheInvariant :
    BlockInv (withInputs [.write 0x00#8 0x03#8]) ∧ ∃ t, step (withInputs [.write 0x00#8 0x03#8]) = .next t := ⟨⟨ex_wellFormed, by decide, by decide, by decide, by decide, by decide, by decide⟩, _, rfl⟩
theorem witness_InvariantStatesNeverStop :
    BlockInv { filled with lstate := .waitForCluster, cursor := 8#16, txq := [entry], txTries := 3#16 } := ⟨ex_wellFormed, by decide, by decide, by decide, by decide, by decide, by decide⟩
theorem witness_IllFormedConfigurationsAreRefused_both :
    (∃ t, step State.reset = .next t) ∧ ¬({ Config.ex with bufCap := 65536 } : Cfg).WellFormed := ⟨⟨_, rfl⟩, by decide⟩
theorem witness_ConfigurationNeverChanges :
    ∃ t, step (withInputs [.write 0x00#8 0x0C#8]) = .next t := ⟨_, rfl⟩
theorem witness_CommandsWriteOnlyTheirState :
    (∃ t, exec .bclr State.reset = .next t) ∧ Instr.bclr ≠ .sreset ∧ Instr.bclr ≠ .mframe ∧ (∀ r, Instr.bclr ≠ .dim r) ∧
    Instr.bclr ≠ .tick ∧ Instr.bclr ≠ .chunk ∧ (∀ b, Instr.bclr ≠ .bapp b) := ⟨⟨_, rfl⟩, by simp⟩
theorem witness_CommandsWriteOnlyTheirState_length :
    (∃ t, exec .chunk filled = .next t) ∧ Instr.chunk ≠ .sreset ∧ (∀ b, Instr.chunk ≠ .bapp b) ∧ Instr.chunk ≠ .bclr := ⟨⟨_, rfl⟩, by simp⟩
theorem witness_CommandsWriteOnlyTheirState_mask :
    (∃ t, exec (.eclr 0x0202#16) State.reset = .next t) ∧ Instr.eclr 0x0202#16 ≠ .sreset ∧ (∃ m, Instr.eclr 0x0202#16 = .eclr m) ∧
    (∀ m, Instr.tick ≠ .eclr m) ∧ Instr.tick ≠ .mframe ∧ (∃ t, exec .tick State.reset = .next t) := ⟨⟨_, rfl⟩, by simp, ⟨_, rfl⟩, by simp, by simp, _, rfl⟩
theorem witness_QueuedFramesAreNormal :
    (∃ t, exec (.enc 0x210#11) State.reset = .next t) ∧ Instr.enc 0x210#11 ≠ .sreset := ⟨⟨_, rfl⟩, by simp⟩
theorem witness_OneErrorPerCommand :
    (∃ t, exec (.enc 0x123#11) State.reset = .next t ∧ t.err ≠ State.reset.err) ∧ Instr.enc 0x123#11 ≠ .sreset ∧
    (∀ m, Instr.enc 0x123#11 ≠ .eclr m) ∧ Instr.enc 0x123#11 ≠ .tick := ⟨⟨_, rfl, by decide⟩, by simp⟩
theorem witness_TransmitAttempt :
    ∀ accepted : Bool, let s := { withInputs [.attempt accepted] with cfg := exTimed, txq := [entry], txTries := 1#16 }
    s.cfg.WellFormed ∧ s.inputs = .attempt accepted :: [] ∧ s.txq = entry :: [] ∧
      s.cfg.txRetryLimit.toNat ≠ 0 ∧ s.cfg.txRetryLimit.toNat ≤ s.txTries.toNat + 1 := fun _ => ⟨exTimed_wellFormed, rfl, rfl, (by decide : 2 ≠ 0), (by decide : 2 ≤ 1 + 1)⟩
theorem witness_TransmitAttempt_counted :
    let s := { withInputs [.attempt false] with cfg := exTimed, txq := [entry] }
    s.cfg.WellFormed ∧ s.inputs = .attempt false :: [] ∧ s.txq = entry :: [] ∧
      s.txTries.toNat + 1 < s.cfg.txRetryLimit.toNat ∧ Config.ex.txRetryLimit.toNat = 0 := ⟨exTimed_wellFormed, rfl, rfl, by decide, by decide⟩
theorem witness_AcceptedFramesLeaveInOrder :
    let s := { withInputs (List.replicate 2 (.attempt true) ++ []) with txq := [entry, entry] }
    s.cfg.WellFormed ∧ s.txq ≠ [] ∧ s.inputs = List.replicate s.txq.length (.attempt true) ++ [] := ⟨ex_wellFormed, by simp, rfl⟩
theorem witness_IgnitionFrameDecodes :
    let s := withRx 0x010#11 []
    let t := withRx 0x010#11 [0x02#8]
    (s.cfg.WellFormed ∧ s.rxId = s.cfg.idMIgn ∧ s.rxDlc.toNat ≤ 8 ∧ s.rxDlc.toNat = 0) ∧
      t.cfg.WellFormed ∧ t.rxId = t.cfg.idMIgn ∧ t.rxDlc.toNat ≤ 8 ∧ 1 ≤ t.rxDlc.toNat := ⟨⟨ex_wellFormed, by decide⟩, ex_wellFormed, by decide⟩
theorem witness_WheelFrameDecodes :
    let s := withRx 0x020#11 (List.replicate 6 0#8)
    let t := withRx 0x020#11 (List.replicate 7 0#8)
    (s.cfg.WellFormed ∧ s.rxId = s.cfg.idMWheel ∧ s.rxDlc.toNat ≤ 8 ∧ s.rxDlc.toNat < s.cfg.lenWheel) ∧
      t.cfg.WellFormed ∧ t.rxId = t.cfg.idMWheel ∧ t.rxDlc.toNat ≤ 8 ∧ t.cfg.lenWheel ≤ t.rxDlc.toNat := ⟨⟨ex_wellFormed, by decide⟩, ex_wellFormed, by decide⟩
theorem witness_OdometerFrameDecodes :
    ∀ l ∈ [[0x10#8, 0x27#8], [0x10#8, 0x27#8, 0x00#8]], let s := withRx 0x030#11 l
    s.rxId = s.cfg.idMOdo ∧ s.rxDlc.toNat ≤ 8 ∧ s.rxData[s.cfg.mOdoOff.val]? = some 0x10#8 ∧
      s.rxData[s.cfg.mOdoOff.val + 1]? = some 0x27#8 ∧ s.rxData[s.cfg.mOdoOff.val + 2]? = some 0x00#8 := by decide
theorem witness_OdometerFrameDecodes_lengths :
    (withRx 0x030#11 [0x10#8, 0x27#8]).rxDlc.toNat < Config.ex.mOdoOff.val + 3 ∧
    Config.ex.mOdoOff.val + 3 ≤ (withRx 0x030#11 [0x10#8, 0x27#8, 0x00#8]).rxDlc.toNat := by decide
theorem witness_RpmFrameDecodes :
    let s := withRx 0x040#11 [0x10#8]
    let t := withRx 0x040#11 [0x10#8, 0x27#8]
    (s.cfg.WellFormed ∧ s.rxId = s.cfg.idMRpm ∧ s.rxDlc.toNat ≤ 8 ∧ s.rxDlc.toNat < s.cfg.lenRpm) ∧
      t.cfg.WellFormed ∧ t.rxId = t.cfg.idMRpm ∧ t.rxDlc.toNat ≤ 8 ∧ t.cfg.lenRpm ≤ t.rxDlc.toNat := ⟨⟨ex_wellFormed, by decide⟩, ex_wellFormed, by decide⟩
theorem witness_MalformedFramesRaiseBadFrame :
    8 < ({ State.reset with rxDlc := 9#4 } : State).rxDlc.toNat := by decide
theorem witness_UnmappedFramesAreIgnored :
    let s := withRx 0x7FF#11 (List.replicate 8 0#8)
    s.rxDlc.toNat ≤ 8 ∧ s.rxId ≠ s.cfg.idMIgn ∧ s.rxId ≠ s.cfg.idMWheel ∧ s.rxId ≠ s.cfg.idMOdo ∧ s.rxId ≠ s.cfg.idMRpm ∧
      s.rxId ≠ s.cfg.idLStart ∧ s.rxId ≠ s.cfg.idLAck := by decide
theorem witness_LinkFramesAreForwarded :
    let s := withRx 0x050#11 [0xC1#8]
    let t := withRx 0x051#11 [0xC3#8]
    (s.cfg.WellFormed ∧ s.rxId = s.cfg.idLStart) ∧ t.cfg.WellFormed ∧ t.rxId = t.cfg.idLAck := ⟨⟨ex_wellFormed, rfl⟩, ex_wellFormed, rfl⟩
theorem witness_EncSendsTheOneFieldFrames :
    State.reset.cfg.WellFormed ∧ ({ State.reset with cfg := exTimed } : State).cfg.WellFormed := ⟨ex_wellFormed, exTimed_wellFormed⟩
theorem witness_EncSendsTheWheelFrame :
    State.reset.cfg.WellFormed ∧ ({ State.reset.store with wheelDelta := 2047#16 } : SignalStore).wheelDelta.toNat < 2048 := ⟨ex_wellFormed, by decide⟩
theorem witness_EncSendsTheDimmingFrame :
    State.reset.cfg.WellFormed ∧ ({ State.reset with cfg := exTimed } : State).cfg.WellFormed := ⟨ex_wellFormed, exTimed_wellFormed⟩
theorem witness_EncSendsTheOdometerFrame :
    State.reset.cfg.WellFormed ∧ ({ State.reset with cfg := exTimed } : State).cfg.WellFormed := ⟨ex_wellFormed, exTimed_wellFormed⟩
theorem witness_ConstantSampleSettlesTheFilter :
    State.reset.cfg.WellFormed ∧ ({ State.reset with cfg := exTimed } : State).cfg.WellFormed := ⟨ex_wellFormed, exTimed_wellFormed⟩
theorem witness_EncOfAnUnknownTargetRaisesBadTarget :
    let c := State.reset.cfg
    0x123#11 ∉ [c.idSIgn, c.idSWheel, c.idSGear, c.idSDim, c.idSOdo, c.idSLang, c.idSCfg] := by decide
theorem witness_FilterLaws :
    State.reset.cfg.WellFormed ∧ (∃ t, exec (.dim 0#16) State.reset = .next t) ∧ 0 / 16 < State.reset.store.dimAvg.toNat / 16 ∧
    State.reset.store.dimAvg.toNat / 16 < 0xFFFF / 16 ∧
      (16 * (0x8001 / 16) ≤ State.reset.store.dimAvg.toNat ∧ State.reset.store.dimAvg.toNat ≤ 16 * (0x8001 / 16) + 16 - 1) := ⟨ex_wellFormed, ⟨_, rfl⟩, by decide⟩
theorem witness_DimUpdatesFilterAndNightMode :
    let s : State := { State.reset with store := { State.reset.store with dimAvg := 0x4324#16 } }
    let n : State := { State.reset with store := { State.reset.store with dimAvg := 0x60EB#16, nightMode := true } }
    s.store.nightMode = false ∧ filterNext 16 0 s.store.dimAvg.toNat / 256 < s.cfg.dimLower.toNat ∧
      n.store.nightMode = true ∧ n.cfg.dimUpper.toNat < filterNext 16 0xFFFF n.store.dimAvg.toNat / 256 ∧
      ¬filterNext 16 0 n.store.dimAvg.toNat / 256 > n.cfg.dimUpper.toNat := by decide
theorem witness_TickEmitsAndTimes :
    State.reset.cfg.WellFormed ∧ State.reset.cfg.waitLimit = 0#16 ∧
    ¬(State.reset.lstate = .start ∨ State.reset.lstate = .preamble ∨ State.reset.lstate = .waitForCluster) := ⟨ex_wellFormed, by decide⟩
theorem witness_TickEmitsAndTimes_deadline :
    let s : State := { State.reset with cfg := exTimed, lstate := .start, waitCnt := 1#16 }
    let t : State := { State.reset with cfg := exTimed, lstate := .preamble, waitCnt := 2#16 }
    (s.cfg.WellFormed ∧ s.cfg.waitLimit ≠ 0#16 ∧ s.lstate = .start ∧ s.waitCnt.toNat + 1 < s.cfg.waitLimit.toNat) ∧
      t.cfg.WellFormed ∧ t.cfg.waitLimit ≠ 0#16 ∧ t.lstate = .preamble ∧ t.cfg.waitLimit.toNat ≤ t.waitCnt.toNat + 1 := ⟨⟨exTimed_wellFormed, by decide⟩, exTimed_wellFormed, by decide⟩
theorem witness_TickCounterCountsModuloDivD :
    let s : State := { State.reset with tickCnt := 39#8 }
    s.cfg.WellFormed ∧ s.tickCnt.toNat < s.cfg.divD.toNat := ⟨ex_wellFormed, by decide⟩
theorem witness_WaitingStateExpiresAtTheLimit :
    let s : State := { State.reset with cfg := exTimed, lstate := .waitForCluster }
    s.cfg.WellFormed ∧ s.cfg.waitLimit ≠ 0#16 ∧ s.waitCnt = 0#16 ∧
      (s.lstate = .start ∨ s.lstate = .preamble ∨ s.lstate = .waitForCluster) ∧ 2 < s.cfg.waitLimit.toNat ∧
      3 = s.cfg.waitLimit.toNat := ⟨exTimed_wellFormed, by decide⟩
theorem witness_LinkIdleAction :
    State.reset.lstate = .idle ∧ FrameUsable true { State.reset with rxDlc := 8#4 } ∧
    FrameUsable false { State.reset with rxDlc := 15#4 } := by decide
theorem witness_LinkStartAction :
    let s : State := { withRx 0x050#11 [0xC1#8] with lstate := .start }
    s.lstate = .start ∧ FrameUsable true s ∧ (Delivers true s.cfg.idLStart s ∧ s.rxData[0] = s.cfg.startAckB0) ∧
      ¬Delivers false s.cfg.idLStart s := by decide
theorem witness_LinkPreambleAction :
    let s : State := { withRx 0x051#11 [0xC3#8] with lstate := .preamble }
    let t : State := { withRx 0x051#11 [] with lstate := .preamble }
    s.lstate = .preamble ∧ FrameUsable true s ∧ (Delivers true s.cfg.idLAck s ∧ s.rxData[0] = s.cfg.preAckB0) ∧
      ¬Delivers true t.cfg.idLAck t := by decide
theorem witness_LinkInfoCloseAndEmpty :
    let s : State := { withRx 0x051#11 [0xAF#8] with lstate := .info }
    s.lstate = .info ∧ FrameUsable true s ∧ DeliversClose true s ∧ ¬DeliversClose false s ∧ s.bufLen = 0#16 := by decide
theorem witness_LinkInfoSendsAChunk :
    let s : State := { filled with lstate := .info, cursor := 16#16 }
    let t : State := { filled with lstate := .info, cursor := 8#16 }
    (s.lstate = .info ∧ FrameUsable false s ∧ ¬DeliversClose false s ∧ s.bufLen ≠ 0#16 ∧
      s.cursor.toNat + 7 < s.cfg.bufCap ∧ LastChunk s) ∧
      t.lstate = .info ∧ t.cursor.toNat + 7 < t.cfg.bufCap ∧ ¬LastChunk t := by decide
theorem witness_LinkWaitAction :
    let s : State := { withRx 0x051#11 [0xBF#8] with lstate := .waitForCluster, seq := 15#4 }
    s.lstate = .waitForCluster ∧ FrameUsable true s ∧
      (Delivers true s.cfg.idLAck s ∧ s.rxData[0] = s.cfg.ackMark ||| BitVec.ofNat 8 s.seq.toNat) ∧
      ¬Delivers false s.cfg.idLAck s := by decide
theorem witness_LinkStopActionAndRestart :
    let s : State := { State.reset with lstate := .stop, seq := 3#4 }
    s.lstate = .stop ∧ FrameUsable false s := by decide
theorem witness_LinkTransitionsAreThoseOfTheTable :
    ∃ t, exec (.lstep true false) State.reset = .next t ∧ t.lstate ≠ State.reset.lstate := ⟨_, rfl, by decide⟩
theorem witness_LastChunkIsFollowedByChunkZero :
    let s : State := { filled with lstate := .info, cursor := 16#16, rxId := 0x051#11, rxDlc := 1#4, rxData := bytes8 [0xB3#8] }
    let t : State := { s with cursor := 0#16, seq := 1#4 }
    (s.cfg.WellFormed ∧ LinkStepOf (.lstep true false) false s ∧ LinkStepOf .mframe true s ∧ s.lstate = .info ∧
      s.bufLen ≠ 0#16 ∧ LastChunk s ∧ s.cursor.toNat + 7 < s.cfg.bufCap ∧ FrameUsable true s ∧ ¬DeliversClose true s ∧
      FrameUsable false s ∧ ¬DeliversClose false s) ∧
    t.cfg = s.cfg ∧ t.lstate = .info ∧ t.cursor = 0#16 ∧ t.seq = s.seq + 1#4 ∧ t.buf = s.buf ∧ t.bufLen = s.bufLen ∧
      t.txq = [] ∧ LinkStepOf .mframe true t ∧ FrameUsable true t ∧ ¬DeliversClose true t ∧ 8 < s.bufLen.toNat := ⟨⟨ex_wellFormed, .inl ⟨_, rfl⟩, .inr ⟨rfl, rfl, .inr rfl⟩, by decide⟩, rfl, rfl, rfl, rfl, rfl, rfl, rfl,
    .inr ⟨rfl, rfl, .inr rfl⟩, by decide⟩
theorem witness_LastChunkIsFollowedByChunkZero_oneChunk :
    let s : State := { filled with lstate := .info, bufLen := 8#16 }
    let t : State := { s with seq := 1#4 }
    (s.cfg.WellFormed ∧ LinkStepOf (.lstep false false) false s ∧ s.lstate = .info ∧ s.bufLen ≠ 0#16 ∧ LastChunk s ∧
      s.cursor.toNat + 7 < s.cfg.bufCap ∧ FrameUsable false s ∧ ¬DeliversClose false s) ∧
    t.cfg = s.cfg ∧ t.lstate = .info ∧ t.cursor = 0#16 ∧ t.seq = s.seq + 1#4 ∧ t.buf = s.buf ∧ t.bufLen = s.bufLen ∧
      LinkStepOf (.lstep true false) false t ∧ FrameUsable false t ∧ ¬DeliversClose false t ∧ s.bufLen.toNat ≤ 8 := ⟨⟨ex_wellFormed, .inl ⟨_, rfl⟩, by decide⟩, rfl, rfl, rfl, rfl, rfl, rfl, .inl ⟨_, rfl⟩, by decide⟩
theorem witness_StreamingRefusesBufferCommands :
    let s : State := { filled with lstate := .waitForCluster }
    (s.lstate = .info ∨ s.lstate = .waitForCluster) ∧ ∃ b, Instr.bapp 0x99#8 = .bapp b := ⟨by decide, _, rfl⟩
theorem witness_BufferIsClearedAndAppendedTo :
    let s : State := { filled with bufLen := 64#16 }
    let t : State := { filled with bufLen := 63#16 }
    (s.lstate ≠ .info ∧ s.lstate ≠ .waitForCluster ∧ s.bufLen.toNat = s.cfg.bufCap) ∧
      t.lstate ≠ .info ∧ t.lstate ≠ .waitForCluster ∧ t.bufLen.toNat < t.cfg.bufCap ∧ Memory.wf t.buf := by decide
theorem witness_ChunkCopiesEightBytes :
    let s : State := { filled with bufLen := 64#16, cursor := 56#16 }
    s.lstate ≠ .info ∧ s.lstate ≠ .waitForCluster ∧ s.bufLen ≠ 0#16 ∧ s.cursor.toNat + 7 < s.cfg.bufCap ∧
      State.reset.bufLen = 0#16 ∧ ({ filled with lstate := .info } : State).lstate = .info := by decide
theorem witness_ChunkRoundTrip :
    let s : State := { filled with bufLen := 64#16 }
    s.cfg.WellFormed ∧ s.lstate ≠ .info ∧ s.lstate ≠ .waitForCluster ∧ s.cursor = 0#16 ∧ s.bufLen ≠ 0#16 ∧
      s.bufLen.toNat ≤ s.cfg.bufCap := ⟨ex_wellFormed, by decide⟩

end Sys2Proof.Tests
end

