-- ==== Sys2Proof/Proofs/Scope.lean ====
section
/-! PROOFS. The scope rules (00_scope.md R5-R7): what the step refuses, that the configuration is fixed, and the derived
lengths. -/

namespace Sys2Proof.Machine

/-! ### Only an ill-formed configuration is refused -/

@[simp] theorem finish_ne_refused (x : Except Fault State) (r : Refusal) : finish x ≠ .refused r := by
  cases x <;> simp [finish]

/-- Every command of 30_encoding.md R85 has a meaning, so `exec` answers a next state or a fault. -/
theorem exec_ne_refused (i : Instr) (s : State) (r : Refusal) : exec i s ≠ .refused r := by
  cases i with
  | nop | tick | dim _ | lreset | eclr _ | sreset => exact nofun
  | mframe =>
    change execMframe s ≠ _
    simp only [execMframe]
    repeat' split
    all_goals simp
  | sframe =>
    change execSframe s ≠ _
    unfold execSframe
    split <;> simp
  | enc id =>
    change execEnc id s ≠ _
    unfold execEnc
    split <;> simp
  | lstep req frame =>
    change execLstep req frame s ≠ _
    unfold execLstep
    split <;> simp
  | bclr =>
    change execBclr s ≠ _
    unfold execBclr
    split <;> simp
  | bapp b =>
    change execBapp b s ≠ _
    unfold execBapp
    repeat' split
    all_goals simp
  | chunk =>
    change execChunk s ≠ _
    unfold execChunk
    repeat' split
    all_goals simp

theorem execute_ne_refused (w : Word) (s : State) (r : Refusal) : execute w s ≠ .refused r := by
  obtain ⟨-, h⟩ | ⟨-, -, h⟩ | ⟨-, i, -, h⟩ := execute_cases w s <;> rw [h]
  · exact nofun
  · exact nofun
  · exact exec_ne_refused i s r

theorem perform_ne_refused (i : Input) (s : State) (r : Refusal) : perform i s ≠ .refused r := by
  cases i with
  | write a v =>
    change regWrite a v s ≠ _
    unfold regWrite
    split
    · exact execute_ne_refused _ _ r
    · exact nofun
  | read a | attempt accepted | powerOnReset => exact nofun

theorem step_refused_iff (s : State) : step s = .refused .illFormedConfig ↔ ¬s.cfg.WellFormed := by
  change stepBlock s = _ ↔ _
  obtain ⟨hw, h⟩ | ⟨hw, -, h⟩ | ⟨hw, i, rest, -, h⟩ := stepBlock_cases s <;> rw [h]
  · exact iff_of_true rfl hw
  · exact iff_of_false nofun (not_not_intro hw)
  · exact iff_of_false (perform_ne_refused i _ _) (not_not_intro hw)

/-! ### The conditions of R5 and R6 in elementary form -/

theorem ne_zero_iff_one_le_toNat {w : Nat} (v : BitVec w) : v ≠ 0#w ↔ 1 ≤ v.toNat := by
  rw [Nat.one_le_iff_ne_zero, ne_eq, ne_eq, ← BitVec.toNat_inj, BitVec.toNat_ofNat, Nat.zero_mod]

theorem rangesOk_iff (c : Cfg) :
    c.RangesOk ↔ c.mGearBit.val = 1 ∧ 1 ≤ c.dimK.toNat ∧ 1 ≤ c.divA.toNat ∧ 1 ≤ c.divB.toNat ∧ 1 ≤ c.divC.toNat ∧
      1 ≤ c.divD.toNat ∧ 8 ≤ c.bufCap ∧ c.bufCap ≤ 65528 := by
  simp only [Cfg.RangesOk, ne_zero_iff_one_le_toNat, Fin.ext_iff]
  rfl

/-- R6 (a), pair by pair. -/
theorem masterIdsDistinct_iff (c : Cfg) :
    c.MasterIdsDistinct ↔ c.idMIgn ≠ c.idMWheel ∧ c.idMIgn ≠ c.idMOdo ∧ c.idMIgn ≠ c.idMRpm ∧ c.idMWheel ≠ c.idMOdo ∧
      c.idMWheel ≠ c.idMRpm ∧ c.idMOdo ≠ c.idMRpm ∧
      ∀ i ∈ [c.idMIgn, c.idMWheel, c.idMOdo, c.idMRpm], i ≠ c.idLStart ∧ i ≠ c.idLAck := by
  have havoid (l : List Ident) : (c.idLStart ∉ l ∧ c.idLAck ∉ l) ↔ ∀ i ∈ l, i ≠ c.idLStart ∧ i ≠ c.idLAck := by
    simp only [forall_and, List.forall_mem_ne', ne_eq]
  rw [Cfg.MasterIdsDistinct, havoid]
  simp [and_assoc]

theorem nodup_three_iff {α : Type} (a b c : α) : [a, b, c].Nodup ↔ a ≠ b ∧ a ≠ c ∧ b ≠ c := by
  simp [and_assoc]

/-- Two 2-byte fields are disjoint exactly when no byte of one is a byte of the other. -/
theorem disjoint2_iff (a b : Nat) : Cfg.Disjoint2 a b ↔ ∀ x ∈ [a, a + 1], ∀ y ∈ [b, b + 1], x ≠ y := by
  simp only [Cfg.Disjoint2, List.forall_mem_cons, List.not_mem_nil, false_imp_iff, implies_true, and_true]
  omega

/-- R6 (d), byte by byte. -/
theorem wheelFieldsDisjoint_iff (c : Cfg) :
    c.WheelFieldsDisjoint ↔
      ∀ x ∈ [c.wSpeedOff.val, c.wSpeedOff.val + 1], ∀ y ∈ [c.wRpmOff.val, c.wRpmOff.val + 1],
        ∀ z ∈ [c.wDeltaOff.val, c.wDeltaOff.val + 1], x ≠ y ∧ x ≠ z ∧ y ≠ z := by
  rw [Cfg.WheelFieldsDisjoint, disjoint2_iff, disjoint2_iff, disjoint2_iff]
  constructor
  · rintro ⟨hxy, hxz, hyz⟩ x hx y hy z hz
    exact ⟨hxy x hx y hy, hxz x hx z hz, hyz y hy z hz⟩
  · intro h
    have first_mem (a : Nat) : a ∈ [a, a + 1] := List.mem_cons_self
    exact ⟨fun x hx y hy => (h x hx y hy _ (first_mem _)).1, fun x hx z hz => (h x hx _ (first_mem _) z hz).2.1,
      fun y hy z hz => (h _ (first_mem _) y hy z hz).2.2⟩

/-- R6 (f), byte by byte. -/
theorem tempOutsideOdo_iff (c : Cfg) : c.TempOutsideOdo ↔ ∀ j < 3, c.oTempOff.val ≠ c.oOdoOff.val + j := by
  constructor
  · intro h j hj
    omega
  · intro h
    have h0 := h 0 (by decide)
    have h1 := h 1 (by decide)
    have h2 := h 2 (by decide)
    change _ ∨ _
    omega

theorem divisorsDivide_iff (c : Cfg) :
    c.DivisorsDivide ↔ c.divD.toNat % c.divA.toNat = 0 ∧ c.divD.toNat % c.divB.toNat = 0 ∧
      c.divD.toNat % c.divC.toNat = 0 := by
  simp only [Cfg.DivisorsDivide, Nat.dvd_iff_mod_eq_zero]

/-- Settles O18: only the configuration test of the step answers a refusal, and that test is R5's ranges with (a)-(k). -/
theorem illFormedConfigurationsAreRefused : Obligations.IllFormedConfigurationsAreRefused := by
  intro s c
  rw [step_refused_iff]
  refine not_congr ?_
  exact and_congr (rangesOk_iff c) <| and_congr (masterIdsDistinct_iff c) <| and_congr Iff.rfl <|
    and_congr (nodup_three_iff _ _ _) <| and_congr (wheelFieldsDisjoint_iff c) <| and_congr Iff.rfl <|
    and_congr (tempOutsideOdo_iff c) <| and_congr BitVec.lt_def <| and_congr (divisorsDivide_iff c) <|
    and_congr Iff.rfl <| and_congr Iff.rfl (nodup_three_iff _ _ _)

/-! ### The configuration is fixed -/

theorem sendChunk_cfg {s t : State} (h : sendChunk s = .ok t) : t.cfg = s.cfg := by
  obtain ⟨-, rfl⟩ := sendChunk_ok h
  rfl

theorem linkStep_cfg {req : Bool} {f : Option CanFrame} {s t : State} (h : linkStep req f s = .ok t) :
    t.cfg = s.cfg := by
  obtain ⟨-, -, rfl⟩ | ⟨-, -, rfl⟩ | ⟨-, -, rfl⟩ | ⟨-, -, rfl⟩ | ⟨-, -, rfl⟩ | ⟨-, -, rfl⟩ | ⟨-, q, -, rfl⟩ |
    ⟨-, -, -, rfl⟩ | ⟨-, -, -, hsend⟩ | ⟨-, -, rfl⟩ | ⟨-, -, rfl⟩ | ⟨-, rfl⟩ := linkStep_ok h
  any_goals rfl
  exact sendChunk_cfg hsend

@[simp] theorem linkDeadline_cfg (s : State) : (linkDeadline s).cfg = s.cfg := by
  obtain ⟨-, h⟩ | ⟨-, -, h⟩ | ⟨-, -, h⟩ := linkDeadline_cases s <;> simp [h]

@[simp] theorem attempt_cfg (accepted : Bool) (s : State) : (attempt accepted s).cfg = s.cfg := by
  obtain ⟨-, h⟩ | ⟨_, _, -, -, h⟩ | ⟨_, _, -, -, -, -, h⟩ | ⟨_, _, -, -, -, h⟩ := attempt_cases accepted s <;> rw [h]

@[simp] theorem stageWrite_cfg (a v : Byte) (s : State) : (stageWrite a v s).cfg = s.cfg := by
  obtain ⟨_, _, _, _, _, _, h⟩ := stageWrite_eq a v s
  rw [h]

theorem exec_cfg {i : Instr} {s t : State} (h : exec i s = .next t) : t.cfg = s.cfg := by
  cases i with
  | nop | dim _ | lreset | eclr _ | sreset => cases h; rfl
  | tick =>
    rw [exec_tick_eq] at h
    cases h
    exact linkDeadline_cfg _
  | mframe =>
    obtain rfl | rfl | ⟨_, rfl, -⟩ | ⟨-, hstep⟩ | rfl := exec_mframe_next h
    any_goals rfl
    exact linkStep_cfg hstep
  | sframe => obtain rfl | rfl := exec_sframe_next h <;> rfl
  | enc id => obtain ⟨_, -, rfl⟩ | ⟨-, rfl⟩ := exec_enc_next h <;> rfl
  | lstep req frame =>
    obtain rfl | hstep := exec_lstep_next h
    · rfl
    · exact linkStep_cfg hstep
  | bclr => obtain rfl | rfl := exec_bclr_next h <;> rfl
  | bapp b => obtain rfl | rfl | rfl := exec_bapp_next h <;> rfl
  | chunk => obtain rfl | rfl | rfl := exec_chunk_next h <;> rfl

theorem execute_cfg {w : Word} {s t : State} (h : execute w s = .next t) : t.cfg = s.cfg := by
  obtain ⟨-, he⟩ | ⟨-, -, he⟩ | ⟨-, i, -, he⟩ := execute_cases w s <;> rw [he] at h
  · cases h; rfl
  · cases h; rfl
  · exact exec_cfg h

theorem perform_cfg {i : Input} {s t : State} (h : perform i s = .next t) : t.cfg = s.cfg := by
  cases i with
  | write a v =>
    change regWrite a v s = _ at h
    unfold regWrite at h
    split at h
    · exact execute_cfg (s := clearStage s) h
    · cases h; exact stageWrite_cfg a v s
  | read a => cases h; rfl
  | attempt accepted => cases h; exact attempt_cfg accepted s
  | powerOnReset => cases h; rfl

/-- Settles O19: the cases of a step, and under each input every command, keep the `cfg` field. -/
theorem configurationNeverChanges : Obligations.ConfigurationNeverChanges := by
  intro s t h
  change stepBlock s = _ at h
  obtain ⟨-, hs⟩ | ⟨-, -, hs⟩ | ⟨-, i, rest, -, hs⟩ := stepBlock_cases s <;> rw [hs] at h
  · cases h
  · cases h; rfl
  · exact perform_cfg (s := { s with inputs := rest }) h

/-! ### The derived lengths -/

theorem lenWheel_le_iff (c : Cfg) (n : Nat) :
    c.lenWheel ≤ n ↔
      0 < n ∧ c.mSpdLo.val < n ∧ c.mSpdHi.val < n ∧ c.mWpLo.val < n ∧ c.mWpHi.val < n ∧ c.mTemp.val < n := by
  rw [Cfg.lenWheel, Nat.one_add_le_iff]
  simp only [Nat.max_lt]

theorem lenRpm_le_iff (c : Cfg) (n : Nat) : c.lenRpm ≤ n ↔ c.mRpmLo.val < n ∧ c.mRpmHi.val < n := by
  rw [Cfg.lenRpm, Nat.one_add_le_iff, Nat.max_lt]

/-- Settles O29: a length is 1 more than a maximum of positions, so it is at most `n` when each position is below `n`. -/
theorem requiredLengthsCoverTheFields : Obligations.RequiredLengthsCoverTheFields :=
  fun c n => ⟨rfl, rfl, lenWheel_le_iff c n, lenRpm_le_iff c n⟩

end Sys2Proof.Machine
end

