-- ==== Sys2Proof/Proofs/State.lean ====
section
/-! PROOFS. The state rules (10_state.md): what a command does to the state, said once (`ExecEffect`); from it, field by
field, what each command may write, and that every step keeps the invariant. -/

namespace Sys2Proof.Machine

/-! ### Frames in normal form -/

/-- Every frame the block builds is in normal form (41_encode.md R130). -/
theorem mkFrame_normal (id : Ident) {n : Nat} (hn : n ≤ 8) (d : Data8) : (mkFrame id n d).Normal := by
  have hdlc : (mkFrame id n d).dlc.toNat = n := by
    rw [mkFrame_dlc, BitVec.toNat_ofNat]
    omega
  refine ⟨Nat.le_trans (Nat.le_of_eq hdlc) hn, fun i _ hi => ?_⟩
  rw [mkFrame_byte, if_neg (by omega)]

theorem encodeFrame_normal {c : Cfg} {st : SignalStore} {id : Ident} {f : CanFrame} (h : encodeFrame c st id = some f) :
    f.Normal := by
  obtain ⟨n, d, hn, rfl⟩ := encodeFrame_some h
  exact mkFrame_normal id hn d

theorem entryOf_length_le (c : Cfg) (st : SignalStore) (id : Ident) : (entryOf c st id).length ≤ 1 := by
  rw [entryOf, List.length_map]
  exact Option.length_toList_le

theorem entryOf_normal {c : Cfg} {st : SignalStore} {id : Ident} {e : TxEntry} (he : e ∈ entryOf c st id) :
    e.frame.Normal := by
  obtain ⟨f, hf, rfl⟩ := List.mem_map.mp he
  exact encodeFrame_normal (Option.mem_toList.mp hf)

theorem length_ite_nil_le (p : Prop) [Decidable p] (l : List TxEntry) : (if p then l else []).length ≤ l.length := by
  split
  · exact Nat.le_refl _
  · exact Nat.zero_le _

/-- One tick queues at most the seven frames of the four groups (10_state.md R33). -/
theorem groupEntries_length_le (count : Byte) (c : Cfg) (st : SignalStore) : (groupEntries count c st).length ≤ 7 := by
  have hentry := entryOf_length_le c st
  have hIgn := hentry c.idSIgn
  have hWheel := hentry c.idSWheel
  have hOdo := hentry c.idSOdo
  have hDim := hentry c.idSDim
  have hGear := hentry c.idSGear
  have hLang := hentry c.idSLang
  have hCfg := hentry c.idSCfg
  have hA := length_ite_nil_le (count.toNat % c.divA.toNat = 0)
    (entryOf c st c.idSIgn ++ entryOf c st c.idSWheel ++ entryOf c st c.idSOdo)
  have hB := length_ite_nil_le (count.toNat % c.divB.toNat = 0) (entryOf c st c.idSDim ++ entryOf c st c.idSGear)
  have hC := length_ite_nil_le (count.toNat % c.divC.toNat = 0) (entryOf c st c.idSLang)
  have hD := length_ite_nil_le (count.toNat % c.divD.toNat = 0) (entryOf c st c.idSCfg)
  unfold groupEntries
  simp only [List.length_append] at hA hB ⊢
  omega

theorem groupEntries_normal {count : Byte} {c : Cfg} {st : SignalStore} {e : TxEntry}
    (he : e ∈ groupEntries count c st) : e.frame.Normal := by
  simp only [groupEntries, List.mem_append, List.mem_ite_nil_right] at he
  obtain ((⟨-, (h | h) | h⟩ | ⟨-, h | h⟩) | ⟨-, h⟩) | ⟨-, h⟩ := he
  all_goals exact entryOf_normal h

/-! ### What a Link Protocol step does -/

/-- All that one Link Protocol step can do to the state (44_link_protocol.md R171): nothing, an error, a change of state
with or without a frame, the return from Stop to Idle, or a chunk. -/
inductive LinkEffect (s : State) : State → Prop
  | same : LinkEffect s s
  | bufEmpty : LinkEffect s (raise .bufEmpty s)
  | moved {x : LinkState} (hx : x ≠ .waitForCluster) : LinkEffect s (setState x s)
  | answered {x : LinkState} {f : CanFrame} (hx : x ≠ .waitForCluster) (hf : f.Normal) :
      LinkEffect s (setState x (transmit .master f s))
  | closed {f : CanFrame} (hl : s.lstate = .stop) (hf : f.Normal) :
      LinkEffect s (setState .idle (transmit .master f { s with seq := 0#4 }))
  | chunkSent {f : CanFrame} (hl : s.lstate = .info) (hf : f.Normal) :
      LinkEffect s { s with
        txq := s.txq ++ [⟨.master, f⟩]
        seq := s.seq + 1#4
        cursor := if chunkIsLast s then 0#16 else s.cursor + 8#16
        lstate := if chunkIsLast s then s.lstate else .waitForCluster
        waitCnt := if chunkIsLast s then s.waitCnt else 0#16 }

theorem linkStep_effect {req : Bool} {f : Option CanFrame} {s t : State} (h : linkStep req f s = .ok t) :
    LinkEffect s t := by
  obtain ⟨-, -, rfl⟩ | ⟨-, -, rfl⟩ | ⟨-, -, rfl⟩ | ⟨-, -, rfl⟩ | ⟨-, -, rfl⟩ | ⟨-, -, rfl⟩ | ⟨-, q, -, rfl⟩ |
    ⟨-, -, -, rfl⟩ | ⟨hinfo, -, -, hsend⟩ | ⟨-, -, rfl⟩ | ⟨-, -, rfl⟩ | ⟨hstop, rfl⟩ := linkStep_ok h
  · exact .answered nofun (mkFrame_normal _ (by decide) _)
  · exact .same
  · exact .answered nofun (mkFrame_normal _ (by decide) _)
  · exact .same
  · exact .moved nofun
  · exact .same
  · exact .answered nofun (mkFrame_normal _ (by decide) _)
  · exact .bufEmpty
  · obtain ⟨-, rfl⟩ := sendChunk_ok hsend
    exact .chunkSent hinfo (mkFrame_normal _ (chunkLength_le s) _)
  · exact .moved nofun
  · exact .same
  · exact .closed hstop (mkFrame_normal _ (by decide) _)

/-- A Link Protocol step leaves everything but its own registers, the queue and the error bits. -/
theorem LinkEffect.frame {s t : State} (h : LinkEffect s t) :
    t = { s with
      lstate := t.lstate, seq := t.seq, waitCnt := t.waitCnt, cursor := t.cursor, txq := t.txq, err := t.err } := by
  cases h <;> rfl

/-! ### What a command does -/

/-- What a decoded frame can do to the Signal Store, with the range of each value (40_decode.md R113-R116). -/
inductive Decodes (c : Cfg) (st : SignalStore) : SignalStore → Prop
  | ignition {v : Byte} (hv : v ∈ [0#8, c.sKeyin ||| c.sIgnOn, c.sKeyin ||| c.sStart, c.sKeyin ||| c.sAcc]) :
      Decodes c st { st with ignition := v }
  | wheel {gear temp : Byte} {speed delta pulse : U16} (hgear : gear ∈ [0#8, c.sGearRev, c.sGearDrive])
      (hdelta : delta.toNat < 2048) (hpulse : pulse.toNat < 2048) :
      Decodes c st { st with
        gearBox := gear, speed := speed, wheelDelta := delta, wheelPulse := pulse, temperature := temp }
  | odometer {o0 o1 o2 : Byte} : Decodes c st { st with odo0 := o0, odo1 := o1, odo2 := o2 }
  | rpm {v : U16} (hv : v.toNat < 2 ^ 14) : Decodes c st { st with rpm := v }

theorem ignitionValue_mem (c : Cfg) (b : Byte) :
    ignitionValue c b ∈ [0#8, c.sKeyin ||| c.sIgnOn, c.sKeyin ||| c.sStart, c.sKeyin ||| c.sAcc] := by
  unfold ignitionValue
  repeat' split
  all_goals simp

theorem pairValue_lt (h l : Byte) : pairValue h l < 2 ^ 16 := by
  have hh := h.isLt
  have hl := l.isLt
  unfold pairValue
  omega

/-- A 16-bit value made of a number below a bound stays below it. -/
theorem toNat_ofNat_lt {n b : Nat} (h : n < b) : (BitVec.ofNat 16 n).toNat < b := by
  rw [BitVec.toNat_ofNat]
  exact Nat.lt_of_le_of_lt (Nat.mod_le _ _) h

theorem raisable_enc (id : Ident) : raisable (.enc id) = 0x0010#16 := rfl
theorem raisable_lstep (req frame : Bool) : raisable (.lstep req frame) = 0x0084#16 := rfl
theorem raisable_bapp (b : Byte) : raisable (.bapp b) = 0x0060#16 := rfl

/-- The state after a tick's counter and frames, before the deadline (43_schedule.md R160, `exec_tick_eq`). -/
def withTickFrames (s : State) : State :=
  { s with tickCnt := nextTick s, txq := s.txq ++ groupEntries (nextTick s) s.cfg s.store }

/-- All that a command other than SRESET can do to the state when it answers a next state, with the conditions under
which it does it. -/
inductive ExecEffect : Instr → State → State → Prop
  | same {i s} : ExecEffect i s s
  | raised {i s} {e : Err} (he : e.mask &&& raisable i = e.mask) : ExecEffect i s (raise e s)
  | decoded {s} {st : SignalStore} (hst : Decodes s.cfg s.store st) : ExecEffect .mframe s { s with store := st }
  | dimmed {s sample} {avg : U16} {night : Bool} :
      ExecEffect (.dim sample) s { s with store := { s.store with dimAvg := avg, nightMode := night } }
  | ticked {s} : ExecEffect .tick s (withTickFrames s)
  | counted {s} (hw : s.cfg.waitLimit ≠ 0#16 ∧ s.lstate.waiting = true)
      (hl : s.waitCnt.toNat + 1 < s.cfg.waitLimit.toNat) :
      ExecEffect .tick s { withTickFrames s with waitCnt := s.waitCnt + 1#16 }
  | expired {s} (hw : s.cfg.waitLimit ≠ 0#16 ∧ s.lstate.waiting = true)
      (hl : s.cfg.waitLimit.toNat ≤ s.waitCnt.toNat + 1) :
      ExecEffect .tick s (raise .linkTimeout (linkRestart (withTickFrames s)))
  | encoded {s id} {f : CanFrame} (hf : f.Normal) : ExecEffect (.enc id) s (transmit .slave f s)
  | linkStep {i s t} (hi : TakesLinkStep i s) (ht : LinkEffect s t) : ExecEffect i s t
  | restarted {s} : ExecEffect .lreset s (linkRestart s)
  | emptied {s} (hs : s.lstate.streaming = false) : ExecEffect .bclr s { s with bufLen := 0#16, cursor := 0#16 }
  | appended {s b} (hb : s.bufLen.toNat < s.cfg.bufCap) :
      ExecEffect (.bapp b) s { s with buf := s.buf.write s.bufLen.toNat b, bufLen := s.bufLen + 1#16 }
  | fetched {s} (hs : s.lstate.streaming = false) :
      ExecEffect .chunk s { s with
        chunkData := Vector.ofFn fun i => s.buf.read (s.cursor.toNat + i.val)
        chunkLen := BitVec.ofNat 4 (chunkLength s)
        chunkLast := chunkIsLast s
        cursor := if chunkIsLast s then 0#16 else s.cursor + 8#16 }
  | cleared {s mask} : ExecEffect (.eclr mask) s { s with err := s.err &&& ~~~mask }

/-! Each decoder of MFRAME raises DECODE_SHORT or writes its fields of the store. -/

theorem decodeIgn_effect (f : CanFrame) (s : State) : ExecEffect .mframe s (decodeIgn f s) := by
  unfold decodeIgn
  split
  · exact .raised rfl
  · exact .decoded (.ignition (ignitionValue_mem _ _))

theorem decodeWheel_effect (f : CanFrame) (s : State) : ExecEffect .mframe s (decodeWheel f s) := by
  unfold decodeWheel
  split
  · exact .raised rfl
  · refine .decoded (.wheel ?_ (toNat_ofNat_lt ?_) (toNat_ofNat_lt ?_))
    · split <;> simp
    · omega
    · exact Nat.mod_lt _ (by decide)

theorem decodeOdo_effect (f : CanFrame) (s : State) : ExecEffect .mframe s (decodeOdo f s) := by
  unfold decodeOdo
  split
  · exact .raised rfl
  · exact .decoded .odometer

theorem decodeRpm_effect (f : CanFrame) (s : State) : ExecEffect .mframe s (decodeRpm f s) := by
  unfold decodeRpm
  split
  · exact .raised rfl
  · refine .decoded (.rpm (toNat_ofNat_lt ?_))
    have hpair := pairValue_lt (f.byte s.cfg.mRpmHi.val) (f.byte s.cfg.mRpmLo.val)
    omega

theorem exec_mframe_effect {s t : State} (h : exec .mframe s = .next t) : ExecEffect .mframe s t := by
  change execMframe s = _ at h
  simp only [execMframe] at h
  split at h
  · cases h; exact .raised rfl
  split at h
  · cases h; exact decodeIgn_effect _ _
  split at h
  · cases h; exact decodeWheel_effect _ _
  split at h
  · cases h; exact decodeOdo_effect _ _
  split at h
  · cases h; exact decodeRpm_effect _ _
  split at h
  · next hid => exact .linkStep ⟨true, .inr ⟨rfl, rfl, hid⟩⟩ (linkStep_effect (finish_next h))
  · cases h; exact .same

theorem exec_tick_effect {s t : State} (h : exec .tick s = .next t) : ExecEffect .tick s t := by
  have htick : exec .tick s = .next (linkDeadline (withTickFrames s)) := exec_tick_eq s
  cases htick.symm.trans h
  obtain ⟨-, hd⟩ | ⟨hw, hl, hd⟩ | ⟨hw, hl, hd⟩ := linkDeadline_cases (withTickFrames s) <;> rw [hd]
  · exact .ticked
  · exact .counted hw hl
  · exact .expired hw hl

theorem exec_bclr_effect {s t : State} (h : exec .bclr s = .next t) : ExecEffect .bclr s t := by
  change execBclr s = _ at h
  unfold execBclr at h
  split at h
  · cases h; exact .raised rfl
  · next hs => cases h; exact .emptied (Bool.eq_false_iff.mpr hs)

theorem exec_bapp_effect {s t : State} {b : Byte} (h : exec (.bapp b) s = .next t) : ExecEffect (.bapp b) s t := by
  change execBapp b s = _ at h
  unfold execBapp at h
  split at h
  · cases h; exact .raised (by rw [raisable_bapp]; rfl)
  split at h
  · cases h; exact .raised (by rw [raisable_bapp]; rfl)
  have happend := finish_next h
  unfold appendByte at happend
  split at happend
  · cases happend
  · next hw =>
    obtain ⟨hb, rfl⟩ := bufWrite_ok hw
    cases happend
    exact .appended hb

theorem exec_chunk_effect {s t : State} (h : exec .chunk s = .next t) : ExecEffect .chunk s t := by
  cases hs : s.lstate.streaming with
  | true =>
    have hbusy : exec .chunk s = .next (raise .bufBusy s) := if_pos hs
    cases hbusy.symm.trans h
    exact .raised rfl
  | false =>
    obtain rfl | rfl | rfl := exec_chunk_next h
    · exact .raised rfl
    · exact .raised rfl
    · exact .fetched hs

/-- The one inversion of `exec`: what follows about commands is read off the effects. -/
theorem exec_effect {i : Instr} {s t : State} (h : exec i s = .next t) (hi : i ≠ .sreset) : ExecEffect i s t := by
  cases i with
  | nop => cases h; exact .same
  | mframe => exact exec_mframe_effect h
  | sframe =>
    obtain rfl | rfl := exec_sframe_next h
    · exact .raised rfl
    · exact .same
  | tick => exact exec_tick_effect h
  | dim sample => cases h; exact .dimmed
  | enc id =>
    obtain ⟨f, hf, rfl⟩ | ⟨-, rfl⟩ := exec_enc_next h
    · exact .encoded (encodeFrame_normal hf)
    · exact .raised (by rw [raisable_enc]; rfl)
  | lstep req frame =>
    obtain rfl | hstep := exec_lstep_next h
    · exact .raised (by rw [raisable_lstep]; rfl)
    · exact .linkStep ⟨frame, .inl ⟨req, rfl⟩⟩ (linkStep_effect hstep)
  | lreset => cases h; exact .restarted
  | bclr => exact exec_bclr_effect h
  | bapp b => exact exec_bapp_effect h
  | chunk => exact exec_chunk_effect h
  | eclr mask => cases h; exact .cleared
  | sreset => exact absurd rfl hi

/-! ### What each command may write -/

theorem Decodes.frame {c : Cfg} {st st' : SignalStore} (h : Decodes c st st') :
    st'.language = st.language ∧ st'.isMetric = st.isMetric ∧ st'.dimAvg = st.dimAvg ∧
      st'.nightMode = st.nightMode := by
  cases h <;> exact ⟨rfl, rfl, rfl, rfl⟩

namespace ExecEffect

variable {i : Instr} {s t : State}

/-- No command writes the staging bytes, the RX registers, `txTries`, the configuration, `inputs` or `outputs`. -/
theorem frame (h : ExecEffect i s t) :
    t = { s with
      store := t.store, tickCnt := t.tickCnt, lstate := t.lstate, seq := t.seq, waitCnt := t.waitCnt, buf := t.buf
      bufLen := t.bufLen, cursor := t.cursor, chunkLen := t.chunkLen, chunkLast := t.chunkLast
      chunkData := t.chunkData, txq := t.txq, err := t.err } := by
  cases h with
  | linkStep _ ht => rw [ht.frame]
  | _ => rfl

theorem cfg_eq (h : ExecEffect i s t) : t.cfg = s.cfg := by rw [h.frame]

theorem txTries_eq (h : ExecEffect i s t) : t.txTries = s.txTries := by rw [h.frame]

theorem store_eq (h : ExecEffect i s t) (hm : i ≠ .mframe) (hd : ∀ r, i ≠ .dim r) : t.store = s.store := by
  cases h with
  | decoded => exact absurd rfl hm
  | dimmed => exact absurd rfl (hd _)
  | linkStep _ ht => rw [ht.frame]
  | _ => rfl

/-- Of the store, every command but MFRAME leaves all but the filter state and `nightMode`. -/
theorem store_eq_of_ne_mframe (h : ExecEffect i s t) (hm : i ≠ .mframe) :
    t.store = { s.store with dimAvg := t.store.dimAvg, nightMode := t.store.nightMode } := by
  cases h with
  | decoded => exact absurd rfl hm
  | linkStep _ ht => rw [ht.frame]
  | _ => rfl

theorem dim_eq (h : ExecEffect i s t) (hd : ∀ r, i ≠ .dim r) :
    t.store.dimAvg = s.store.dimAvg ∧ t.store.nightMode = s.store.nightMode := by
  cases h with
  | decoded hst =>
    obtain ⟨-, -, havg, hnight⟩ := hst.frame
    exact ⟨havg, hnight⟩
  | dimmed => exact absurd rfl (hd _)
  | linkStep _ ht => rw [ht.frame]; exact ⟨rfl, rfl⟩
  | _ => exact ⟨rfl, rfl⟩

theorem language_isMetric_eq (h : ExecEffect i s t) :
    t.store.language = s.store.language ∧ t.store.isMetric = s.store.isMetric := by
  cases h with
  | decoded hst =>
    obtain ⟨hlang, hmetric, -, -⟩ := hst.frame
    exact ⟨hlang, hmetric⟩
  | linkStep _ ht => rw [ht.frame]; exact ⟨rfl, rfl⟩
  | _ => exact ⟨rfl, rfl⟩

theorem tickCnt_eq (h : ExecEffect i s t) (ht : i ≠ .tick) : t.tickCnt = s.tickCnt := by
  cases h with
  | ticked | counted | expired => exact absurd rfl ht
  | linkStep _ ht => rw [ht.frame]
  | _ => rfl

theorem chunk_eq (h : ExecEffect i s t) (hc : i ≠ .chunk) :
    t.chunkLen = s.chunkLen ∧ t.chunkLast = s.chunkLast ∧ t.chunkData = s.chunkData := by
  cases h with
  | fetched => exact absurd rfl hc
  | linkStep _ ht => rw [ht.frame]; exact ⟨rfl, rfl, rfl⟩
  | _ => exact ⟨rfl, rfl, rfl⟩

theorem buf_eq (h : ExecEffect i s t) (hb : ∀ b, i ≠ .bapp b) : t.buf = s.buf := by
  cases h with
  | appended => exact absurd rfl (hb _)
  | linkStep _ ht => rw [ht.frame]
  | _ => rfl

theorem bufLen_eq (h : ExecEffect i s t) (hb : ∀ b, i ≠ .bapp b) (hc : i ≠ .bclr) : t.bufLen = s.bufLen := by
  cases h with
  | appended => exact absurd rfl (hb _)
  | emptied => exact absurd rfl hc
  | linkStep _ ht => rw [ht.frame]
  | _ => rfl

end ExecEffect

/-- The deadline counts in the three waiting states (43_schedule.md R162). -/
theorem mem_waiting_of_waiting {x : LinkState} (h : x.waiting = true) :
    x ∈ [LinkState.start, .preamble, .waitForCluster] := by
  cases x <;> simp_all [LinkState.waiting]

theorem restartsLink_tick {s : State} (hw : s.cfg.waitLimit ≠ 0#16 ∧ s.lstate.waiting = true)
    (hl : s.cfg.waitLimit.toNat ≤ s.waitCnt.toNat + 1) : RestartsLink .tick s :=
  .inr ⟨rfl, hw.1, mem_waiting_of_waiting hw.2, hl⟩

theorem restartsLink_lreset (s : State) : RestartsLink .lreset s := .inl rfl

theorem nextCursor_cases (s : State) :
    (if chunkIsLast s then 0#16 else s.cursor + 8#16) = 0#16 ∨
      (if chunkIsLast s then 0#16 else s.cursor + 8#16) = s.cursor + 8#16 := by
  cases chunkIsLast s
  · exact .inr rfl
  · exact .inl rfl

namespace LinkEffect

variable {s t : State}

theorem seq_cases (h : LinkEffect s t) :
    t.seq = s.seq ∨ (s.lstate = .info ∧ t.seq = s.seq + 1#4) ∨ (s.lstate = .stop ∧ t.seq = 0#4) := by
  cases h with
  | same | bufEmpty | moved | answered => exact .inl rfl
  | closed hl => exact .inr (.inr ⟨hl, rfl⟩)
  | chunkSent hl => exact .inr (.inl ⟨hl, rfl⟩)

theorem waitCnt_cases (h : LinkEffect s t) : t.waitCnt = s.waitCnt ∨ t.waitCnt = 0#16 := by
  cases h with
  | same | bufEmpty => exact .inl rfl
  | moved | answered | closed => exact .inr rfl
  | chunkSent =>
    dsimp only
    split
    · exact .inl rfl
    · exact .inr rfl

theorem cursor_cases (h : LinkEffect s t) :
    t.cursor = s.cursor ∨ (s.lstate = .info ∧ (t.cursor = 0#16 ∨ t.cursor = s.cursor + 8#16)) := by
  cases h with
  | same | bufEmpty | moved | answered | closed => exact .inl rfl
  | chunkSent hl => exact .inr ⟨hl, nextCursor_cases s⟩

theorem err_cases (h : LinkEffect s t) : t.err = s.err ∨ t.err = s.err ||| Err.mask .bufEmpty := by
  cases h with
  | bufEmpty => exact .inr rfl
  | _ => exact .inl rfl

theorem txq_append (h : LinkEffect s t) :
    ∃ l, t.txq = s.txq ++ l ∧ l.length ≤ 7 ∧ ∀ e ∈ l, e.frame.Normal := by
  cases h with
  | same | bufEmpty | moved => exact ⟨[], by simp⟩
  | @answered _ f _ hf | @closed f _ hf | @chunkSent f _ hf => exact ⟨[⟨.master, f⟩], rfl, by simp, by simpa using hf⟩

end LinkEffect

/-- A Link Protocol step may raise BUF_EMPTY (60_exceptions.md R210). -/
theorem bufEmpty_raisable {i : Instr} {s : State} (hi : TakesLinkStep i s) :
    Err.mask .bufEmpty &&& raisable i = Err.mask .bufEmpty := by
  obtain ⟨frame, ⟨req, rfl⟩ | ⟨rfl, -⟩⟩ := hi
  · rw [raisable_lstep]; rfl
  · rfl

namespace ExecEffect

variable {i : Instr} {s t : State}

theorem lstate_cases (h : ExecEffect i s t) :
    t.lstate = s.lstate ∨ TakesLinkStep i s ∨ (RestartsLink i s ∧ t.lstate = .idle) := by
  cases h with
  | expired hw hl => exact .inr (.inr ⟨restartsLink_tick hw hl, rfl⟩)
  | restarted => exact .inr (.inr ⟨restartsLink_lreset s, rfl⟩)
  | linkStep hi => exact .inr (.inl hi)
  | _ => exact .inl rfl

theorem seq_cases (h : ExecEffect i s t) :
    t.seq = s.seq ∨ (TakesLinkStep i s ∧ s.lstate = .info ∧ t.seq = s.seq + 1#4) ∨
      (TakesLinkStep i s ∧ s.lstate = .stop ∧ t.seq = 0#4) ∨ (RestartsLink i s ∧ t.seq = 0#4) := by
  cases h with
  | expired hw hl => exact .inr (.inr (.inr ⟨restartsLink_tick hw hl, rfl⟩))
  | restarted => exact .inr (.inr (.inr ⟨restartsLink_lreset s, rfl⟩))
  | linkStep hi ht =>
    obtain hseq | hseq | hseq := ht.seq_cases
    · exact .inl hseq
    · exact .inr (.inl ⟨hi, hseq⟩)
    · exact .inr (.inr (.inl ⟨hi, hseq⟩))
  | _ => exact .inl rfl

theorem waitCnt_cases (h : ExecEffect i s t) :
    t.waitCnt = s.waitCnt ∨ (i = .tick ∧ t.waitCnt = s.waitCnt + 1#16) ∨
      (TakesLinkStep i s ∧ t.waitCnt = 0#16) ∨ (RestartsLink i s ∧ t.waitCnt = 0#16) := by
  cases h with
  | counted => exact .inr (.inl ⟨rfl, rfl⟩)
  | expired hw hl => exact .inr (.inr (.inr ⟨restartsLink_tick hw hl, rfl⟩))
  | restarted => exact .inr (.inr (.inr ⟨restartsLink_lreset s, rfl⟩))
  | linkStep hi ht => exact ht.waitCnt_cases.imp_right fun hw => .inr (.inl ⟨hi, hw⟩)
  | _ => exact .inl rfl

/-- The values the cursor can take: it stays, goes back to 0, or moves to the next chunk (10_state.md R28). -/
theorem cursor_cases (h : ExecEffect i s t) :
    t.cursor = s.cursor ∨ t.cursor = 0#16 ∨ t.cursor = s.cursor + 8#16 := by
  cases h with
  | expired | restarted | emptied => exact .inr (.inl rfl)
  | linkStep _ ht => exact ht.cursor_cases.imp_right And.right
  | fetched => exact .inr (nextCursor_cases s)
  | _ => exact .inl rfl

/-- The commands that move the cursor. -/
theorem cursor_writers (h : ExecEffect i s t) :
    t.cursor = s.cursor ∨ i = .chunk ∨ i = .bclr ∨ (TakesLinkStep i s ∧ s.lstate = .info) ∨ RestartsLink i s := by
  cases h with
  | expired hw hl => exact .inr (.inr (.inr (.inr (restartsLink_tick hw hl))))
  | restarted => exact .inr (.inr (.inr (.inr (restartsLink_lreset s))))
  | linkStep hi ht => exact ht.cursor_cases.imp_right fun hc => .inr (.inr (.inl ⟨hi, hc.1⟩))
  | emptied => exact .inr (.inr (.inl rfl))
  | fetched => exact .inr (.inl rfl)
  | _ => exact .inl rfl

theorem txq_writers (h : ExecEffect i s t) :
    t.txq = s.txq ∨ i = .tick ∨ (∃ id, i = .enc id) ∨ TakesLinkStep i s := by
  cases h with
  | ticked | counted | expired => exact .inr (.inl rfl)
  | encoded => exact .inr (.inr (.inl ⟨_, rfl⟩))
  | linkStep hi => exact .inr (.inr (.inr hi))
  | _ => exact .inl rfl

/-- A command other than ECLR leaves `err` or sets one bit of its own (60_exceptions.md R210, R211). -/
theorem err_cases (h : ExecEffect i s t) (hi : ∀ m, i ≠ .eclr m) :
    t.err = s.err ∨ ∃ e : Err, e.mask &&& raisable i = e.mask ∧ t.err = s.err ||| e.mask := by
  cases h with
  | raised he => exact .inr ⟨_, he, rfl⟩
  | expired => exact .inr ⟨.linkTimeout, rfl, rfl⟩
  | linkStep hi ht => exact ht.err_cases.imp_right fun he => ⟨.bufEmpty, bufEmpty_raisable hi, he⟩
  | cleared => exact absurd rfl (hi _)
  | _ => exact .inl rfl

theorem err_sets_raisable (h : ExecEffect i s t) (hi : ∀ m, i ≠ .eclr m) :
    ∃ b : U16, t.err = s.err ||| (b &&& raisable i) := by
  obtain herr | ⟨e, he, herr⟩ := h.err_cases hi
  · exact ⟨0#16, by simp [herr]⟩
  · exact ⟨e.mask, by rw [he, herr]⟩

/-- A command takes no frame away and appends at most seven, all in normal form (10_state.md R33, 41_encode.md R130). -/
theorem txq_append (h : ExecEffect i s t) : ∃ l, t.txq = s.txq ++ l ∧ l.length ≤ 7 ∧ ∀ e ∈ l, e.frame.Normal := by
  cases h with
  | ticked | counted | expired => exact ⟨_, rfl, groupEntries_length_le _ _ _, fun _ => groupEntries_normal⟩
  | @encoded _ _ f hf => exact ⟨[⟨.slave, f⟩], rfl, by simp, by simpa using hf⟩
  | linkStep _ ht => exact ht.txq_append
  | _ => exact ⟨[], by simp⟩

end ExecEffect

/-- Settles O20: clause by clause from the effects of a command. -/
theorem commandsWriteOnlyTheirState : Obligations.CommandsWriteOnlyTheirState := by
  intro i s t hexec hi
  have h := exec_effect hexec hi
  refine ⟨h.store_eq, h.store_eq_of_ne_mframe, h.dim_eq, h.language_isMetric_eq.1, h.language_isMetric_eq.2,
    h.tickCnt_eq, h.lstate_cases, h.seq_cases, h.waitCnt_cases, h.cursor_cases, h.cursor_writers, h.txq_writers,
    h.err_sets_raisable, ?_, h.chunk_eq, h.buf_eq, h.bufLen_eq, ?_⟩
  · rintro m rfl
    cases hexec
    rfl
  · rw [h.frame]
    exact ⟨rfl, rfl, rfl, rfl, rfl, rfl, rfl, rfl, rfl, rfl⟩

/-! ### The invariant at reset -/

theorem divD_pos {c : Cfg} (hc : c.WellFormed) : 0 < c.divD.toNat := by
  obtain ⟨hranges, -⟩ := hc
  obtain ⟨-, -, -, -, -, hdivD, -, -⟩ := (rangesOk_iff c).mp hranges
  exact hdivD

theorem bufCap_le {c : Cfg} (hc : c.WellFormed) : c.bufCap ≤ 65528 := by
  obtain ⟨hranges, -⟩ := hc
  obtain ⟨-, -, -, -, -, -, -, hcap⟩ := (rangesOk_iff c).mp hranges
  exact hcap

theorem toNat_pos_of_ne_zero {w : Nat} {v : BitVec w} (h : v ≠ 0#w) : (0#w).toNat < v.toNat := by
  rw [BitVec.toNat_ofNat, Nat.zero_mod]
  exact (ne_zero_iff_one_le_toNat v).mp h

theorem blockInv_resetWith {c : Cfg} (hc : c.WellFormed) : BlockInv (State.resetWith c) := by
  have hbuf : BufferInv (State.resetWith c) :=
    ⟨State.resetWith_buf_wf c, nofun, Nat.zero_le _, rfl, .inl rfl⟩
  have hstore : StoreInv (State.resetWith c) :=
    ⟨Nat.zero_lt_succ _, Nat.zero_lt_succ _, Nat.zero_lt_succ _, rfl, rfl, List.mem_cons_self, List.mem_cons_self⟩
  have hlink : LinkInv (State.resetWith c) :=
    ⟨divD_pos hc, fun _ => rfl, fun _ => rfl, toNat_pos_of_ne_zero, nofun⟩
  have htx : TxInv (State.resetWith c) := ⟨Nat.zero_le _, nofun, fun _ => rfl, toNat_pos_of_ne_zero⟩
  exact ⟨hc, hbuf, hstore, hlink, htx, Nat.zero_lt_succ _, Nat.zero_le _⟩

/-- A reset keeps the configuration, so it leaves a state of the invariant; `inputs` and `outputs` are no part of it. -/
theorem blockInv_resetState {s : State} (hc : s.cfg.WellFormed) : BlockInv (resetState s) :=
  blockInv_resetWith hc

/-- Settles O15: for every well-formed configuration, and EX is one. -/
theorem resetStateSatisfiesTheInvariant : Obligations.ResetStateSatisfiesTheInvariant :=
  ⟨fun _ hc => blockInv_resetWith hc, blockInv_resetWith (by decide)⟩

/-! ### Every command keeps the invariant -/

/-- The cursor moves within the buffer where the chunk is not the last (10_state.md R28, 45_frame_buffer.md R192). -/
theorem cursor_advance {s : State} (hl : chunkIsLast s = false) :
    (s.cursor + 8#16).toNat = s.cursor.toNat + 8 ∧ s.cursor.toNat + 8 < s.bufLen.toNat := by
  have hlt : s.cursor.toNat + 8 < s.bufLen.toNat := by simpa [chunkIsLast] using hl
  have hbound := s.bufLen.isLt
  refine ⟨?_, hlt⟩
  rw [BitVec.toNat_add, BitVec.toNat_ofNat]
  omega

/-- The cursor after a chunk is fetched stands inside the buffer's contents (10_state.md R28). -/
theorem bufferInv_advance {s : State} (h : BufferInv s) :
    BufferInv { s with cursor := if chunkIsLast s then 0#16 else s.cursor + 8#16 } := by
  obtain ⟨hwf, hbelow, hlen, hmod, -⟩ := h
  cases hl : chunkIsLast s with
  | true => exact ⟨hwf, hbelow, hlen, rfl, .inl rfl⟩
  | false =>
    obtain ⟨hnext, hlt⟩ := cursor_advance hl
    refine ⟨hwf, hbelow, hlen, ?_, .inr ?_⟩
    · change (s.cursor + 8#16).toNat % 8 = 0
      omega
    · change (s.cursor + 8#16).toNat < s.bufLen.toNat
      omega

theorem bufferInv_cursor_zero {s : State} (h : BufferInv s) : BufferInv { s with cursor := 0#16 } := by
  obtain ⟨hwf, hbelow, hlen, -, -⟩ := h
  exact ⟨hwf, hbelow, hlen, rfl, .inl rfl⟩

/-- An appended byte stays inside the buffer (45_frame_buffer.md R191). -/
theorem bufferInv_append {s : State} (hcap : s.cfg.bufCap ≤ 65528) (h : BufferInv s)
    (hb : s.bufLen.toNat < s.cfg.bufCap) (b : Byte) :
    BufferInv { s with buf := s.buf.write s.bufLen.toNat b, bufLen := s.bufLen + 1#16 } := by
  obtain ⟨hwf, hbelow, -, hmod, hcur⟩ := h
  have hlen : (s.bufLen + 1#16).toNat = s.bufLen.toNat + 1 := by
    rw [BitVec.toNat_add, BitVec.toNat_ofNat]
    omega
  refine ⟨Memory.wf_write hwf _ _, Memory.below_write hbelow hb _, ?_, hmod, hcur.imp_right fun hlt => ?_⟩
  · change (s.bufLen + 1#16).toNat ≤ s.cfg.bufCap
    omega
  · change s.cursor.toNat < (s.bufLen + 1#16).toNat
    omega

theorem LinkEffect.bufferInv {s t : State} (h : LinkEffect s t) (hs : BufferInv s) : BufferInv t := by
  cases h with
  | chunkSent => exact bufferInv_advance hs
  | _ => exact hs

theorem ExecEffect.bufferInv {i : Instr} {s t : State} (h : ExecEffect i s t) (hcap : s.cfg.bufCap ≤ 65528)
    (hs : BufferInv s) : BufferInv t := by
  cases h with
  | expired | restarted => exact bufferInv_cursor_zero (s := s) hs
  | linkStep _ ht => exact ht.bufferInv hs
  | emptied =>
    obtain ⟨hwf, hbelow, -, -, -⟩ := hs
    exact ⟨hwf, hbelow, Nat.zero_le _, rfl, .inl rfl⟩
  | appended hb => exact bufferInv_append hcap hs hb _
  | fetched => exact bufferInv_advance hs
  | _ => exact hs

theorem ExecEffect.storeInv {i : Instr} {s t : State} (h : ExecEffect i s t) (hs : StoreInv s) : StoreInv t := by
  cases h with
  | decoded hst =>
    obtain ⟨hpulse, hdelta, hrpm, hlang, hmetric, hign, hgear⟩ := hs
    cases hst with
    | ignition hv => exact ⟨hpulse, hdelta, hrpm, hlang, hmetric, hv, hgear⟩
    | wheel hgear' hdelta' hpulse' => exact ⟨hpulse', hdelta', hrpm, hlang, hmetric, hign, hgear'⟩
    | odometer => exact ⟨hpulse, hdelta, hrpm, hlang, hmetric, hign, hgear⟩
    | rpm hv => exact ⟨hpulse, hdelta, hv, hlang, hmetric, hign, hgear⟩
  | linkStep _ ht => rw [ht.frame]; exact hs
  | _ => exact hs

/-- With the deadline counter at 0 only the schedule counter and the waiting transfer's cursor are left to check. -/
theorem linkInv_of_waitCnt_zero {s : State} (htick : s.tickCnt.toNat < s.cfg.divD.toNat) (hw : s.waitCnt = 0#16)
    (hcur : s.lstate = .waitForCluster → s.cursor ≠ 0#16) : LinkInv s :=
  ⟨htick, fun _ => hw, fun _ => hw, fun hlim => by rw [hw]; exact toNat_pos_of_ne_zero hlim, hcur⟩

theorem LinkEffect.linkInv {s t : State} (h : LinkEffect s t) (hs : LinkInv s) : LinkInv t := by
  have ⟨htick, hidle, _, _, _⟩ := hs
  cases h with
  | same | bufEmpty => exact hs
  | moved hx | answered hx => exact linkInv_of_waitCnt_zero htick rfl fun hwait => absurd hwait hx
  | closed => exact linkInv_of_waitCnt_zero htick rfl nofun
  | chunkSent hinfo =>
    have hzero : s.waitCnt = 0#16 := hidle (by rw [hinfo]; rfl)
    refine linkInv_of_waitCnt_zero htick ?_ ?_
    · change (if chunkIsLast s then s.waitCnt else 0#16) = 0#16
      rw [hzero, ite_self]
    · intro hwait
      cases hl : chunkIsLast s with
      | true => simp [hl, hinfo] at hwait
      | false =>
        obtain ⟨hnext, -⟩ := cursor_advance hl
        change s.cursor + 8#16 ≠ 0#16
        rw [ne_zero_iff_one_le_toNat]
        omega

theorem nextTick_lt {s : State} (hd : 0 < s.cfg.divD.toNat) : (nextTick s).toNat < s.cfg.divD.toNat := by
  have hmod := Nat.mod_lt (s.tickCnt.toNat + 1) hd
  rw [nextTick, BitVec.toNat_ofNat]
  exact Nat.lt_of_le_of_lt (Nat.mod_le _ _) hmod

theorem linkInv_withTickFrames {s : State} (hd : 0 < s.cfg.divD.toNat) (hs : LinkInv s) :
    LinkInv (withTickFrames s) := by
  obtain ⟨-, hrest⟩ := hs
  exact ⟨nextTick_lt hd, hrest⟩

theorem ne_waitForCluster_of_not_streaming {x : LinkState} (h : x.streaming = false) : x ≠ .waitForCluster := by
  rintro rfl
  cases h

theorem ExecEffect.linkInv {i : Instr} {s t : State} (h : ExecEffect i s t) (hd : 0 < s.cfg.divD.toNat)
    (hs : LinkInv s) : LinkInv t := by
  have ⟨htick, hidle, hnolimit, hlimit, hcur⟩ := hs
  cases h with
  | ticked => exact linkInv_withTickFrames hd hs
  | counted hw hl =>
    obtain ⟨hlim, hwaiting⟩ := hw
    refine ⟨nextTick_lt hd, fun hn => ?_, fun hz => absurd hz hlim, fun _ => ?_, hcur⟩
    · exact absurd hwaiting (Bool.eq_false_iff.mp hn)
    · change (s.waitCnt + 1#16).toNat < s.cfg.waitLimit.toNat
      rw [BitVec.toNat_add]
      exact Nat.lt_of_le_of_lt (Nat.mod_le _ _) hl
  | expired => exact linkInv_of_waitCnt_zero (nextTick_lt hd) rfl nofun
  | restarted => exact linkInv_of_waitCnt_zero htick rfl nofun
  | linkStep _ ht => exact ht.linkInv hs
  | emptied hn | fetched hn =>
    exact ⟨htick, hidle, hnolimit, hlimit, fun hwait => absurd hwait (ne_waitForCluster_of_not_streaming hn)⟩
  | _ => exact hs

/-- A command that runs finds the queue empty (30_encoding.md R82), so what it appends is the whole queue. -/
theorem ExecEffect.txInv {i : Instr} {s t : State} (h : ExecEffect i s t) (hq : s.txq = []) (hs : TxInv s) :
    TxInv t := by
  obtain ⟨-, -, htries, hlimit⟩ := hs
  obtain ⟨l, hl, hlen, hnormal⟩ := h.txq_append
  rw [hq, List.nil_append] at hl
  refine ⟨hl ▸ hlen, hl ▸ hnormal, fun _ => ?_, ?_⟩
  · rw [h.txTries_eq, htries hq]
  · rw [h.txTries_eq, h.cfg_eq]
    exact hlimit

theorem or_mask_lt {v : U16} (hv : v.toNat < 1024) (e : Err) : (v ||| e.mask).toNat < 1024 := by
  have hmask : e.mask.toNat < 2 ^ 10 := by cases e <;> decide
  rw [BitVec.toNat_or]
  exact Nat.or_lt_two_pow hv hmask

theorem ExecEffect.err_lt {i : Instr} {s t : State} (h : ExecEffect i s t) (hs : s.err.toNat < 1024) :
    t.err.toNat < 1024 := by
  cases h with
  | raised | expired => exact or_mask_lt hs _
  | linkStep _ ht =>
    obtain herr | herr := ht.err_cases <;> rw [herr]
    · exact hs
    · exact or_mask_lt hs _
  | cleared =>
    dsimp only
    rw [BitVec.toNat_and]
    exact Nat.lt_of_le_of_lt Nat.and_le_left hs
  | _ => exact hs

theorem ExecEffect.chunkLen_le {i : Instr} {s t : State} (h : ExecEffect i s t) (hs : s.chunkLen.toNat ≤ 8) :
    t.chunkLen.toNat ≤ 8 := by
  cases h with
  | fetched =>
    change (BitVec.ofNat 4 (chunkLength s)).toNat ≤ 8
    rw [BitVec.toNat_ofNat]
    exact Nat.le_trans (Nat.mod_le _ _) (chunkLength_le s)
  | linkStep _ ht => rw [ht.frame]; exact hs
  | _ => exact hs

theorem exec_keeps_blockInv {i : Instr} {s t : State} (h : exec i s = .next t) (hq : i = .sreset ∨ s.txq = [])
    (hs : BlockInv s) : BlockInv t := by
  obtain ⟨hcfg, hbuf, hstore, hlink, htx, herr, hchunk⟩ := hs
  by_cases hi : i = .sreset
  · subst hi
    cases h
    exact blockInv_resetState hcfg
  · have heff := exec_effect h hi
    exact ⟨heff.cfg_eq ▸ hcfg, heff.bufferInv (bufCap_le hcfg) hbuf, heff.storeInv hstore,
      heff.linkInv (divD_pos hcfg) hlink, heff.txInv (hq.resolve_left hi) htx, heff.err_lt herr,
      heff.chunkLen_le hchunk⟩

/-! ### Every step keeps the invariant -/

theorem blockInv_raise {s : State} (hs : BlockInv s) (e : Err) : BlockInv (raise e s) := by
  obtain ⟨hcfg, hbuf, hstore, hlink, htx, herr, hchunk⟩ := hs
  exact ⟨hcfg, hbuf, hstore, hlink, htx, or_mask_lt herr e, hchunk⟩

theorem execute_keeps_blockInv {w : Word} {s t : State} (h : execute w s = .next t) (hs : BlockInv s) :
    BlockInv t := by
  obtain ⟨-, he⟩ | ⟨-, -, he⟩ | ⟨hfree, i, hdec, he⟩ := execute_cases w s <;> rw [he] at h
  · cases h
    exact blockInv_raise hs _
  · cases h
    exact blockInv_raise hs _
  · refine exec_keeps_blockInv h ?_ hs
    by_cases hw : w = sresetWord
    · subst hw
      cases hdec
      exact .inl rfl
    · exact .inr (Decidable.byContradiction fun hq => hfree ⟨hq, hw⟩)

/-- An attempt keeps the queue's part of the invariant: the tail of a queue is one, and the count stays below a non-zero
limit (60_exceptions.md R216). -/
theorem attempt_keeps_blockInv (accepted : Bool) {s : State} (hs : BlockInv s) : BlockInv (attempt accepted s) := by
  have ⟨hcfg, hbuf, hstore, hlink, ⟨hlen, hnormal, htries, hlimit⟩, herr, hchunk⟩ := hs
  have htail {e : TxEntry} {rest : List TxEntry} (hq : s.txq = e :: rest) :
      TxInv { s with txq := rest, txTries := 0#16 } := by
    rw [hq] at hlen hnormal
    exact ⟨Nat.le_trans (Nat.le_succ _) hlen, fun x hx => hnormal x (List.mem_cons_of_mem _ hx), fun _ => rfl,
      toNat_pos_of_ne_zero⟩
  obtain ⟨-, h⟩ | ⟨e, rest, hq, -, h⟩ | ⟨e, rest, hq, -, -, -, h⟩ | ⟨e, rest, hq, -, hkeep, h⟩ :=
    attempt_cases accepted s <;> rw [h]
  · exact hs
  · exact ⟨hcfg, hbuf, hstore, hlink, htail hq, herr, hchunk⟩
  · exact ⟨hcfg, hbuf, hstore, hlink, htail hq, or_mask_lt herr .txFail, hchunk⟩
  · refine ⟨hcfg, hbuf, hstore, hlink, ⟨hlen, hnormal, fun hnil => ?_, fun hlim => ?_⟩, herr, hchunk⟩
    · rw [hq] at hnil
      cases hnil
    · have hlt : s.txTries.toNat + 1 < s.cfg.txRetryLimit.toNat :=
        Nat.lt_of_not_le fun hge => hkeep ⟨hlim, hge⟩
      dsimp only
      split
      · omega
      · rw [BitVec.toNat_add]
        exact Nat.lt_of_le_of_lt (Nat.mod_le _ _) hlt

/-- The staging bytes and the RX registers are no part of the invariant. -/
theorem stageWrite_keeps_blockInv (a v : Byte) {s : State} (hs : BlockInv s) : BlockInv (stageWrite a v s) := by
  obtain ⟨_, _, _, _, _, _, h⟩ := stageWrite_eq a v s
  rw [h]
  exact hs

theorem perform_keeps_blockInv {i : Input} {s t : State} (h : perform i s = .next t) (hs : BlockInv s) :
    BlockInv t := by
  cases i with
  | write a v =>
    change regWrite a v s = _ at h
    unfold regWrite at h
    split at h
    · exact execute_keeps_blockInv (s := clearStage s) h hs
    · cases h
      exact stageWrite_keeps_blockInv a v hs
  | read a => cases h; exact hs
  | attempt accepted => cases h; exact attempt_keeps_blockInv accepted hs
  | powerOnReset => cases h; exact blockInv_resetState hs.1

/-- Settles O16: a step idles or performs one input, and every input's effect keeps the invariant; under a trigger
this is `exec_keeps_blockInv`, part by part of the invariant. -/
theorem stepKeepsTheInvariant : Obligations.StepKeepsTheInvariant := by
  intro s t hs h
  change stepBlock s = _ at h
  obtain ⟨-, hb⟩ | ⟨-, -, hb⟩ | ⟨-, i, rest, -, hb⟩ := stepBlock_cases s <;> rw [hb] at h
  · cases h
  · cases h
    exact hs
  · exact perform_keeps_blockInv (s := { s with inputs := rest }) h hs

end Sys2Proof.Machine
end

