-- ==== Sys2Proof/Proofs/Memory.lean ====
section
/-! PROOFS. The memory rules (20_memory.md): what a step does for each of the host's and the collaborator's inputs, what a
write changes at each address, what each address reads, and that the transmit queue leaves in its order. -/

namespace Sys2Proof.Machine

/-! ### One input, one step -/

theorem step_of_input {s : State} {i : Input} {rest : List Input} (hw : s.cfg.WellFormed)
    (hi : s.inputs = i :: rest) : step s = perform i { s with inputs := rest } := by
  change stepBlock s = _
  obtain ⟨hn, -⟩ | ⟨-, hnil, -⟩ | ⟨-, j, tail, hj, h⟩ := stepBlock_cases s
  · exact absurd hw hn
  · rw [hi] at hnil
    cases hnil
  · rw [hi] at hj
    cases hj
    exact h

/-- 30_encoding.md R81: the word comes from the staging bytes as they were, and runs on them cleared. -/
theorem regWrite_trigger (v : Byte) (s : State) :
    regWrite 0x00#8 v s = execute (BitVec.ofNat 32 (stagedNat s v)) (clearStage s) := by
  rw [regWrite, if_pos rfl, trigger, triggeredWord, commandWord, stagedNat]

theorem regWrite_of_ne_zero {a : Byte} (ha : a ≠ 0x00#8) (v : Byte) (s : State) :
    regWrite a v s = .next (stageWrite a v s) := if_neg ha

theorem step_write_of_ne_zero {s : State} {a v : Byte} {rest : List Input} (hw : s.cfg.WellFormed)
    (hi : s.inputs = .write a v :: rest) (ha : a ≠ 0x00#8) :
    step s = .next (stageWrite a v { s with inputs := rest }) :=
  (step_of_input hw hi).trans (regWrite_of_ne_zero ha v _)

/-! ### What a write changes, address by address (20_memory.md R52) -/

theorem stageWrite_cmd1 (v : Byte) (s : State) : stageWrite 0x01#8 v s = { s with cmd1 := v } := rfl

theorem stageWrite_cmd2 (v : Byte) (s : State) : stageWrite 0x02#8 v s = { s with cmd2 := v } := rfl

theorem stageWrite_cmd3 (v : Byte) (s : State) : stageWrite 0x03#8 v s = { s with cmd3 := v } := rfl

theorem stageWrite_rxIdLow (v : Byte) (s : State) :
    stageWrite 0x24#8 v s = { s with rxId := BitVec.ofNat 11 (s.rxId.toNat / 256 * 256 + v.toNat) } := rfl

theorem stageWrite_rxIdHigh (v : Byte) (s : State) :
    stageWrite 0x25#8 v s = { s with rxId := BitVec.ofNat 11 (v.toNat % 8 * 256 + s.rxId.toNat % 256) } := rfl

theorem extractLsb'_zero_four (v : Byte) : v.extractLsb' 0 4 = BitVec.ofNat 4 (v.toNat % 16) := by
  apply BitVec.eq_of_toNat_eq
  rw [BitVec.extractLsb'_toNat, BitVec.toNat_ofNat, Nat.shiftRight_zero, Nat.mod_mod]

theorem stageWrite_rxDlc (v : Byte) (s : State) :
    stageWrite 0x26#8 v s = { s with rxDlc := BitVec.ofNat 4 (v.toNat % 16) } := by
  rw [← extractLsb'_zero_four]
  rfl

/-- An address that none of the single registers has: the data registers 0x28-0x2F, or nothing. -/
theorem stageWrite_of_ne {a : Byte} (v : Byte) (s : State)
    (ha : ∀ b ∈ [0x01#8, 0x02#8, 0x03#8, 0x24#8, 0x25#8, 0x26#8], a ≠ b) :
    stageWrite a v s =
      if 0x28 ≤ a.toNat ∧ a.toNat ≤ 0x2F then { s with rxData := put s.rxData (a.toNat - 0x28) v } else s := by
  simp only [List.forall_mem_cons, List.not_mem_nil, false_imp_iff, implies_true, and_true] at ha
  obtain ⟨h1, h2, h3, h24, h25, h26⟩ := ha
  rw [stageWrite, if_neg h1, if_neg h2, if_neg h3, if_neg h24, if_neg h25, if_neg h26]

theorem put_eq_set (d : Data8) (i : Fin 8) (b : Byte) : put d i.val b = d.set i.val b := by
  apply Vector.ext
  intro j hj
  rw [put, Vector.getElem_setIfInBounds, Vector.getElem_set]

theorem stageWrite_rxData {a : Byte} {i : Fin 8} (ha : a.toNat = 0x28 + i.val) (v : Byte) (s : State) :
    stageWrite a v s = { s with rxData := s.rxData.set i.val v } := by
  have hsingle : ∀ b ∈ [0x01#8, 0x02#8, 0x03#8, 0x24#8, 0x25#8, 0x26#8], b.toNat < 0x28 := by simp
  have hne : ∀ b ∈ [0x01#8, 0x02#8, 0x03#8, 0x24#8, 0x25#8, 0x26#8], a ≠ b := by
    rintro _ hb rfl
    have := hsingle _ hb
    omega
  rw [stageWrite_of_ne v s hne, if_pos (by omega), ha, Nat.add_sub_cancel_left, put_eq_set]

/-- Settles O8: the trigger by R81, every other address by its own rule of `stageWrite`; neither looks at `txq`. -/
theorem registerWrites : Obligations.RegisterWrites := by
  intro s a v rest hw hi
  have hstage := step_write_of_ne_zero hw hi
  refine ⟨?_, ?_, ?_, ?_, ?_, ?_, ?_, ?_, ?_⟩
  · rintro rfl
    exact (step_of_input hw hi).trans (regWrite_trigger v _)
  · rintro rfl
    rw [hstage (by decide), stageWrite_cmd1]
  · rintro rfl
    rw [hstage (by decide), stageWrite_cmd2]
  · rintro rfl
    rw [hstage (by decide), stageWrite_cmd3]
  · rintro rfl
    rw [hstage (by decide), stageWrite_rxIdLow]
  · rintro rfl
    rw [hstage (by decide), stageWrite_rxIdHigh]
  · rintro rfl
    rw [hstage (by decide), stageWrite_rxDlc]
  · intro i ha
    have hne : a ≠ 0x00#8 := by
      rintro rfl
      rw [BitVec.toNat_ofNat] at ha
      omega
    rw [hstage hne, stageWrite_rxData ha]
  · intro h0 h1 h2 h3 h24 h25 h26 hout
    rw [hstage h0, stageWrite_of_ne v _ (by simp [h1, h2, h3, h24, h25, h26]), if_neg (by omega)]

/-! ### What a read answers (20_memory.md R51, R53) -/

/-- The map has no row for a reserved or write-only address, so the last arm of `regRead` answers. -/
theorem regRead_reserved (s : State) {a : Byte}
    (ha : a.toNat ≤ 0x03 ∨ a.toNat = 0x1B ∨ a.toNat = 0x23 ∨ a.toNat = 0x27 ∨ (0x32 ≤ a.toNat ∧ a.toNat ≤ 0x37) ∨
      0x40 ≤ a.toNat) : regRead s a = 0#8 := by
  unfold regRead
  split
  any_goals omega
  rfl

/-- Settles O9: a read step emits the byte read, and none of the map's rows is a reserved or write-only address. -/
theorem registerReadsHaveNoSideEffect : Obligations.RegisterReadsHaveNoSideEffect := by
  refine ⟨fun s a rest hw hi => step_of_input hw hi, fun s a ha => regRead_reserved s ?_⟩
  simpa [← BitVec.toNat_inj] using ha

/-! ### The bytes of a field -/

theorem lo16_toNat (v : U16) : (lo16 v).toNat = v.toNat % 256 := by
  rw [lo16, BitVec.extractLsb'_toNat, Nat.shiftRight_zero]

theorem hi16_toNat (v : U16) : (hi16 v).toNat = v.toNat / 256 := by
  have hv := v.isLt
  rw [hi16, BitVec.extractLsb'_toNat, Nat.shiftRight_eq_div_pow]
  omega

/-- 20_memory.md R55: a 16-bit field as a little-endian pair. -/
theorem lo16_add_hi16 (v : U16) : (lo16 v).toNat + (hi16 v).toNat * 256 = v.toNat := by
  rw [lo16_toNat, hi16_toNat, Nat.mul_comm]
  exact Nat.mod_add_div _ _

theorem hi16_and_seven_toNat (v : U16) : (hi16 v &&& 0x07#8).toNat = v.toNat / 256 % 8 := by
  rw [BitVec.toNat_and, hi16_toNat]
  exact Nat.and_two_pow_sub_one_eq_mod _ 3

/-- The pair of an 11-bit field that is kept in 16 bits: the five bits above it read 0. -/
theorem lo16_add_hi16_and_seven (v : U16) :
    (lo16 v).toNat + (hi16 v &&& 0x07#8).toNat * 256 = v.toNat % 2048 := by
  rw [lo16_toNat, hi16_and_seven_toNat]
  omega

/-- The pair of an identifier. -/
theorem ident_pair_toNat (x : Ident) :
    (x.extractLsb' 0 8).toNat + ((x.extractLsb' 8 3).setWidth 8).toNat * 256 = x.toNat := by
  have hx := x.isLt
  rw [BitVec.toNat_setWidth, BitVec.extractLsb'_toNat, BitVec.extractLsb'_toNat, Nat.shiftRight_zero,
    Nat.shiftRight_eq_div_pow]
  omega

theorem nibble_setWidth_toNat (n : Nibble) : (n.setWidth 8).toNat = n.toNat :=
  BitVec.toNat_setWidth_of_le (by decide)

/-- Three flags in the bits 0 to 2 of a byte. -/
theorem bitIf_or_toNat (a b c : Bool) :
    (bitIf a 0 ||| bitIf b 1 ||| bitIf c 2).toNat =
      (if a = true then 1 else 0) + (if b = true then 2 else 0) + (if c = true then 4 else 0) := by
  revert a b c
  decide

theorem bitIf_zero_toNat (b : Bool) : (bitIf b 0).toNat = if b = true then 1 else 0 := by
  cases b <;> rfl

theorem txPending_iff (s : State) : txPending s = true ↔ s.txq ≠ [] := by simp [txPending]

theorem statusByte_toNat (s : State) :
    (statusByte s).toNat = (if s.txq = [] then 0 else 1) + (if s.store.nightMode = true then 2 else 0)
      + (if s.store.isMetric = true then 4 else 0) := by
  rw [statusByte, bitIf_or_toNat]
  simp only [txPending_iff, ite_not]

theorem linkstatByte_toNat (s : State) : (linkstatByte s).toNat = s.lstate.code.toNat + s.seq.toNat * 16 := by
  rw [linkstatByte, BitVec.toNat_ofNat]
  omega

/-- TXCOUNT holds the queue's length, which 10_state.md R33 keeps within its three bits. -/
theorem txCount_toNat {n : Nat} (hn : n ≤ 7) : (BitVec.ofNat 8 (n % 8)).toNat = n := by
  rw [BitVec.toNat_ofNat]
  omega

theorem regRead_rxData (s : State) (i : Fin 8) : regRead s (BitVec.ofNat 8 (0x28 + i.val)) = s.rxData[i] := by
  match i with
  | 0 | 1 | 2 | 3 | 4 | 5 | 6 | 7 => rfl

theorem regRead_chunkData (s : State) (i : Fin 8) : regRead s (BitVec.ofNat 8 (0x38 + i.val)) = s.chunkData[i] := by
  match i with
  | 0 | 1 | 2 | 3 | 4 | 5 | 6 | 7 => rfl

/-- Settles O10: each address is a row of `regRead`; what is left is the number that the row's bytes stand for. -/
theorem registerMapContents : Obligations.RegisterMapContents := by
  intro s hq
  exact ⟨statusByte_toNat s, linkstatByte_toNat s, lo16_add_hi16 s.err, rfl, rfl, rfl, rfl,
    lo16_add_hi16 s.store.speed, lo16_add_hi16 s.store.rpm, lo16_add_hi16_and_seven s.store.wheelPulse,
    lo16_add_hi16_and_seven s.store.wheelDelta, rfl, rfl, rfl, hi16_toNat s.store.dimAvg,
    lo16_add_hi16 s.store.dimAvg, rfl, lo16_add_hi16 s.bufLen, lo16_add_hi16 s.cursor, lo16_add_hi16 s.waitCnt,
    txCount_toNat hq, ident_pair_toNat s.rxId, nibble_setWidth_toNat s.rxDlc, regRead_rxData s,
    nibble_setWidth_toNat s.chunkLen, bitIf_zero_toNat s.chunkLast, regRead_chunkData s⟩

/-! ### Accepting attempts drain the queue (20_memory.md R63) -/

theorem attempt_accepted {s : State} {e : TxEntry} {q : List TxEntry} (hq : s.txq = e :: q) :
    attempt true s = { s with txq := q, txTries := 0#16, outputs := s.outputs ++ [Output.sent e] } := by
  simp [attempt, hq, emit]

theorem step_attempt_accepted {s : State} {rest : List Input} {e : TxEntry} {q : List TxEntry}
    (hw : s.cfg.WellFormed) (hi : s.inputs = .attempt true :: rest) (hq : s.txq = e :: q) :
    step s = .next { s with inputs := rest, txq := q, txTries := 0#16, outputs := s.outputs ++ [Output.sent e] } :=
  (step_of_input hw hi).trans (congrArg _ (attempt_accepted (s := { s with inputs := rest }) hq))

theorem run_succ_of_step {M : Host.Core} {s t : M.State} (h : M.step s = .next t) (n : Nat) :
    M.run (n + 1) s = M.run n t := by
  rw [Host.Core.run, h]

/-- `s` while the entries `q` are still to leave: one accepting attempt for each is next, none has been tried, and
`out` has been observed. -/
def drainState (s : State) (rest : List Input) (q : List TxEntry) (out : List Output) : State :=
  { s with
    inputs := List.replicate q.length (Input.attempt true) ++ rest
    txq := q
    txTries := 0#16
    outputs := out }

@[simp] theorem drainState_cfg (s : State) (rest : List Input) (q : List TxEntry) (out : List Output) :
    (drainState s rest q out).cfg = s.cfg := rfl

theorem step_drainState_cons {s : State} (hw : s.cfg.WellFormed) (rest : List Input) (e : TxEntry)
    (q : List TxEntry) (out : List Output) :
    step (drainState s rest (e :: q) out) = .next (drainState s rest q (out ++ [Output.sent e])) := by
  rw [← drainState_cfg s rest (e :: q) out] at hw
  exact step_attempt_accepted hw rfl rfl

/-- As many accepting attempts as there are entries send them all, in order. -/
theorem run_drainState {s : State} (hw : s.cfg.WellFormed) (rest : List Input) (q : List TxEntry)
    (out : List Output) :
    Sys2Proof.core.run q.length (drainState s rest q out) =
      .next (drainState s rest [] (out ++ q.map Output.sent)) := by
  induction q generalizing out with
  | nil =>
    rw [List.map_nil, List.append_nil]
    rfl
  | cons e q ih =>
    rw [List.map_cons, List.append_cons]
    exact (run_succ_of_step (M := Sys2Proof.core) (step_drainState_cons hw rest e q out) q.length).trans
      (ih (out ++ [Output.sent e]))

/-- Settles O24: the first Sent event clears the count, and what follows is the drain of the queue's tail. -/
theorem acceptedFramesLeaveInOrder : Obligations.AcceptedFramesLeaveInOrder := by
  intro s rest hw hne hi
  obtain ⟨e, q, hq⟩ := List.exists_cons_of_ne_nil hne
  rw [hq] at hi
  have hfirst : step s = .next (drainState s rest q (s.outputs ++ [Output.sent e])) := step_attempt_accepted hw hi hq
  rw [hq, List.map_cons, List.append_cons]
  exact (run_succ_of_step (M := Sys2Proof.core) hfirst q.length).trans (run_drainState hw rest q _)

end Sys2Proof.Machine
end

