-- ==== Sys2Proof/Proofs/Encoding.lean ====
section
/-! PROOFS. The encoding rules (30_encoding.md): the opcode map as a list of rows of which at most one matches, decoding
against encoding, what a trigger write does, and what the host's lines run. -/

namespace Sys2Proof

open Machine (opcodeRows IllegalNat)
open Laws.EncodeMatchesRow (row)

/-! ### The opcode map as a list of rows -/

/-- The rows of 30_encoding.md R85 in the decoder's order, each with what it makes of a word that it matches. -/
def decodeRows : List ((Word × Word) × (Word → Instr)) :=
  [((0x00000000#32, 0xFFFFFFFF#32), fun _ => .nop),
    ((0x00000001#32, 0xFFFFFFFF#32), fun _ => .mframe),
    ((0x00000002#32, 0xFFFFFFFF#32), fun _ => .sframe),
    ((0x00000003#32, 0xFFFFFFFF#32), fun _ => .tick),
    ((0x00000004#32, 0x0000FFFF#32), fun w => .dim (wordArg w)),
    ((0x00000005#32, 0xF800FFFF#32), fun w => .enc ((wordArg w).extractLsb' 0 11)),
    ((0x00000006#32, 0xFFFFFCFF#32), fun w => .lstep (wordReq w) (wordFrame w)),
    ((0x00000007#32, 0xFFFFFFFF#32), fun _ => .lreset),
    ((0x00000008#32, 0xFFFFFFFF#32), fun _ => .bclr),
    ((0x00000009#32, 0xFF00FFFF#32), fun w => .bapp ((wordArg w).extractLsb' 0 8)),
    ((0x0000000A#32, 0xFFFFFFFF#32), fun _ => .chunk),
    ((0x0000000B#32, 0x0000FFFF#32), fun w => .eclr (wordArg w)),
    ((0x0000000C#32, 0xFFFFFFFF#32), fun _ => .sreset)]

theorem decodeRows_map_fst : decodeRows.map Prod.fst = opcodeRows := rfl

/-- The first row that matches decides. -/
def decodeFrom (w : Word) : List ((Word × Word) × (Word → Instr)) → Except DecodeError Instr
  | [] => .error (rejectReason w)
  | r :: rows => if rowMatches w r.1.1 r.1.2 then .ok (r.2 w) else decodeFrom w rows

theorem decode_eq_decodeFrom (w : Word) : decode w = decodeFrom w decodeRows := rfl

theorem decodeFrom_ok {w : Word} {i : Instr} {rows : List ((Word × Word) × (Word → Instr))}
    (h : decodeFrom w rows = .ok i) : ∃ r ∈ rows, rowMatches w r.1.1 r.1.2 = true ∧ r.2 w = i := by
  induction rows with
  | nil => cases h
  | cons r rows ih =>
    rw [decodeFrom] at h
    split at h
    · next hr => exact ⟨r, List.mem_cons_self, hr, Except.ok.inj h⟩
    · obtain ⟨r', hmem, hr'⟩ := ih h
      exact ⟨r', List.mem_cons_of_mem r hmem, hr'⟩

theorem decodeFrom_error_iff (w : Word) (rows : List ((Word × Word) × (Word → Instr))) :
    (∃ e, decodeFrom w rows = .error e) ↔ ∀ r ∈ rows, ¬rowMatches w r.1.1 r.1.2 = true := by
  induction rows with
  | nil => simp [decodeFrom]
  | cons r rows ih =>
    rw [decodeFrom, List.forall_mem_cons]
    split
    · next hr => simp [hr]
    · next hr => exact ih.trans (and_iff_right hr).symm

theorem decode_ok {w : Word} {i : Instr} (h : decode w = .ok i) :
    ∃ r ∈ decodeRows, rowMatches w r.1.1 r.1.2 = true ∧ r.2 w = i :=
  decodeFrom_ok ((decode_eq_decodeFrom w).symm.trans h)

theorem decode_error_iff (w : Word) :
    (∃ e, decode w = .error e) ↔ ∀ r ∈ opcodeRows, ¬rowMatches w r.1 r.2 = true := by
  rw [decode_eq_decodeFrom, decodeFrom_error_iff, ← decodeRows_map_fst, List.forall_mem_map]

/-! ### Every row fixes the opcode, so at most one matches (30_encoding.md R82) -/

theorem wordOpc_and (w m : Word) : wordOpc (w &&& m) = wordOpc w &&& wordOpc m := by
  simp only [wordOpc, BitVec.extractLsb'_and]

theorem wordOpc_mask {r : Word × Word} (hr : r ∈ opcodeRows) : wordOpc r.2 = 0xFF#8 := by
  have hall : opcodeRows.map (fun r => wordOpc r.2) = List.replicate 13 0xFF#8 := rfl
  exact List.eq_of_mem_replicate (hall ▸ List.mem_map_of_mem hr)

theorem opcodeRows_opc_nodup : (opcodeRows.map fun r => wordOpc r.1).Nodup := by decide

/-- A word that a row matches has the row's opcode. -/
theorem wordOpc_of_rowMatches {w : Word} {r : Word × Word} (hr : r ∈ opcodeRows)
    (h : rowMatches w r.1 r.2 = true) : wordOpc r.1 = wordOpc w := by
  rw [← eq_of_beq h, wordOpc_and, wordOpc_mask hr]
  exact BitVec.and_allOnes

/-- Rows with distinct opcodes are told apart by them. -/
theorem eq_of_opc_eq {rows : List ((Word × Word) × (Word → Instr))}
    (hnodup : (rows.map fun r => wordOpc r.1.1).Nodup) {r r' : (Word × Word) × (Word → Instr)} (hr : r ∈ rows)
    (hr' : r' ∈ rows) (h : wordOpc r.1.1 = wordOpc r'.1.1) : r = r' := by
  induction rows with
  | nil => cases hr
  | cons q rows ih =>
    obtain ⟨hq, htail⟩ := List.nodup_cons.mp hnodup
    obtain rfl | htr := List.mem_cons.mp hr
    · obtain rfl | htr' := List.mem_cons.mp hr'
      · rfl
      · exact absurd (List.mem_map.mpr ⟨r', htr', h.symm⟩) hq
    · obtain rfl | htr' := List.mem_cons.mp hr'
      · exact absurd (List.mem_map.mpr ⟨r, htr, h⟩) hq
      · exact ih htail htr htr'

theorem decodeRows_eq_of_rowMatches {w : Word} {r r' : (Word × Word) × (Word → Instr)} (hr : r ∈ decodeRows)
    (hr' : r' ∈ decodeRows) (h : rowMatches w r.1.1 r.1.2 = true) (h' : rowMatches w r'.1.1 r'.1.2 = true) :
    r = r' := by
  have hnodup : (decodeRows.map fun r => wordOpc r.1.1).Nodup := opcodeRows_opc_nodup
  have hopc := wordOpc_of_rowMatches (List.mem_map_of_mem hr) h
  have hopc' := wordOpc_of_rowMatches (List.mem_map_of_mem hr') h'
  exact eq_of_opc_eq hnodup hr hr' (hopc.trans hopc'.symm)

/-- The row that matches is the one that decodes, wherever it stands in the map. -/
theorem decode_of_rowMatches {w : Word} {r : (Word × Word) × (Word → Instr)} (hr : r ∈ decodeRows)
    (h : rowMatches w r.1.1 r.1.2 = true) : decode w = .ok (r.2 w) := by
  cases hd : decode w with
  | error e => exact absurd h ((decode_error_iff w).mp ⟨e, hd⟩ r.1 (List.mem_map_of_mem hr))
  | ok i =>
    obtain ⟨r', hr', h', rfl⟩ := decode_ok hd
    rw [decodeRows_eq_of_rowMatches hr hr' h h']

/-- A list of rows with distinct opcodes, all of one opcode, has at most one element. -/
theorem length_le_one_of_opc_eq {rows : List (Word × Word)} (hnodup : (rows.map fun r => wordOpc r.1).Nodup)
    {o : Byte} (ho : ∀ r ∈ rows, wordOpc r.1 = o) : rows.length ≤ 1 := by
  rw [List.eq_replicate_of_mem (a := o) (List.forall_mem_map.mpr ho), List.nodup_replicate, List.length_map] at hnodup
  exact hnodup

/-- Settles O3: the rows that match all have the word's opcode, and no two rows have the same; the decoder falls
through exactly when no row matches. -/
theorem atMostOneRowMatches : Obligations.AtMostOneRowMatches := by
  intro w
  constructor
  · refine length_le_one_of_opc_eq (o := wordOpc w) (opcodeRows_opc_nodup.sublist (List.filter_sublist.map _)) ?_
    intro r hr
    obtain ⟨hmem, hmatch⟩ := List.mem_filter.mp hr
    exact wordOpc_of_rowMatches hmem hmatch
  · simpa only [rowMatches, beq_iff_eq] using decode_error_iff w

/-! ### Decoding an encoded command (30_encoding.md R80, R85) -/

/-- The word of every command is matched by its own row: the family of Laws/PerInstr.lean, put together. -/
theorem encode_matches_row (i : Instr) : rowMatches (encode i) (row i).1 (row i).2 = true := by
  cases i with
  | nop => exact Laws.EncodeMatchesRow.nop.1
  | mframe => exact Laws.EncodeMatchesRow.mframe.1
  | sframe => exact Laws.EncodeMatchesRow.sframe.1
  | tick => exact Laws.EncodeMatchesRow.tick.1
  | dim v => exact (Laws.EncodeMatchesRow.dim v).1
  | enc id => exact (Laws.EncodeMatchesRow.enc id).1
  | lstep req frame => exact (Laws.EncodeMatchesRow.lstep req frame).1
  | lreset => exact Laws.EncodeMatchesRow.lreset.1
  | bclr => exact Laws.EncodeMatchesRow.bclr.1
  | bapp b => exact (Laws.EncodeMatchesRow.bapp b).1
  | chunk => exact Laws.EncodeMatchesRow.chunk.1
  | eclr m => exact (Laws.EncodeMatchesRow.eclr m).1
  | sreset => exact Laws.EncodeMatchesRow.sreset.1

/-- What the command's row makes of a word that it matches. -/
def readOperands : Instr → Word → Instr
  | .dim _, w => .dim (wordArg w)
  | .enc _, w => .enc ((wordArg w).extractLsb' 0 11)
  | .lstep _ _, w => .lstep (wordReq w) (wordFrame w)
  | .bapp _, w => .bapp ((wordArg w).extractLsb' 0 8)
  | .eclr _, w => .eclr (wordArg w)
  | i, _ => i

theorem row_mem_decodeRows (i : Instr) : (row i, readOperands i) ∈ decodeRows := by
  cases i <;> simp [decodeRows, row, readOperands, funext_iff]

/-- An operand narrower than ARG comes back from ARG's low bits. -/
theorem readOperands_encode (i : Instr) : readOperands i (encode i) = i := by
  cases i with
  | dim v => exact congrArg Instr.dim (wordArg_packWord ..)
  | enc id => rw [readOperands, encode, wordArg_packWord, BitVec.extractLsb'_setWidth_of_le (by decide),
      BitVec.extractLsb'_eq_self]
  | lstep req frame => rw [readOperands, encode, wordReq_packWord, wordFrame_packWord]
  | bapp b => rw [readOperands, encode, wordArg_packWord, BitVec.extractLsb'_setWidth_of_le (by decide),
      BitVec.extractLsb'_eq_self]
  | eclr m => exact congrArg Instr.eclr (wordArg_packWord ..)
  | nop | mframe | sframe | tick | lreset | bclr | chunk | sreset => rfl

theorem decode_encode (i : Instr) : decode (encode i) = .ok i :=
  (decode_of_rowMatches (row_mem_decodeRows i) (encode_matches_row i)).trans (congrArg Except.ok (readOperands_encode i))

/-- Settles O1: the command's own row matches its word, and reads the operands back from it. -/
theorem decodeOfEncodeIsIdentity : Obligations.DecodeOfEncodeIsIdentity := fun i _ => decode_encode i

/-! ### Encoding a decoded word (30_encoding.md R80, R83, R85) -/

/-- A word without reserved and flag bits is made of ARG and the opcode. -/
theorem packWord_of_low16 {w : Word} {a : U16} {o : Byte} (ha : a.toNat = w.toNat / 2 ^ 16)
    (ho : w.toNat % 2 ^ 16 = o.toNat) : packWord a false false o = w := by
  apply BitVec.eq_of_toNat_eq
  rw [packWord_toNat, ha, ← ho, Bool.toNat_false]
  omega

/-- An ARG below `2 ^ n` is its low `n` bits. -/
theorem packWord_of_operand {w : Word} {o : Byte} {n : Nat} (hn : n ≤ 16) (harg : w.toNat / 2 ^ 16 < 2 ^ n)
    (ho : w.toNat % 2 ^ 16 = o.toNat) :
    packWord (((wordArg w).extractLsb' 0 n).setWidth 16) false false o = w := by
  refine packWord_of_low16 ?_ ho
  rw [BitVec.toNat_setWidth_of_le hn, BitVec.extractLsb'_toNat, Nat.shiftRight_zero, wordArg_toNat,
    Nat.mod_eq_of_lt harg]

theorem eq_of_rowMatches_all {w v : Word} (h : rowMatches w v 0xFFFFFFFF#32 = true) : v = w :=
  BitVec.eq_of_toNat_eq ((rowMatches_all w v).mp h).symm

theorem encode_dim_of_rowMatches {w : Word} (h : rowMatches w 0x00000004#32 0x0000FFFF#32 = true) :
    encode (.dim (wordArg w)) = w :=
  packWord_of_low16 (wordArg_toNat w) ((rowMatches_arg16 w 0x00000004#32).mp h)

theorem encode_eclr_of_rowMatches {w : Word} (h : rowMatches w 0x0000000B#32 0x0000FFFF#32 = true) :
    encode (.eclr (wordArg w)) = w :=
  packWord_of_low16 (wordArg_toNat w) ((rowMatches_arg16 w 0x0000000B#32).mp h)

theorem encode_enc_of_rowMatches {w : Word} (h : rowMatches w 0x00000005#32 0xF800FFFF#32 = true) :
    encode (.enc ((wordArg w).extractLsb' 0 11)) = w := by
  have hbits := (rowMatches_enc w _).mp h
  rw [BitVec.toNat_ofNat] at hbits
  exact packWord_of_operand (by decide) (by omega) (by rw [BitVec.toNat_ofNat]; omega)

theorem encode_bapp_of_rowMatches {w : Word} (h : rowMatches w 0x00000009#32 0xFF00FFFF#32 = true) :
    encode (.bapp ((wordArg w).extractLsb' 0 8)) = w := by
  have hbits := (rowMatches_bapp w _).mp h
  rw [BitVec.toNat_ofNat] at hbits
  exact packWord_of_operand (by decide) (by omega) (by rw [BitVec.toNat_ofNat]; omega)

theorem encode_lstep_of_rowMatches {w : Word} (h : rowMatches w 0x00000006#32 0xFFFFFCFF#32 = true) :
    encode (.lstep (wordReq w) (wordFrame w)) = w := by
  obtain ⟨hhigh, hlow⟩ : w.toNat < 2 ^ 10 ∧ w.toNat % 2 ^ 8 = 6 := by
    have hbits := (rowMatches_lstep w _).mp h
    rw [BitVec.toNat_ofNat] at hbits
    omega
  apply BitVec.eq_of_toNat_eq
  rw [encode, packWord_toNat, wordFrame_toNat, wordReq_toNat, BitVec.toNat_ofNat, BitVec.toNat_ofNat]
  omega

/-- The bits that a row's mask leaves free are its operands, and the others are those of its match. -/
theorem encode_of_rowMatches {w : Word} {r : (Word × Word) × (Word → Instr)} (hr : r ∈ decodeRows)
    (h : rowMatches w r.1.1 r.1.2 = true) : encode (r.2 w) = w := by
  simp only [decodeRows, List.mem_cons, List.not_mem_nil, or_false] at hr
  obtain rfl | rfl | rfl | rfl | rfl | rfl | rfl | rfl | rfl | rfl | rfl | rfl | rfl := hr
  · exact eq_of_rowMatches_all h
  · exact eq_of_rowMatches_all h
  · exact eq_of_rowMatches_all h
  · exact eq_of_rowMatches_all h
  · exact encode_dim_of_rowMatches h
  · exact encode_enc_of_rowMatches h
  · exact encode_lstep_of_rowMatches h
  · exact eq_of_rowMatches_all h
  · exact eq_of_rowMatches_all h
  · exact encode_bapp_of_rowMatches h
  · exact eq_of_rowMatches_all h
  · exact encode_eclr_of_rowMatches h
  · exact eq_of_rowMatches_all h

theorem encode_of_decode {w : Word} {i : Instr} (h : decode w = .ok i) : encode i = w := by
  obtain ⟨r, hr, hmatch, rfl⟩ := decode_ok h
  exact encode_of_rowMatches hr hmatch

/-- Settles O2: the row that decoded the word gives back each of its bits. -/
theorem encodeOfDecodeIsTheWord : Obligations.EncodeOfDecodeIsTheWord := fun _ _ h => encode_of_decode h

/-- Settles O4: each word is the encoding of its command, so O1's round trip decodes it. -/
theorem sampleWordsDecode : Obligations.SampleWordsDecode :=
  ⟨decode_encode .mframe, decode_encode (.enc 0x210#11), decode_encode (.dim 0xFFFF#16), decode_encode .tick,
    decode_encode (.lstep true false), decode_encode (.lstep false true), decode_encode (.bapp 0x99#8),
    decode_encode (.eclr 0x0202#16)⟩

/-! ### Which words are illegal (30_encoding.md R83) -/

/-- A word without a cause of R83 has an opcode of the map, and only the bits that the opcode's row leaves free. -/
theorem exists_rowMatches_of_not_illegal {w : Word} (h : ¬IllegalNat w.toNat) :
    ∃ r ∈ opcodeRows, rowMatches w r.1 r.2 = true := by
  simp only [opcodeRows, List.mem_cons, List.not_mem_nil, or_false, or_and_right, exists_or, exists_eq_left,
    rowMatches_all, rowMatches_arg16, rowMatches_enc, rowMatches_lstep, rowMatches_bapp, BitVec.toNat_ofNat]
  simp only [IllegalNat, not_or] at h
  obtain ⟨hopc, hreserved, hflags, harg, hargEnc, hargBapp⟩ := h
  have hlow : w.toNat % 2 ^ 16 = w.toNat / 2 ^ 8 % 4 * 2 ^ 8 + w.toNat % 256 := by omega
  omega

theorem not_illegal_of_rowMatches {w : Word} {r : Word × Word} (hr : r ∈ opcodeRows)
    (h : rowMatches w r.1 r.2 = true) : ¬IllegalNat w.toNat := by
  simp only [opcodeRows, List.mem_cons, List.not_mem_nil, or_false] at hr
  simp only [IllegalNat]
  obtain rfl | rfl | rfl | rfl | rfl | rfl | rfl | rfl | rfl | rfl | rfl | rfl | rfl := hr
  all_goals
    simp only [rowMatches_all, rowMatches_arg16, rowMatches_enc, rowMatches_lstep, rowMatches_bapp,
      BitVec.toNat_ofNat] at h
    omega

/-- The decoder rejects exactly the words that have one of R83's causes. -/
theorem decode_error_iff_illegal (w : Word) : (∃ e, decode w = .error e) ↔ IllegalNat w.toNat := by
  rw [decode_error_iff]
  constructor
  · intro hnone
    refine Classical.byContradiction fun hlegal => ?_
    obtain ⟨r, hr, hmatch⟩ := exists_rowMatches_of_not_illegal hlegal
    exact hnone r hr hmatch
  · exact fun hillegal r hr hmatch => not_illegal_of_rowMatches hr hmatch hillegal

theorem decode_ok_of_not_illegal {w : Word} (h : ¬IllegalNat w.toNat) : ∃ i, decode w = .ok i := by
  cases hd : decode w with
  | ok i => exact ⟨i, rfl⟩
  | error e => exact absurd ((decode_error_iff_illegal w).mp ⟨e, hd⟩) h

namespace Machine

/-! ### What a trigger write does (30_encoding.md R81-R84) -/

theorem stagedNat_lt (s : State) (v : Byte) : stagedNat s v < 2 ^ 32 := by
  have h3 := s.cmd3.isLt
  have h2 := s.cmd2.isLt
  have h1 := s.cmd1.isLt
  have h0 := v.isLt
  unfold stagedNat
  omega

theorem stagedWord_toNat (s : State) (v : Byte) : (BitVec.ofNat 32 (stagedNat s v)).toNat = stagedNat s v := by
  rw [BitVec.toNat_ofNat, Nat.mod_eq_of_lt (stagedNat_lt s v)]

theorem stagedWord_eq_sresetWord_iff (s : State) (v : Byte) :
    BitVec.ofNat 32 (stagedNat s v) = sresetWord ↔ stagedNat s v = 0x0000000C := by
  rw [← BitVec.toNat_inj, stagedWord_toNat]
  rfl

theorem step_trigger {s : State} {v : Byte} {rest : List Input} (hw : s.cfg.WellFormed)
    (hi : s.inputs = .write 0x00#8 v :: rest) :
    step s = execute (BitVec.ofNat 32 (stagedNat s v)) (clearStage { s with inputs := rest }) :=
  (step_of_input hw hi).trans (regWrite_trigger v _)

theorem encode_sreset : encode .sreset = sresetWord := by decide

theorem execute_busy {w : Word} {s : State} (hq : s.txq ≠ []) (hw : w ≠ sresetWord) :
    execute w s = .next (raise .busy s) := by
  obtain ⟨-, h⟩ | ⟨hfree, -⟩ | ⟨hfree, -⟩ := execute_cases w s
  · exact h
  · exact absurd ⟨hq, hw⟩ hfree
  · exact absurd ⟨hq, hw⟩ hfree

theorem execute_badCmd {w : Word} {s : State} (hq : s.txq = []) (hw : IllegalNat w.toNat) :
    execute w s = .next (raise .badCmd s) := by
  obtain ⟨e, he⟩ := (decode_error_iff_illegal w).mpr hw
  obtain ⟨⟨hpending, -⟩, -⟩ | ⟨-, -, h⟩ | ⟨-, i, hi, -⟩ := execute_cases w s
  · exact absurd hq hpending
  · exact h
  · cases he.symm.trans hi

/-- Of the commands only SRESET has the word that a non-empty `txq` lets through. -/
theorem execute_decoded {w : Word} {s : State} {i : Instr} (hd : decode w = .ok i) (hfree : s.txq = [] ∨ i = .sreset) :
    execute w s = exec i s := by
  obtain ⟨⟨hpending, hw⟩, -⟩ | ⟨-, ⟨e, he⟩, -⟩ | ⟨-, j, hj, h⟩ := execute_cases w s
  · obtain hq | rfl := hfree
    · exact absurd hq hpending
    · exact absurd ((encode_of_decode hd).symm.trans encode_sreset) hw
  · cases hd.symm.trans he
  · cases hd.symm.trans hj
    exact h

/-- Settles O5: the trigger executes the formed word, and that it decodes leaves only `exec`. -/
theorem stepRunsTheDecodedCommand : Obligations.StepRunsTheDecodedCommand := by
  intro s v rest i hw hi hd hfree
  exact (step_trigger hw hi).trans (execute_decoded hd hfree)

/-- Settles O6: the two cases of R84 on the formed word; SRESET's reset empties the queue. -/
theorem pendingFramesHoldUpEveryCommandButSreset : Obligations.PendingFramesHoldUpEveryCommandButSreset := by
  intro s v rest hw hi hq
  rw [step_trigger hw hi]
  constructor
  · intro hne
    exact execute_busy hq (mt (stagedWord_eq_sresetWord_iff s v).mp hne)
  · intro heq
    rw [(stagedWord_eq_sresetWord_iff s v).mpr heq, ← encode_sreset]
    exact ⟨_, rfl, execute_decoded (decode_encode .sreset) (.inr rfl), rfl⟩

/-- Settles O7: the decoder rejects a word exactly when one of the causes holds of it as a number. -/
theorem illegalWordsRaiseBadCmd : Obligations.IllegalWordsRaiseBadCmd := by
  refine ⟨?_, fun _ => decode_ok_of_not_illegal, decode_encode .nop⟩
  intro s v rest hw hi hq hillegal
  rw [← stagedWord_toNat s v] at hillegal
  exact (step_trigger hw hi).trans (execute_badCmd hq hillegal)

/-! ### Malformed inbound frames (30_encoding.md R87) -/

theorem rxFrame_malformed {s : State} (h : 8 < s.rxDlc.toNat) : (rxFrame s).malformed = true := decide_eq_true h

/-- Settles O30: each of the three commands tests the length before anything else. -/
theorem malformedFramesRaiseBadFrame : Obligations.MalformedFramesRaiseBadFrame := by
  intro s i hlen hi
  have hbad := rxFrame_malformed hlen
  obtain rfl | rfl | ⟨req, rfl⟩ := hi
  · exact if_pos hbad
  · exact if_pos hbad
  · exact if_pos hbad

/-! ### Runs over several inputs -/

theorem run_one {M : Host.Core} (s : M.State) : M.run 1 s = M.step s := by
  rw [Host.Core.run]
  cases M.step s <;> rfl

theorem run_add_of_run {M : Host.Core} {s t : M.State} {m : Nat} (h : M.run m s = .next t) (n : Nat) :
    M.run (m + n) s = M.run n t := by
  induction m generalizing s with
  | zero =>
    cases h
    rw [Nat.zero_add]
  | succ m ih =>
    rw [Nat.succ_add_eq_add_succ, Nat.add_succ]
    cases hstep : M.step s with
    | next s' =>
      rw [run_succ_of_step hstep] at h ⊢
      exact ih h
    | fault r =>
      rw [Host.Core.run, hstep] at h
      cases h
    | refused r =>
      rw [Host.Core.run, hstep] at h
      cases h

theorem stageWrite_withInputs (a v : Byte) (s : State) (l : List Input) :
    stageWrite a v { s with inputs := l } = { stageWrite a v s with inputs := l } := by
  unfold stageWrite
  repeat' split
  all_goals rfl

theorem run_succ_of_write {s : State} {a v : Byte} (ha : a ≠ 0x00#8) (hw : s.cfg.WellFormed) (l : List Input) (n : Nat) :
    Sys2Proof.core.run (n + 1) { s with inputs := .write a v :: l } =
      Sys2Proof.core.run n { stageWrite a v s with inputs := l } := by
  rw [← stageWrite_withInputs]
  exact run_succ_of_step (M := Sys2Proof.core)
    (step_write_of_ne_zero (s := { s with inputs := .write a v :: l }) hw rfl ha) n

/-! ### The byte writes of a base form (30_encoding.md R88) -/

/-- `s` with the staging bytes `b3`, `b2`, `b1` and the inputs `l` to come. -/
def staged (s : State) (b3 b2 b1 : Byte) (l : List Input) : State :=
  { s with cmd1 := b1, cmd2 := b2, cmd3 := b3, inputs := l }

theorem staged_zero {s : State} (h1 : s.cmd1 = 0#8) (h2 : s.cmd2 = 0#8) (h3 : s.cmd3 = 0#8) (l : List Input) :
    staged s 0#8 0#8 0#8 l = { s with inputs := l } := by
  simp only [staged, h1, h2, h3]

/-- A byte that is 0 is not written, so the register has to hold it already. -/
theorem run_stageInput {s : State} {a v : Byte} (ha : a ≠ 0x00#8) (hw : s.cfg.WellFormed) (l : List Input)
    (hzero : v = 0#8 → stageWrite a v s = s) :
    Sys2Proof.core.run (stageInput a v).length { s with inputs := stageInput a v ++ l } =
      .next { stageWrite a v s with inputs := l } := by
  by_cases hv : v = 0#8
  · rw [stageInput, if_pos hv, hzero hv]
    rfl
  · rw [stageInput, if_neg hv]
    exact run_succ_of_write ha hw l 0

section

variable {s : State} (hw : s.cfg.WellFormed) (b3 b2 b1 : Byte) (l : List Input)
include hw

theorem run_stage_cmd3 : Sys2Proof.core.run (stageInput 0x03#8 b3).length
    (staged s 0#8 0#8 0#8 (stageInput 0x03#8 b3 ++ l)) = .next (staged s b3 0#8 0#8 l) :=
  run_stageInput (s := staged s 0#8 0#8 0#8 l) (by decide) hw l (by rintro rfl; rfl)

theorem run_stage_cmd2 : Sys2Proof.core.run (stageInput 0x02#8 b2).length
    (staged s b3 0#8 0#8 (stageInput 0x02#8 b2 ++ l)) = .next (staged s b3 b2 0#8 l) :=
  run_stageInput (s := staged s b3 0#8 0#8 l) (by decide) hw l (by rintro rfl; rfl)

theorem run_stage_cmd1 : Sys2Proof.core.run (stageInput 0x01#8 b1).length
    (staged s b3 b2 0#8 (stageInput 0x01#8 b1 ++ l)) = .next (staged s b3 b2 b1 l) :=
  run_stageInput (s := staged s b3 b2 0#8 l) (by decide) hw l (by rintro rfl; rfl)

end

/-- The bytes of a word, staged and triggered, form the word (R81). -/
theorem stagedNat_bytes (s : State) (w : Word) (l : List Input) :
    stagedNat (staged s (w.extractLsb' 24 8) (w.extractLsb' 16 8) (w.extractLsb' 8 8) l) (w.extractLsb' 0 8) =
      w.toNat := by
  have hw := w.isLt
  simp only [stagedNat, staged, BitVec.extractLsb'_toNat, Nat.shiftRight_eq_div_pow]
  omega

theorem run_trigger {s : State} (hw : s.cfg.WellFormed) (w : Word) (rest : List Input) :
    Sys2Proof.core.run 1 (staged s (w.extractLsb' 24 8) (w.extractLsb' 16 8) (w.extractLsb' 8 8)
      (.write 0x00#8 (w.extractLsb' 0 8) :: rest)) = execute w (staged s 0#8 0#8 0#8 rest) := by
  refine (run_one (M := Sys2Proof.core) _).trans ?_
  refine Eq.trans (step_trigger (by exact hw) (by rfl)) ?_
  rw [stagedNat_bytes, BitVec.ofNat_toNat, BitVec.setWidth_eq]
  rfl

/-- With the staging bytes clear, the byte writes of a word execute it. -/
theorem run_issueInputs {s : State} (hw : s.cfg.WellFormed) (w : Word) (rest : List Input) :
    Sys2Proof.core.run (issueInputs w).length (staged s 0#8 0#8 0#8 (issueInputs w ++ rest)) =
      execute w (staged s 0#8 0#8 0#8 rest) := by
  simp only [issueInputs, List.length_append, List.append_assoc]
  refine (run_add_of_run (run_stage_cmd3 hw (w.extractLsb' 24 8) _) _).trans ?_
  refine (run_add_of_run (run_stage_cmd2 hw (w.extractLsb' 24 8) (w.extractLsb' 16 8) _) _).trans ?_
  refine (run_add_of_run (run_stage_cmd1 hw (w.extractLsb' 24 8) (w.extractLsb' 16 8) (w.extractLsb' 8 8) _) _).trans ?_
  exact run_trigger hw w rest

/-- Settles O11: the byte writes execute the encoded word, which decodes to the command (O1). -/
theorem assembledCommandRuns : Obligations.AssembledCommandRuns := by
  intro s i rest hw h1 h2 h3 hq hi
  have hs : s = staged s 0#8 0#8 0#8 (issueInputs (encode i) ++ rest) := by
    rw [staged_zero h1 h2 h3]
    change s.inputs = issueInputs (encode i) ++ rest at hi
    rw [← hi]
  have hrun : Sys2Proof.core.run (issueInputs (encode i)).length s = execute (encode i) { s with inputs := rest } := by
    rw [← staged_zero h1 h2 h3 rest]
    exact (congrArg _ hs).trans (run_issueInputs hw (encode i) rest)
  exact hrun.trans (execute_decoded (decode_encode i) (.inl hq))

/-! ### The writes of RX (30_encoding.md R89) -/

/-- The two writes of an identifier replace all of it (20_memory.md R52). -/
theorem rxId_of_writes (x id : Ident) :
    BitVec.ofNat 11 (((id.extractLsb' 8 3).setWidth 8).toNat % 8 * 256 +
      (BitVec.ofNat 11 (x.toNat / 256 * 256 + (id.extractLsb' 0 8).toNat)).toNat % 256) = id := by
  apply BitVec.eq_of_toNat_eq
  have hid := id.isLt
  simp only [BitVec.toNat_ofNat, BitVec.toNat_setWidth, BitVec.extractLsb'_toNat, Nat.shiftRight_eq_div_pow]
  omega

theorem rxDlc_of_write (n : Nat) : BitVec.ofNat 4 ((BitVec.ofNat 8 n).toNat % 16) = BitVec.ofNat 4 n := by
  apply BitVec.eq_of_toNat_eq
  simp only [BitVec.toNat_ofNat]
  omega

/-- `bytes` written from index `k` upwards. -/
def putFrom (d : Data8) : Nat → List Byte → Data8
  | _, [] => d
  | k, b :: bytes => putFrom (put d k b) (k + 1) bytes

theorem put_getElem (d : Data8) (k : Nat) (b : Byte) (j : Fin 8) :
    (put d k b)[j] = if k = j.val then b else d[j] :=
  Vector.getElem_setIfInBounds ..

theorem putFrom_getElem (d : Data8) (k : Nat) (bytes : List Byte) (j : Fin 8) :
    (putFrom d k bytes)[j] =
      if k ≤ j.val ∧ j.val < k + bytes.length then bytes.getD (j.val - k) 0#8 else d[j] := by
  induction bytes generalizing d k with
  | nil =>
    rw [if_neg (by rw [List.length_nil]; omega)]
    rfl
  | cons b bytes ih =>
    rw [putFrom, ih, put_getElem, List.length_cons]
    obtain hlt | heq | hgt := Nat.lt_trichotomy j.val k
    · rw [if_neg (by omega), if_neg (by omega), if_neg (by omega)]
    · rw [if_neg (by omega), if_pos heq.symm, if_pos (by omega), heq, Nat.sub_self, List.getD_cons_zero]
    · have hsub : j.val - k = j.val - (k + 1) + 1 := by omega
      rw [if_neg (Nat.ne_of_lt hgt), hsub, List.getD_cons_succ]
      by_cases hin : j.val < k + 1 + bytes.length
      · rw [if_pos (by omega), if_pos (by omega)]
      · rw [if_neg (by omega), if_neg (by omega)]

theorem rxByteInputs_length (a : Byte) (bytes : List Byte) : (rxByteInputs a bytes).length = bytes.length := by
  induction bytes generalizing a with
  | nil => rfl
  | cons b bytes ih => rw [rxByteInputs, List.length_cons, List.length_cons, ih]

/-- The address of the data byte `k` (20_memory.md R51). -/
def rxDataAddr (k : Nat) : Byte := BitVec.ofNat 8 (0x28 + k)

theorem rxDataAddr_toNat {k : Nat} (hk : k < 8) : (rxDataAddr k).toNat = 0x28 + k := by
  rw [rxDataAddr, BitVec.toNat_ofNat]
  exact Nat.mod_eq_of_lt (by omega)

theorem rxDataAddr_ne_zero {k : Nat} (hk : k < 8) : rxDataAddr k ≠ 0x00#8 := by
  intro h
  have haddr := rxDataAddr_toNat hk
  rw [h, BitVec.toNat_ofNat] at haddr
  omega

theorem rxDataAddr_add_one (k : Nat) : rxDataAddr k + 1#8 = rxDataAddr (k + 1) := by
  rw [rxDataAddr, BitVec.ofNat_add_ofNat, Nat.add_assoc]
  rfl

theorem stageWrite_rxDataAddr {k : Nat} (hk : k < 8) (b : Byte) (s : State) :
    stageWrite (rxDataAddr k) b s = { s with rxData := put s.rxData k b } := by
  rw [stageWrite_rxData (i := ⟨k, hk⟩) (rxDataAddr_toNat hk), ← put_eq_set]

/-- The data bytes of RX, from index `k` upwards. -/
theorem run_rxByteInputs {s : State} (hw : s.cfg.WellFormed) (rest : List Input) {k : Nat} {bytes : List Byte}
    (hk : k + bytes.length ≤ 8) :
    Sys2Proof.core.run bytes.length { s with inputs := rxByteInputs (rxDataAddr k) bytes ++ rest } =
      .next { s with inputs := rest, rxData := putFrom s.rxData k bytes } := by
  induction bytes generalizing s k with
  | nil => rfl
  | cons b bytes ih =>
    rw [List.length_cons] at hk
    have hk8 : k < 8 := by omega
    refine (run_succ_of_write (rxDataAddr_ne_zero hk8) hw _ bytes.length).trans ?_
    rw [stageWrite_rxDataAddr hk8, rxDataAddr_add_one]
    exact ih (s := { s with rxData := put s.rxData k b }) hw (by omega)

/-- `s` with the identifier and the length of RX. -/
def withRxHeader (s : State) (id : Ident) (n : Nat) : State := { s with rxId := id, rxDlc := BitVec.ofNat 4 n }

theorem stageWrite_rxHeader (id : Ident) (n : Nat) (s : State) :
    stageWrite 0x26#8 (BitVec.ofNat 8 n) (stageWrite 0x25#8 ((id.extractLsb' 8 3).setWidth 8)
      (stageWrite 0x24#8 (id.extractLsb' 0 8) s)) = withRxHeader s id n := by
  rw [stageWrite_rxIdLow, stageWrite_rxIdHigh, stageWrite_rxDlc, rxId_of_writes, rxDlc_of_write, withRxHeader]

/-- The identifier and the length of RX, in three writes. -/
theorem run_rxHeader {s : State} (hw : s.cfg.WellFormed) (id : Ident) (bytes : List Byte) (rest : List Input) :
    Sys2Proof.core.run 3 { s with inputs := rxInputs id bytes ++ rest } =
      .next { withRxHeader s id bytes.length with inputs := rxByteInputs (rxDataAddr 0) bytes ++ rest } := by
  rw [← stageWrite_rxHeader]
  refine (run_succ_of_write (by decide) hw _ 2).trans ?_
  rw [← stageWrite_cfg 0x24#8 (id.extractLsb' 0 8) s] at hw
  refine (run_succ_of_write (by decide) hw _ 1).trans ?_
  rw [← stageWrite_cfg 0x25#8 ((id.extractLsb' 8 3).setWidth 8)] at hw
  exact run_succ_of_write (by decide) hw _ 0

theorem rxInputs_length (id : Ident) (bytes : List Byte) : (rxInputs id bytes).length = 3 + bytes.length := by
  rw [rxInputs, List.length_append, rxByteInputs_length]
  rfl

/-- Settles O12: the header's three writes, then one write for each data byte. -/
theorem rxLineLoadsTheFrame : Obligations.RxLineLoadsTheFrame := by
  intro s id bytes rest hw hlen hi
  have hs : { s with inputs := rxInputs id bytes ++ rest } = s := by
    change s.inputs = rxInputs id bytes ++ rest at hi
    rw [← hi]
  have hheader := run_rxHeader hw id bytes rest
  rw [hs] at hheader
  refine ⟨putFrom s.rxData 0 bytes, ?_, fun j => ?_⟩
  · rw [AsmLine.expand, rxInputs_length]
    exact (run_add_of_run hheader bytes.length).trans
      (run_rxByteInputs (s := withRxHeader s id bytes.length) hw rest (by omega))
  · rw [putFrom_getElem, Nat.zero_add, Nat.sub_zero]
    simp only [Nat.zero_le, true_and]

end Machine

end Sys2Proof
end

