-- ==== Sys2Proof/Proofs/MasterDecode.lean ====
section
/-! PROOFS. The master-bus decode rules (40_decode.md): which action MFRAME takes by the identifier, what each decoder
writes, and the arithmetic of the rescaled fields. -/

namespace Sys2Proof.Machine

/-! ### The inbound frame -/

theorem rxFrame_not_malformed {s : State} (h : s.rxDlc.toNat ≤ 8) : (rxFrame s).malformed = false :=
  decide_eq_false (Nat.not_lt.mpr h)

theorem rxFrame_byte {s : State} {k : Nat} {b : Byte} (h : s.rxData[k]? = some b) : (rxFrame s).byte k = b := by
  obtain ⟨hk, hb⟩ := Vector.getElem?_eq_some_iff.mp h
  change s.rxData.getD k 0#8 = b
  simp [Vector.getD, hk, hb]

theorem rxFrame_byte_fin (s : State) (i : Fin 8) : (rxFrame s).byte i.val = s.rxData[i] :=
  rxFrame_byte (Vector.getElem?_eq_getElem i.isLt)

theorem rxFrame_byte_zero (s : State) : (rxFrame s).byte 0 = s.rxData[0] := rxFrame_byte_fin s 0

theorem raise_decodeShort (s : State) : raise .decodeShort s = { s with err := s.err ||| 0x0008#16 } := rfl

/-! ### The dispatch of MFRAME (40_decode.md R110) -/

/-- A frame that is not malformed is dispatched on its identifier alone. -/
theorem exec_mframe_dispatch {s : State} (hlen : s.rxDlc.toNat ≤ 8) :
    exec .mframe s =
      if s.rxId = s.cfg.idMIgn then .next (decodeIgn (rxFrame s) s)
      else if s.rxId = s.cfg.idMWheel then .next (decodeWheel (rxFrame s) s)
      else if s.rxId = s.cfg.idMOdo then .next (decodeOdo (rxFrame s) s)
      else if s.rxId = s.cfg.idMRpm then .next (decodeRpm (rxFrame s) s)
      else if s.rxId = s.cfg.idLStart ∨ s.rxId = s.cfg.idLAck then finish (linkStep false (some (rxFrame s)) s)
      else .next s :=
  if_neg (Bool.eq_false_iff.mp (rxFrame_not_malformed hlen))

theorem exec_mframe_ign {s : State} (hlen : s.rxDlc.toNat ≤ 8) (hid : s.rxId = s.cfg.idMIgn) :
    exec .mframe s = .next (decodeIgn (rxFrame s) s) := by
  rw [exec_mframe_dispatch hlen, if_pos hid]

theorem exec_mframe_wheel {s : State} (hw : s.cfg.WellFormed) (hlen : s.rxDlc.toNat ≤ 8)
    (hid : s.rxId = s.cfg.idMWheel) : exec .mframe s = .next (decodeWheel (rxFrame s) s) := by
  obtain ⟨-, hids, -⟩ := hw
  obtain ⟨hIgn, -⟩ := (masterIdsDistinct_iff s.cfg).mp hids
  rw [exec_mframe_dispatch hlen, if_neg (hid ▸ hIgn.symm), if_pos hid]

theorem exec_mframe_odo {s : State} (hw : s.cfg.WellFormed) (hlen : s.rxDlc.toNat ≤ 8)
    (hid : s.rxId = s.cfg.idMOdo) : exec .mframe s = .next (decodeOdo (rxFrame s) s) := by
  obtain ⟨-, hids, -⟩ := hw
  obtain ⟨-, hIgn, -, hWheel, -⟩ := (masterIdsDistinct_iff s.cfg).mp hids
  rw [exec_mframe_dispatch hlen, if_neg (hid ▸ hIgn.symm), if_neg (hid ▸ hWheel.symm), if_pos hid]

theorem exec_mframe_rpm {s : State} (hw : s.cfg.WellFormed) (hlen : s.rxDlc.toNat ≤ 8)
    (hid : s.rxId = s.cfg.idMRpm) : exec .mframe s = .next (decodeRpm (rxFrame s) s) := by
  obtain ⟨-, hids, -⟩ := hw
  obtain ⟨-, -, hIgn, -, hWheel, hOdo, -⟩ := (masterIdsDistinct_iff s.cfg).mp hids
  rw [exec_mframe_dispatch hlen, if_neg (hid ▸ hIgn.symm), if_neg (hid ▸ hWheel.symm), if_neg (hid ▸ hOdo.symm),
    if_pos hid]

/-- No Link identifier is a decode identifier (00_scope.md R6 (a)). -/
theorem ne_of_linkId {c : Cfg} (hw : c.WellFormed) {id : Ident} (hid : id = c.idLStart ∨ id = c.idLAck) :
    ∀ i ∈ [c.idMIgn, c.idMWheel, c.idMOdo, c.idMRpm], id ≠ i := by
  obtain ⟨-, hids, -⟩ := hw
  obtain ⟨-, -, -, -, -, -, havoid⟩ := (masterIdsDistinct_iff c).mp hids
  intro i hi
  obtain ⟨hStart, hAck⟩ := havoid i hi
  obtain rfl | rfl := hid
  · exact hStart.symm
  · exact hAck.symm

theorem exec_mframe_link {s : State} (hw : s.cfg.WellFormed) (hlen : s.rxDlc.toNat ≤ 8)
    (hid : s.rxId = s.cfg.idLStart ∨ s.rxId = s.cfg.idLAck) :
    exec .mframe s = finish (linkStep false (some (rxFrame s)) s) := by
  have hne := ne_of_linkId hw hid
  rw [exec_mframe_dispatch hlen, if_neg (hne _ (by simp)), if_neg (hne _ (by simp)), if_neg (hne _ (by simp)),
    if_neg (hne _ (by simp)), if_pos hid]

theorem exec_lstep_frame (req : Bool) {s : State} (hlen : s.rxDlc.toNat ≤ 8) :
    exec (.lstep req true) s = finish (linkStep req (some (rxFrame s)) s) :=
  if_neg (Bool.eq_false_iff.mp (rxFrame_not_malformed hlen))

/-- Settles O32: a malformed frame raises BAD_FRAME in both commands, any other takes the same Link Protocol step. -/
theorem linkFramesAreForwarded : Obligations.LinkFramesAreForwarded := by
  intro s hw hid
  by_cases hlen : s.rxDlc.toNat ≤ 8
  · rw [exec_mframe_link hw hlen hid, exec_lstep_frame false hlen]
  · have hbad : 8 < s.rxDlc.toNat := Nat.lt_of_not_le hlen
    rw [malformedFramesRaiseBadFrame s .mframe hbad (.inl rfl),
      malformedFramesRaiseBadFrame s (.lstep false true) hbad (.inr (.inr ⟨false, rfl⟩))]

/-- Settles O31: SFRAME only tests the length, and an MFRAME that matches no arm falls through the dispatch. -/
theorem unmappedFramesAreIgnored : Obligations.UnmappedFramesAreIgnored := by
  intro s hlen
  refine ⟨if_neg (Bool.eq_false_iff.mp (rxFrame_not_malformed hlen)), ?_⟩
  intro hIgn hWheel hOdo hRpm hStart hAck
  rw [exec_mframe_dispatch hlen, if_neg hIgn, if_neg hWheel, if_neg hOdo, if_neg hRpm,
    if_neg (not_or.mpr ⟨hStart, hAck⟩)]

/-! ### Short frames (40_decode.md R111) -/

theorem decodeIgn_short {f : CanFrame} {s : State} (h : f.dlc.toNat < s.cfg.lenIgn) :
    decodeIgn f s = raise .decodeShort s := if_pos h

theorem decodeWheel_short {f : CanFrame} {s : State} (h : f.dlc.toNat < s.cfg.lenWheel) :
    decodeWheel f s = raise .decodeShort s := if_pos h

theorem decodeOdo_short {f : CanFrame} {s : State} (h : f.dlc.toNat < s.cfg.lenOdo) :
    decodeOdo f s = raise .decodeShort s := if_pos h

theorem decodeRpm_short {f : CanFrame} {s : State} (h : f.dlc.toNat < s.cfg.lenRpm) :
    decodeRpm f s = raise .decodeShort s := if_pos h

/-! ### Ignition (40_decode.md R113) -/

theorem decodeIgn_long {f : CanFrame} {s : State} (h : s.cfg.lenIgn ≤ f.dlc.toNat) :
    decodeIgn f s = { s with store := { s.store with ignition := ignitionValue s.cfg (f.byte 0) } } :=
  if_neg (Nat.not_lt.mpr h)

/-- Settles O25: LEN_IGN is 1, and `ignitionValue` tests the three bits of byte 0 in the order of the rule. -/
theorem ignitionFrameDecodes : Obligations.IgnitionFrameDecodes := by
  intro s _ hid hlen
  rw [exec_mframe_ign hlen hid]
  constructor
  · intro hzero
    rw [decodeIgn_short (Nat.lt_one_iff.mpr hzero), raise_decodeShort]
  · intro hlong
    rw [decodeIgn_long (f := rxFrame s) hlong, rxFrame_byte_zero]
    rfl

/-! ### Wheel (40_decode.md R114) -/

theorem decodeWheel_long {f : CanFrame} {s : State} (h : s.cfg.lenWheel ≤ f.dlc.toNat) :
    decodeWheel f s = { s with store := { s.store with
      gearBox := if (f.byte 0).getLsbD s.cfg.mGearBit.val then s.cfg.sGearRev else s.cfg.sGearDrive
      speed := BitVec.ofNat 16 (pairValue (f.byte s.cfg.mSpdHi.val) (f.byte s.cfg.mSpdLo.val) * 2)
      wheelDelta := BitVec.ofNat 16 (((rawPulse s.cfg f : Int) - s.store.wheelPulse.toNat) % 2048).toNat
      wheelPulse := BitVec.ofNat 16 (rawPulse s.cfg f)
      temperature := f.byte s.cfg.mTemp.val } } :=
  if_neg (Nat.not_lt.mpr h)

/-- Doubling a pair of bytes modulo 2^16 shifts each byte left, and the low byte's bit 7 moves into the high one. -/
theorem doubled_pair_bytes (lo hi : Nat) :
    (hi * 256 + lo) * 2 % 2 ^ 16 % 256 = lo * 2 % 256 ∧
      (hi * 256 + lo) * 2 % 2 ^ 16 / 256 = (hi * 2 + lo / 128) % 256 := by
  omega

theorem rawPulse_toNat (c : Cfg) (f : CanFrame) : (BitVec.ofNat 16 (rawPulse c f)).toNat = rawPulse c f := by
  have hraw : rawPulse c f < 2048 := Nat.mod_lt _ (by decide)
  rw [BitVec.toNat_ofNat, Nat.mod_eq_of_lt (by omega)]

/-- The delta loses nothing in 16 bits: a remainder modulo 2048 is neither negative nor too large. -/
theorem wrappedDelta_toNat (d : Int) : ((BitVec.ofNat 16 (d % 2048).toNat).toNat : Int) = d % 2048 := by
  rw [BitVec.toNat_ofNat]
  omega

theorem rawPulse_rxFrame (c : Cfg) (s : State) :
    rawPulse c (rxFrame s) = (s.rxData[c.mWpHi].toNat * 256 + s.rxData[c.mWpLo].toNat) % 2048 := by
  rw [rawPulse, rxFrame_byte_fin, rxFrame_byte_fin, pairValue]

/-- Settles O26: the decoded fields of `decodeWheel`, with the speed's bytes from `doubled_pair_bytes`. -/
theorem wheelFrameDecodes : Obligations.WheelFrameDecodes := by
  intro s hw hid hlen
  rw [exec_mframe_wheel hw hlen hid]
  obtain ⟨⟨hgear, -⟩, -⟩ := hw
  constructor
  · intro hshort
    rw [decodeWheel_short hshort, raise_decodeShort]
  · intro hlong lo hi raw
    have hraw : rawPulse s.cfg (rxFrame s) = raw := rawPulse_rxFrame s.cfg s
    obtain ⟨hspeedLo, hspeedHi⟩ := doubled_pair_bytes lo hi
    refine ⟨BitVec.ofNat 16 ((hi * 256 + lo) * 2),
      BitVec.ofNat 16 (((raw : Int) - s.store.wheelPulse.toNat) % 2048).toNat, BitVec.ofNat 16 raw, ?_,
      BitVec.toNat_ofNat _ _, hspeedLo, hspeedHi, ?_, wrappedDelta_toNat _⟩
    · rw [decodeWheel_long hlong, hgear, hraw, rxFrame_byte_zero]
      simp only [rxFrame_byte_fin]
      rfl
    · rw [← hraw]
      exact rawPulse_toNat s.cfg (rxFrame s)

/-! ### Odometer (40_decode.md R115) -/

theorem decodeOdo_long {f : CanFrame} {s : State} (h : s.cfg.lenOdo ≤ f.dlc.toNat) :
    decodeOdo f s = { s with store := { s.store with
      odo0 := (odometerValue s.cfg f).extractLsb' 0 8
      odo1 := (odometerValue s.cfg f).extractLsb' 8 8
      odo2 := (odometerValue s.cfg f).extractLsb' 16 8 } } :=
  if_neg (Nat.not_lt.mpr h)

theorem odometerValue_rxFrame_toNat {s : State} {b0 b1 b2 : Byte} (h0 : s.rxData[s.cfg.mOdoOff.val]? = some b0)
    (h1 : s.rxData[s.cfg.mOdoOff.val + 1]? = some b1) (h2 : s.rxData[s.cfg.mOdoOff.val + 2]? = some b2) :
    (odometerValue s.cfg (rxFrame s)).toNat =
      (b0.toNat + b1.toNat * 2 ^ 8 + b2.toNat * 2 ^ 16) * 2 % 2 ^ 24 := by
  rw [odometerValue, rxFrame_byte h0, rxFrame_byte h1, rxFrame_byte h2, BitVec.toNat_ofNat]

/-- The three bytes of a 24-bit value, as numbers. -/
theorem bytes24_toNat (w : BitVec 24) :
    (w.extractLsb' 0 8).toNat = w.toNat % 256 ∧ (w.extractLsb' 8 8).toNat = w.toNat / 256 % 256 ∧
      (w.extractLsb' 16 8).toNat = w.toNat / 65536 := by
  have hw := w.isLt
  rw [BitVec.extractLsb'_toNat, BitVec.extractLsb'_toNat, BitVec.extractLsb'_toNat, Nat.shiftRight_eq_div_pow,
    Nat.shiftRight_eq_div_pow, Nat.shiftRight_eq_div_pow]
  omega

/-- Doubling three bytes modulo 2^24 shifts each byte left, and each byte's bit 7 moves into the byte above. -/
theorem doubled_triple_bytes {b0 b1 b2 : Nat} (h0 : b0 < 256) :
    (b0 + b1 * 2 ^ 8 + b2 * 2 ^ 16) * 2 % 2 ^ 24 % 256 = b0 * 2 % 256 ∧
      (b0 + b1 * 2 ^ 8 + b2 * 2 ^ 16) * 2 % 2 ^ 24 / 256 % 256 = (b1 * 2 + b0 / 128) % 256 ∧
      (b0 + b1 * 2 ^ 8 + b2 * 2 ^ 16) * 2 % 2 ^ 24 / 65536 = (b2 * 2 + b1 / 128) % 256 := by
  omega

/-- Settles O27: the store's bytes are those of the doubled value, and `doubled_triple_bytes` computes them. -/
theorem odometerFrameDecodes : Obligations.OdometerFrameDecodes := by
  intro s b0 b1 b2 hw hid hlen h0 h1 h2
  rw [exec_mframe_odo hw hlen hid]
  constructor
  · intro hshort
    rw [decodeOdo_short hshort, raise_decodeShort]
  · intro hlong
    obtain ⟨ho0, ho1, ho2⟩ := bytes24_toNat (odometerValue s.cfg (rxFrame s))
    obtain ⟨hdbl0, hdbl1, hdbl2⟩ := doubled_triple_bytes (b2 := b2.toNat) b0.isLt
    rw [odometerValue_rxFrame_toNat h0 h1 h2] at ho0 ho1 ho2
    refine ⟨_, _, _, congrArg _ (decodeOdo_long hlong), ?_, ho0.trans hdbl0, ho1.trans hdbl1, ho2.trans hdbl2⟩
    rw [ho0, ho1, ho2]
    omega

/-! ### Engine speed (40_decode.md R116) -/

theorem decodeRpm_long {f : CanFrame} {s : State} (h : s.cfg.lenRpm ≤ f.dlc.toNat) :
    decodeRpm f s = { s with store := { s.store with
      rpm := BitVec.ofNat 16 (pairValue (f.byte s.cfg.mRpmHi.val) (f.byte s.cfg.mRpmLo.val) / 4) } } :=
  if_neg (Nat.not_lt.mpr h)

/-- A quarter of a pair of bytes fits in 16 bits, so nothing is lost. -/
theorem quarteredPair_toNat (h l : Byte) :
    (BitVec.ofNat 16 (pairValue h l / 4)).toNat = (h.toNat * 256 + l.toNat) / 4 := by
  have hpair := pairValue_lt h l
  rw [BitVec.toNat_ofNat, Nat.mod_eq_of_lt (by omega), pairValue]

/-- Dividing a pair of bytes by 4 shifts it right, and the high byte's two low bits move into the low one. -/
theorem quartered_pair_bytes {lo hi : Nat} (hlo : lo < 256) :
    (hi * 256 + lo) / 4 % 256 = lo / 4 + hi % 4 * 64 ∧ (hi * 256 + lo) / 4 / 256 = hi / 4 := by
  omega

/-- Settles O28: the quarter fits in the field, with its bytes from `quartered_pair_bytes`. -/
theorem rpmFrameDecodes : Obligations.RpmFrameDecodes := by
  intro s hw hid hlen
  rw [exec_mframe_rpm hw hlen hid]
  constructor
  · intro hshort
    rw [decodeRpm_short hshort, raise_decodeShort]
  · intro hlong lo hi
    have hrpm := quarteredPair_toNat s.rxData[s.cfg.mRpmHi] s.rxData[s.cfg.mRpmLo]
    obtain ⟨hrpmLo, hrpmHi⟩ := quartered_pair_bytes (hi := hi) (s.rxData[s.cfg.mRpmLo].isLt)
    refine ⟨_, ?_, hrpm, (congrArg (· % 256) hrpm).trans hrpmLo, (congrArg (· / 256) hrpm).trans hrpmHi⟩
    rw [decodeRpm_long hlong, rxFrame_byte_fin, rxFrame_byte_fin]

end Sys2Proof.Machine
end

