-- ==== Sys2Proof/Proofs/SlaveEncode.lean ====
section
/-! PROOFS. The slave-bus encode rules (41_encode.md): which frame ENC queues by the identifier, and the bytes of each
frame. -/

namespace Sys2Proof.Machine

/-! ### Frames in normal form (41_encode.md R130) -/

/-- Settles O21: a command's effect appends its frames, and each effect's frames are in normal form. -/
theorem queuedFramesAreNormal : Obligations.QueuedFramesAreNormal :=
  fun _ _ _ hexec hi => (exec_effect hexec hi).txq_append

/-! ### The dispatch of ENC (41_encode.md R131, R132) -/

theorem exec_enc_some {s : State} {id : Ident} {f : CanFrame} (h : encodeFrame s.cfg s.store id = some f) :
    exec (.enc id) s = .next { s with txq := s.txq ++ [⟨.slave, f⟩] } := by
  change execEnc id s = _
  rw [execEnc, h]
  rfl

theorem exec_enc_none {s : State} {id : Ident} (h : encodeFrame s.cfg s.store id = none) :
    exec (.enc id) s = .next { s with err := s.err ||| 0x0010#16 } := by
  change execEnc id s = _
  rw [execEnc, h]
  rfl

/-- Settles O37: outside the seven identifiers `encodeFrame` has no frame. -/
theorem encOfAnUnknownTargetRaisesBadTarget : Obligations.EncOfAnUnknownTargetRaisesBadTarget :=
  fun s id hid => exec_enc_none ((encodeFrame_eq_none_iff s.cfg s.store id).mpr hid)

/-- The seven identifiers of 41_encode.md R132, each with its frame. -/
def slaveFrames (c : Cfg) (st : SignalStore) : List (Ident × CanFrame) :=
  [(c.idSIgn, ignFrame c st), (c.idSWheel, wheelFrame c st), (c.idSGear, gearFrame c st), (c.idSDim, dimFrame c st),
    (c.idSOdo, odoFrame c st), (c.idSLang, langFrame c st), (c.idSCfg, cfgFrame c)]

/-- One row of a lookup is one test of `encodeFrame`'s chain. -/
theorem lookup_cons_ite (id a : Ident) (f : CanFrame) (l : List (Ident × CanFrame)) :
    List.lookup id ((a, f) :: l) = if id = a then some f else List.lookup id l := by
  by_cases h : id = a
  · rw [h, List.lookup_cons_self, if_pos rfl]
  · rw [List.lookup, beq_false_of_ne h, if_neg h]

/-- Where no key occurs twice, every row is found. -/
theorem lookup_of_mem {id : Ident} {f : CanFrame} {l : List (Ident × CanFrame)} (hkeys : (l.map Prod.fst).Nodup)
    (h : (id, f) ∈ l) : l.lookup id = some f := by
  induction l with
  | nil => cases h
  | cons row rows ih =>
    obtain ⟨hrow, hrows⟩ := List.nodup_cons.mp hkeys
    rw [lookup_cons_ite]
    obtain heq | hmem := List.mem_cons.mp h
    · rw [← heq, if_pos rfl]
    · have hkey : id ∈ rows.map Prod.fst := List.mem_map_of_mem (f := Prod.fst) hmem
      have hne : id ≠ row.fst := fun hid => hrow (hid ▸ hkey)
      rw [if_neg hne, ih hrows hmem]

theorem encodeFrame_eq_lookup (c : Cfg) (st : SignalStore) (id : Ident) :
    encodeFrame c st id = (slaveFrames c st).lookup id := by
  simp only [encodeFrame, slaveFrames, lookup_cons_ite, List.lookup_nil]

/-- The identifiers are pairwise distinct (00_scope.md R6 (b)), so each gets its own frame whatever the order. -/
theorem encodeFrame_of_mem {c : Cfg} (hw : c.WellFormed) {st : SignalStore} {id : Ident} {f : CanFrame}
    (h : (id, f) ∈ slaveFrames c st) : encodeFrame c st id = some f := by
  obtain ⟨-, -, hids, -⟩ := hw
  rw [encodeFrame_eq_lookup]
  exact lookup_of_mem hids h

theorem exec_enc_of_mem {s : State} (hw : s.cfg.WellFormed) {id : Ident} {f : CanFrame}
    (h : (id, f) ∈ slaveFrames s.cfg s.store) :
    exec (.enc id) s = .next { s with txq := s.txq ++ [⟨.slave, f⟩] } :=
  exec_enc_some (encodeFrame_of_mem hw h)

/-! ### The frames of one field (41_encode.md R133, R136, R137, R139) -/

theorem ignFrame_eq (c : Cfg) (st : SignalStore) :
    ignFrame c st = ⟨c.idSIgn, 2#4, #v[st.ignition, 0#8, 0#8, 0#8, 0#8, 0#8, 0#8, 0#8]⟩ := rfl

theorem gearFrame_eq (c : Cfg) (st : SignalStore) :
    gearFrame c st = ⟨c.idSGear, 7#4, #v[0#8, 0#8, st.gearBox, 0#8, 0#8, 0#8, 0#8, 0#8]⟩ := rfl

theorem langFrame_eq (c : Cfg) (st : SignalStore) :
    langFrame c st = ⟨c.idSLang, 4#4,
      #v[BitVec.ofNat 8 (st.language.toNat % 16 * 16 + (if st.isMetric = true then 1 else 0)),
        0#8, 0#8, 0#8, 0#8, 0#8, 0#8, 0#8]⟩ := rfl

/-- A frame of eight bytes carries its data as they are. -/
theorem mkFrame_eight (id : Ident) (d : Data8) : mkFrame id 8 d = ⟨id, 8#4, d⟩ := by
  have hd : (Vector.ofFn fun i : Fin 8 => if i.val < 8 then d.getD i.val 0#8 else 0#8) = d := by
    ext i hi
    simp [Vector.getD]
  rw [mkFrame, hd]

theorem cfgFrame_eq (c : Cfg) : cfgFrame c = ⟨c.idSCfg, 8#4, c.cfgData⟩ := mkFrame_eight _ _

/-- Settles O33: the four frames, as literals, are rows of `slaveFrames`. -/
theorem encSendsTheOneFieldFrames : Obligations.EncSendsTheOneFieldFrames := by
  intro s hw
  rw [← ignFrame_eq s.cfg s.store, ← gearFrame_eq s.cfg s.store, ← langFrame_eq s.cfg s.store, ← cfgFrame_eq]
  refine ⟨?_, ?_, ?_, ?_⟩
  all_goals exact exec_enc_of_mem hw (by simp [slaveFrames])

/-! ### The bytes of a frame's data -/

theorem put_getD_same (d : Data8) {i : Nat} (hi : i < 8) (b : Byte) : (put d i b).getD i 0#8 = b := by
  rw [put_getD, if_pos ⟨rfl, hi⟩]

theorem put_getD_ne (d : Data8) {i j : Nat} (h : j ≠ i) (b : Byte) : (put d i b).getD j 0#8 = d.getD j 0#8 := by
  rw [put_getD, if_neg fun hij => h hij.1.symm]

theorem mkFrame_byte_of_lt (id : Ident) {n j : Nat} (hj : j < n) (d : Data8) :
    (mkFrame id n d).byte j = d.getD j 0#8 := by
  rw [mkFrame_byte, if_pos hj]

/-- Where the data is 0 the frame is 0, within its length and beyond it (41_encode.md R130, R132). -/
theorem mkFrame_byte_eq_zero (id : Ident) (n : Nat) {j : Nat} {d : Data8} (h : d.getD j 0#8 = 0#8) :
    (mkFrame id n d).byte j = 0#8 := by
  rw [mkFrame_byte, h, ite_self]

/-! ### The wheel frame (41_encode.md R134) -/

/-- The two bytes at offset `i`, read low byte first (20_memory.md R57). -/
def pairAt (d : Data8) (i : Nat) : Nat := (d.getD i 0#8).toNat + (d.getD (i + 1) 0#8).toNat * 256

theorem put16_getD_ne (d : Data8) {i j : Nat} (hlo : j ≠ i) (hhi : j ≠ i + 1) (v : U16) :
    (put16 d i v).getD j 0#8 = d.getD j 0#8 := by
  rw [put16, put_getD_ne _ hhi, put_getD_ne _ hlo]

theorem pairAt_put16_same (d : Data8) {i : Nat} (hi : i + 1 < 8) (v : U16) : pairAt (put16 d i v) i = v.toNat := by
  rw [pairAt, put16, put_getD_ne _ (Nat.succ_ne_self i).symm, put_getD_same _ (by omega), put_getD_same _ hi,
    lo16_add_hi16]

theorem pairAt_put16_disjoint (d : Data8) {i j : Nat} (h : Cfg.Disjoint2 j i) (v : U16) :
    pairAt (put16 d i v) j = pairAt d j := by
  rw [pairAt, put16_getD_ne _ (by omega) (by omega), put16_getD_ne _ (by omega) (by omega), pairAt]

/-- The data of `wheelFrame` (41_encode.md R134). -/
def wheelData (c : Cfg) (st : SignalStore) : Data8 :=
  put16 (put16 (put16 zero8 c.wSpeedOff.val st.speed) c.wRpmOff.val st.rpm) c.wDeltaOff.val st.wheelDelta

theorem wheelFrame_eq (c : Cfg) (st : SignalStore) : wheelFrame c st = ⟨c.idSWheel, 8#4, wheelData c st⟩ :=
  mkFrame_eight _ _

/-- Each field keeps its value, since the fields written after it lie elsewhere (00_scope.md R6 (d)). -/
theorem pairAt_wheelData {c : Cfg} (hw : c.WellFormed) (st : SignalStore) :
    pairAt (wheelData c st) c.wSpeedOff.val = st.speed.toNat ∧
      pairAt (wheelData c st) c.wRpmOff.val = st.rpm.toNat ∧
      pairAt (wheelData c st) c.wDeltaOff.val = st.wheelDelta.toNat := by
  obtain ⟨-, -, -, -, ⟨hSpeedRpm, hSpeedDelta, hRpmDelta⟩, -⟩ := hw
  refine ⟨?_, ?_, pairAt_put16_same _ (Nat.succ_lt_succ c.wDeltaOff.isLt) _⟩
  · rw [wheelData, pairAt_put16_disjoint _ hSpeedDelta, pairAt_put16_disjoint _ hSpeedRpm,
      pairAt_put16_same _ (Nat.succ_lt_succ c.wSpeedOff.isLt)]
  · rw [wheelData, pairAt_put16_disjoint _ hRpmDelta, pairAt_put16_same _ (Nat.succ_lt_succ c.wRpmOff.isLt)]

theorem wheelData_getD_eq_zero (c : Cfg) (st : SignalStore) {j : Nat}
    (hj : j ∉ [c.wSpeedOff.val, c.wSpeedOff.val + 1, c.wRpmOff.val, c.wRpmOff.val + 1, c.wDeltaOff.val,
      c.wDeltaOff.val + 1]) : (wheelData c st).getD j 0#8 = 0#8 := by
  simp only [List.mem_cons, List.not_mem_nil, or_false, not_or] at hj
  obtain ⟨hSpeed, hSpeed', hRpm, hRpm', hDelta, hDelta'⟩ := hj
  rw [wheelData, put16_getD_ne _ hDelta hDelta', put16_getD_ne _ hRpm hRpm', put16_getD_ne _ hSpeed hSpeed',
    zero8_getD]

/-- Settles O34: the bytes of `wheelFrame` are those of `wheelData`; a delta below 2048 leaves its high byte below 8. -/
theorem encSendsTheWheelFrame : Obligations.EncSendsTheWheelFrame := by
  intro s hw
  obtain ⟨hspeed, hrpm, hdelta⟩ := pairAt_wheelData hw s.store
  refine ⟨⟨s.cfg.idSWheel, 8#4, wheelData s.cfg s.store⟩, exec_enc_of_mem hw ?_, rfl, rfl, hspeed, hrpm, hdelta,
    fun hlt => ?_, fun j _ hj => wheelData_getD_eq_zero s.cfg s.store hj⟩
  · simp [slaveFrames, wheelFrame_eq]
  · change ((wheelData s.cfg s.store).getD _ 0#8).toNat < 8
    rw [pairAt] at hdelta
    omega

/-! ### The dimming frame (41_encode.md R135) -/

theorem bitIf_toNat (b : Bool) (i : Fin 8) : (bitIf b i.val).toNat = if b = true then 2 ^ i.val else 0 := by
  cases b with
  | false => rfl
  | true => exact BitVec.toNat_twoPow_of_lt i.isLt

/-- Settles O35: the level's byte is kept since the night byte is another one (00_scope.md R6 (e)). -/
theorem encSendsTheDimmingFrame : Obligations.EncSendsTheDimmingFrame := by
  intro s hw
  have ⟨_, _, _, _, _, hoff, _⟩ := hw
  have hlevel := s.cfg.dLevelOff.isLt
  have hnight := s.cfg.dNightOff.isLt
  refine ⟨dimFrame s.cfg s.store, exec_enc_of_mem hw (by simp [slaveFrames]), rfl, rfl, ?_, ?_, fun j _ hjl hjn => ?_⟩
  · rw [dimFrame, mkFrame_byte_of_lt _ hlevel, put_getD_ne _ (Fin.val_ne_of_ne hoff), put_getD_same _ (by omega),
      hi16_toNat]
  · rw [dimFrame, mkFrame_byte_of_lt _ hnight, put_getD_same _ (by omega), bitIf_toNat]
  · refine mkFrame_byte_eq_zero _ _ ?_
    rw [put_getD_ne _ hjn, put_getD_ne _ hjl, zero8_getD]

/-! ### The odometer frame (41_encode.md R138) -/

/-- Each field keeps its byte, since the temperature lies outside the odometer's three (00_scope.md R6 (f)). -/
theorem odoFrame_fields {c : Cfg} (hw : c.WellFormed) (st : SignalStore) :
    (odoFrame c st).byte c.oOdoOff.val = st.odo0 ∧ (odoFrame c st).byte (c.oOdoOff.val + 1) = st.odo1 ∧
      (odoFrame c st).byte (c.oOdoOff.val + 2) = st.odo2 ∧ (odoFrame c st).byte c.oTempOff.val = st.temperature := by
  obtain ⟨-, -, -, -, -, -, htemp, -⟩ := hw
  have hodoOff := c.oOdoOff.isLt
  have htempOff := c.oTempOff.isLt
  refine ⟨?_, ?_, ?_, ?_⟩
  all_goals simp (disch := omega) only [odoFrame, mkFrame_byte_of_lt, put_getD_ne, put_getD_same]

theorem odoFrame_byte_eq_zero (c : Cfg) (st : SignalStore) {j : Nat}
    (hj : j ∉ [c.oOdoOff.val, c.oOdoOff.val + 1, c.oOdoOff.val + 2, c.oTempOff.val]) :
    (odoFrame c st).byte j = 0#8 := by
  simp only [List.mem_cons, List.not_mem_nil, or_false, not_or] at hj
  obtain ⟨hodo0, hodo1, hodo2, htemp⟩ := hj
  refine mkFrame_byte_eq_zero _ _ ?_
  rw [put_getD_ne _ htemp, put_getD_ne _ hodo2, put_getD_ne _ hodo1, put_getD_ne _ hodo0, zero8_getD]

/-- Settles O36: the frame's seven bytes are its four fields and zeros. -/
theorem encSendsTheOdometerFrame : Obligations.EncSendsTheOdometerFrame := by
  intro s hw
  obtain ⟨hodo0, hodo1, hodo2, htemp⟩ := odoFrame_fields hw s.store
  exact ⟨odoFrame s.cfg s.store, exec_enc_of_mem hw (by simp [slaveFrames]), rfl, rfl, hodo0, hodo1, hodo2, htemp,
    fun _ _ hj => odoFrame_byte_eq_zero s.cfg s.store hj⟩

end Sys2Proof.Machine
end

