-- ==== Sys2Proof/Proofs/Dimming.lean ====
section
/-! PROOFS. Dimming (42_dimming.md): the laws of the filter as a function of naturals, what DIM does with them, and the
filter's convergence under a constant sample. -/

namespace Sys2Proof.Machine

/-! ### The filter's laws (42_dimming.md R152) -/

/-- 42_dimming.md R150 without a subtraction. -/
theorem filterNext_add_div (k r x : Nat) : filterNext k r x + x / k = r / k + x := by
  rw [filterNext, Nat.add_assoc, Nat.sub_add_cancel (Nat.div_le_self x k)]

theorem filterNext_eq_int (k r x : Nat) : (filterNext k r x : Int) = (r / k : Int) + x - (x / k : Int) := by
  have hsum := filterNext_add_div k r x
  rw [← Int.natCast_ediv, ← Int.natCast_ediv]
  omega

theorem filterNext_eq_iff (k r x : Nat) : filterNext k r x = x ↔ x / k = r / k := by
  have hsum := filterNext_add_div k r x
  omega

/-- With `K` at least 1 the values that share the quotient `q` are those of `[K*q, K*q+K-1]`. -/
theorem div_eq_iff_mem_range {k : Nat} (hk : 0 < k) (x q : Nat) : x / k = q ↔ k * q ≤ x ∧ x ≤ k * q + k - 1 := by
  rw [Nat.div_eq_iff hk, Nat.mul_comm q k]

theorem lt_filterNext {k r x : Nat} (h : x / k < r / k) : x < filterNext k r x := by
  have hsum := filterNext_add_div k r x
  omega

theorem filterNext_lt {k r x : Nat} (h : r / k < x / k) : filterNext k r x < x := by
  have hsum := filterNext_add_div k r x
  omega

/-- Below the range an update does not overshoot: each of the missing multiples of `K` adds only 1. -/
theorem filterNext_le {k r x : Nat} (hk : 0 < k) (h : x / k < r / k) : filterNext k r x ≤ k * (r / k) := by
  have hsum := filterNext_add_div k r x
  have hx := Nat.lt_mul_div_succ x hk
  obtain ⟨d, hd⟩ := Nat.exists_eq_add_of_lt h
  have hkd : d ≤ k * d := Nat.le_mul_of_pos_left d hk
  rw [Nat.mul_succ] at hx
  rw [hd, Nat.mul_succ, Nat.mul_add]
  omega

/-- Above the range an update does not overshoot: each of the extra multiples of `K` takes only 1 away. -/
theorem le_filterNext {k r x : Nat} (hk : 0 < k) (h : r / k < x / k) : k * (r / k) + k - 1 ≤ filterNext k r x := by
  have hsum := filterNext_add_div k r x
  have hx := Nat.mul_div_le x k
  obtain ⟨d, hd⟩ := Nat.exists_eq_add_of_lt h
  have hkd : d ≤ k * d := Nat.le_mul_of_pos_left d hk
  rw [hd, Nat.mul_succ, Nat.mul_add] at hx
  omega

/-- An update never exceeds both its inputs, also where `K` is 0. -/
theorem filterNext_le_max (k r x : Nat) : filterNext k r x ≤ max x r := by
  by_cases h : x / k < r / k
  · have hk : 0 < k := Nat.pos_of_ne_zero fun hk => by simp [hk] at h
    calc filterNext k r x ≤ k * (r / k) := filterNext_le hk h
      _ ≤ r := Nat.mul_div_le r k
      _ ≤ max x r := Nat.le_max_right x r
  · have hsum := filterNext_add_div k r x
    omega

/-! ### One DIM (42_dimming.md R150, R151) -/

/-- The filter state a DIM with sample `r` leaves. -/
def nextAvg (s : State) (r : U16) : U16 := BitVec.ofNat 16 (filterNext s.cfg.dimK.toNat r.toNat s.store.dimAvg.toNat)

/-- The state after a DIM with sample `r`. -/
def afterDim (s : State) (r : U16) : State :=
  { s with store := { s.store with
    dimAvg := nextAvg s r, nightMode := hysteresis s.cfg s.store.nightMode (hi16 (nextAvg s r)) } }

theorem exec_dim (s : State) (r : U16) : exec (.dim r) s = .next (afterDim s r) := rfl

@[simp] theorem afterDim_cfg (s : State) (r : U16) : (afterDim s r).cfg = s.cfg := rfl

/-- 42_dimming.md R152 (a): the register holds the exact integer. -/
theorem nextAvg_toNat (s : State) (r : U16) :
    (nextAvg s r).toNat = filterNext s.cfg.dimK.toNat r.toNat s.store.dimAvg.toNat := by
  have hmax := filterNext_le_max s.cfg.dimK.toNat r.toNat s.store.dimAvg.toNat
  rw [nextAvg, BitVec.toNat_ofNat, Nat.mod_eq_of_lt]
  omega

@[simp] theorem afterDim_dimAvg_toNat (s : State) (r : U16) :
    (afterDim s r).store.dimAvg.toNat = filterNext s.cfg.dimK.toNat r.toNat s.store.dimAvg.toNat := nextAvg_toNat s r

theorem hysteresis_of_lt {c : Cfg} {level : Byte} (h : level < c.dimLower) : hysteresis c false level = true :=
  if_pos ⟨rfl, h⟩

theorem hysteresis_of_gt {c : Cfg} {level : Byte} (h : c.dimUpper < level) : hysteresis c true level = false := by
  rw [hysteresis, if_neg (by simp), if_pos ⟨rfl, h⟩]

theorem hysteresis_keeps {c : Cfg} {night : Bool} {level : Byte} (hday : ¬(night = false ∧ level < c.dimLower))
    (hnight : ¬(night = true ∧ c.dimUpper < level)) : hysteresis c night level = night := by
  rw [hysteresis, if_neg hday, if_neg hnight]

/-- Settles O38: the next filter state is exact, and its high byte is the level the hysteresis compares. -/
theorem dimUpdatesFilterAndNightMode : Obligations.DimUpdatesFilterAndNightMode := by
  intro s r
  refine ⟨nextAvg s r, _, exec_dim s r, ?_, ?_⟩
  · rw [nextAvg_toNat, filterNext_eq_int]
  · rw [← hi16_toNat, ← BitVec.lt_def, ← BitVec.lt_def]
    exact ⟨fun hday hlt => hday ▸ hysteresis_of_lt hlt, fun hnight hgt => hnight ▸ hysteresis_of_gt hgt,
      hysteresis_keeps⟩

theorem dimK_pos {c : Cfg} (hw : c.WellFormed) : 0 < c.dimK.toNat := by
  obtain ⟨hranges, -⟩ := hw
  obtain ⟨-, hk, -⟩ := (rangesOk_iff c).mp hranges
  exact hk

/-- Settles O39: the filter's laws on the state DIM leaves. -/
theorem filterLaws : Obligations.FilterLaws := by
  intro s t r hw hexec k q x y
  have hk : 0 < k := dimK_pos hw
  obtain rfl : afterDim s r = t := Host.Outcome.next.inj hexec
  have hy : y = filterNext k r.toNat x := afterDim_dimAvg_toNat s r
  rw [hy]
  exact ⟨filterNext_eq_int _ _ _, (filterNext_eq_iff _ _ _).trans (div_eq_iff_mem_range hk _ _),
    fun hbelow => ⟨lt_filterNext hbelow, filterNext_le hk hbelow⟩,
    fun habove => ⟨le_filterNext hk habove, filterNext_lt habove⟩⟩

/-! ### Convergence under a constant sample (42_dimming.md R152 (c)) -/

/-- How far `x` lies outside `[K*q, K*q+K-1]`; of the two differences at most one is not 0. -/
def settleDist (k q x : Nat) : Nat := (k * q - x) + (x - (k * q + k - 1))

theorem settleDist_eq_zero_iff {k : Nat} (hk : 0 < k) (q x : Nat) : settleDist k q x = 0 ↔ x / k = q := by
  rw [div_eq_iff_mem_range hk, settleDist]
  omega

/-- The bound on the number of updates, since `K*q` is at most the sample. -/
theorem settleDist_le_max (k r x : Nat) : settleDist k (r / k) x ≤ max x r := by
  have hq : k * (r / k) ≤ r := Nat.mul_div_le r k
  rw [settleDist]
  omega

/-- Each update brings a value outside the range nearer by at least 1. -/
theorem settleDist_filterNext_le {k : Nat} (hk : 0 < k) (r x : Nat) :
    settleDist k (r / k) (filterNext k r x) ≤ settleDist k (r / k) x - 1 := by
  obtain hbelow | hin | habove := Nat.lt_trichotomy (x / k) (r / k)
  · have hrise := lt_filterNext hbelow
    have hstop := filterNext_le hk hbelow
    simp only [settleDist]
    omega
  · have hzero := (settleDist_eq_zero_iff hk _ x).mpr hin
    rw [(filterNext_eq_iff k r x).mpr hin]
    omega
  · have hfall := filterNext_lt habove
    have hstop := le_filterNext hk habove
    simp only [settleDist]
    omega

/-- The filter state after `n` updates with the sample `r`, counted as `execTimes` counts. -/
def filterTimes (k r : Nat) : Nat → Nat → Nat
  | 0, x => x
  | n + 1, x => filterTimes k r n (filterNext k r x)

theorem filterTimes_zero (k r x : Nat) : filterTimes k r 0 x = x := rfl

theorem filterTimes_succ (k r n x : Nat) : filterTimes k r (n + 1) x = filterTimes k r n (filterNext k r x) := rfl

theorem filterTimes_add (k r m n x : Nat) :
    filterTimes k r (m + n) x = filterTimes k r m (filterTimes k r n x) := by
  induction n generalizing x with
  | zero => rw [Nat.add_zero, filterTimes_zero]
  | succ n ih => rw [← Nat.add_assoc, filterTimes_succ, filterTimes_succ, ih]

/-- A value in the range stays (42_dimming.md R152 (b)). -/
theorem filterTimes_of_div_eq {k r x : Nat} (h : x / k = r / k) (n : Nat) : filterTimes k r n x = x := by
  induction n with
  | zero => rw [filterTimes_zero]
  | succ n ih => rw [filterTimes_succ, (filterNext_eq_iff k r x).mpr h, ih]

theorem settleDist_filterTimes_le {k : Nat} (hk : 0 < k) (r n x : Nat) :
    settleDist k (r / k) (filterTimes k r n x) ≤ settleDist k (r / k) x - n := by
  induction n generalizing x with
  | zero => exact Nat.le_refl _
  | succ n ih =>
    have hstep := settleDist_filterNext_le hk r x
    have hrest := ih (filterNext k r x)
    rw [filterTimes_succ]
    omega

/-- After as many updates as the start is away from the range, the filter is in it. -/
theorem exists_filterTimes_div_eq {k : Nat} (hk : 0 < k) (r x : Nat) :
    ∃ n, n ≤ max x r ∧ filterTimes k r n x / k = r / k := by
  have hdist := settleDist_filterTimes_le hk r (settleDist k (r / k) x) x
  rw [Nat.sub_self] at hdist
  exact ⟨_, settleDist_le_max k r x, (settleDist_eq_zero_iff hk _ _).mp (Nat.le_zero.mp hdist)⟩

/-- Once in the range the filter keeps its value. -/
theorem filterTimes_of_le {k r x n m : Nat} (h : filterTimes k r n x / k = r / k) (hm : n ≤ m) :
    filterTimes k r m x = filterTimes k r n x := by
  obtain ⟨d, rfl⟩ := Nat.exists_eq_add_of_le' hm
  rw [filterTimes_add, filterTimes_of_div_eq h]

/-- `n` DIMs with one sample are `n` updates of the filter. -/
theorem execTimes_dim (r : U16) (n : Nat) (s : State) :
    ∃ t, execTimes (.dim r) n s = .next t ∧
      t.store.dimAvg.toNat = filterTimes s.cfg.dimK.toNat r.toNat n s.store.dimAvg.toNat := by
  induction n generalizing s with
  | zero => exact ⟨s, rfl, rfl⟩
  | succ n ih =>
    obtain ⟨t, hexec, havg⟩ := ih (afterDim s r)
    rw [afterDim_cfg, afterDim_dimAvg_toNat, ← filterTimes_succ] at havg
    exact ⟨t, hexec, havg⟩

/-- Settles O40: the filter reaches its range within 65535 DIMs, and then keeps its value. -/
theorem constantSampleSettlesTheFilter : Obligations.ConstantSampleSettlesTheFilter := by
  intro s r hw
  have hk := dimK_pos hw
  obtain ⟨n, hn, hin⟩ := exists_filterTimes_div_eq hk r.toNat s.store.dimAvg.toNat
  obtain ⟨u, -, hu⟩ := execTimes_dim r n s
  obtain ⟨hlow, hhigh⟩ := (div_eq_iff_mem_range hk _ _).mp (hu ▸ hin)
  refine ⟨n, u.store.dimAvg, by omega, hlow, hhigh, fun m hm => ?_⟩
  obtain ⟨t, hexec, ht⟩ := execTimes_dim r m s
  exact ⟨t, hexec, BitVec.eq_of_toNat_eq (by rw [ht, hu, filterTimes_of_le hin hm])⟩

end Sys2Proof.Machine
end

/-! PROOFS. The transmit schedule and the link deadline (43_schedule.md): the entries of a tick's groups are the frames of
`tickIds`, what the deadline does in each of its three cases, and the counter after several ticks. -/

namespace Sys2Proof.Machine

/-! ### The frames of one tick (43_schedule.md R161) -/

/-- The frames one tick with counter `n` queues. -/
def tickFrames (c : Cfg) (st : SignalStore) (n : Nat) : List CanFrame := (tickIds c n).filterMap (encodeFrame c st)

theorem tickIds_subset (c : Cfg) (n : Nat) :
    tickIds c n ⊆ [c.idSIgn, c.idSWheel, c.idSGear, c.idSDim, c.idSOdo, c.idSLang, c.idSCfg] := by
  intro id h
  simp only [tickIds, List.mem_append, List.mem_ite_nil_right] at h
  obtain ((⟨-, h⟩ | ⟨-, h⟩) | ⟨-, h⟩) | ⟨-, h⟩ := h <;> grind

theorem encodeFrame_isSome_of_mem_tickIds {c : Cfg} {n : Nat} {id : Ident} (h : id ∈ tickIds c n) (st : SignalStore) :
    (encodeFrame c st id).isSome :=
  Option.isSome_iff_ne_none.mpr fun hnone => (encodeFrame_eq_none_iff c st id).mp hnone (tickIds_subset c n h)

/-- Every scheduled identifier has its frame, so the tick skips none. -/
theorem tickFrames_map_some (c : Cfg) (st : SignalStore) (n : Nat) :
    (tickFrames c st n).map some = (tickIds c n).map (encodeFrame c st) := by
  rw [tickFrames, List.map_filterMap_some_eq_filter_map_isSome, List.filter_eq_self, List.forall_mem_map]
  exact fun _ hid => encodeFrame_isSome_of_mem_tickIds hid st

theorem flatMap_entryOf (c : Cfg) (st : SignalStore) (ids : List Ident) :
    ids.flatMap (entryOf c st) = (ids.filterMap (encodeFrame c st)).map (TxEntry.mk .slave) := by
  induction ids with
  | nil => rfl
  | cons id ids ih =>
    rw [List.flatMap_cons, ih, entryOf, List.filterMap_cons]
    cases encodeFrame c st id <;> rfl

theorem flatMap_ite_nil {α β : Type} (p : Prop) [Decidable p] (l : List α) (f : α → List β) :
    (if p then l else []).flatMap f = if p then l.flatMap f else [] := by
  split <;> rfl

theorem groupEntries_eq_map_tickFrames (count : Byte) (c : Cfg) (st : SignalStore) :
    groupEntries count c st = (tickFrames c st count.toNat).map (TxEntry.mk .slave) := by
  rw [tickFrames, ← flatMap_entryOf]
  simp [groupEntries, tickIds, flatMap_ite_nil]

/-! ### The deadline (43_schedule.md R162) -/

theorem waiting_iff (x : LinkState) : x.waiting = true ↔ x = .start ∨ x = .preamble ∨ x = .waitForCluster := by
  cases x <;> decide

@[simp] theorem linkDeadline_tickCnt (s : State) : (linkDeadline s).tickCnt = s.tickCnt := by
  obtain ⟨-, h⟩ | ⟨-, -, h⟩ | ⟨-, -, h⟩ := linkDeadline_cases s <;> simp [h]

/-! ### One TICK (43_schedule.md R160) -/

/-- The state TICK leaves. -/
def afterTick (s : State) : State := linkDeadline (withTickFrames s)

theorem exec_tick (s : State) : exec .tick s = .next (afterTick s) := exec_tick_eq s

@[simp] theorem afterTick_cfg (s : State) : (afterTick s).cfg = s.cfg := linkDeadline_cfg _

@[simp] theorem afterTick_tickCnt (s : State) : (afterTick s).tickCnt = nextTick s := linkDeadline_tickCnt _

theorem afterTick_of_not_counting {s : State} (h : ¬(s.cfg.waitLimit ≠ 0#16 ∧ s.lstate.waiting = true)) :
    afterTick s = withTickFrames s := if_neg h

theorem afterTick_of_lt {s : State} (h : s.cfg.waitLimit ≠ 0#16 ∧ s.lstate.waiting = true)
    (hlt : s.waitCnt.toNat + 1 < s.cfg.waitLimit.toNat) :
    afterTick s = { withTickFrames s with waitCnt := s.waitCnt + 1#16 } :=
  (if_pos h).trans (if_neg (Nat.not_le.mpr hlt))

theorem afterTick_of_le {s : State} (h : s.cfg.waitLimit ≠ 0#16 ∧ s.lstate.waiting = true)
    (hle : s.cfg.waitLimit.toNat ≤ s.waitCnt.toNat + 1) :
    afterTick s = raise .linkTimeout (linkRestart (withTickFrames s)) :=
  (if_pos h).trans (if_pos hle)

/-- DIV_D is at most 255, so the counter holds the remainder. -/
theorem nextTick_toNat {s : State} (hd : 0 < s.cfg.divD.toNat) :
    (nextTick s).toNat = (s.tickCnt.toNat + 1) % s.cfg.divD.toNat := by
  have hmod := Nat.mod_lt (s.tickCnt.toNat + 1) hd
  rw [nextTick, BitVec.toNat_ofNat, Nat.mod_eq_of_lt (Nat.lt_trans hmod s.cfg.divD.isLt)]

theorem withTickFrames_eq {s : State} (hd : 0 < s.cfg.divD.toNat) :
    withTickFrames s = { s with
      tickCnt := BitVec.ofNat 8 ((s.tickCnt.toNat + 1) % s.cfg.divD.toNat)
      txq := s.txq ++
        (tickFrames s.cfg s.store ((s.tickCnt.toNat + 1) % s.cfg.divD.toNat)).map (TxEntry.mk .slave) } := by
  rw [withTickFrames, groupEntries_eq_map_tickFrames, nextTick_toNat hd, nextTick]

/-- Settles O41: the deadline's three cases on the state with the tick's counter and frames. -/
theorem tickEmitsAndTimes : Obligations.TickEmitsAndTimes := by
  intro s hw n waiting
  have hwaiting : s.lstate.waiting = true ↔ waiting := waiting_iff s.lstate
  refine ⟨tickFrames s.cfg s.store n, tickFrames_map_some _ _ _, fun hidle => ?_, fun hlimit hcounts hlt => ?_,
    fun hlimit hcounts hle => ?_⟩ <;> rw [exec_tick]
  · have hnot : ¬(s.cfg.waitLimit ≠ 0#16 ∧ s.lstate.waiting = true) := fun ⟨hlimit, hcounts⟩ =>
      hidle.elim hlimit fun hnone => hnone (hwaiting.mp hcounts)
    rw [afterTick_of_not_counting hnot, withTickFrames_eq (divD_pos hw)]
  · rw [afterTick_of_lt ⟨hlimit, hwaiting.mpr hcounts⟩ hlt, withTickFrames_eq (divD_pos hw)]
  · rw [afterTick_of_le ⟨hlimit, hwaiting.mpr hcounts⟩ hle, withTickFrames_eq (divD_pos hw)]
    rfl

/-! ### Several TICKs in a row -/

theorem execTimes_succ {i : Instr} {s t : State} (h : exec i s = .next t) (n : Nat) :
    execTimes i (n + 1) s = execTimes i n t := by
  rw [execTimes, h]

/-- Settles O42, by induction on the number of ticks: each adds 1 modulo DIV_D. -/
theorem tickCounterCountsModuloDivD : Obligations.TickCounterCountsModuloDivD := by
  intro s n hw hlt
  induction n generalizing s with
  | zero => exact ⟨s, rfl, (Nat.mod_eq_of_lt hlt).symm⟩
  | succ n ih =>
    have hd := divD_pos hw
    obtain ⟨t, hexec, hcount⟩ := ih (afterTick s) (by rwa [afterTick_cfg]) (by simpa using nextTick_lt hd)
    rw [afterTick_cfg, afterTick_tickCnt, nextTick_toNat hd, Nat.mod_add_mod, Nat.add_assoc, Nat.add_comm 1 n] at hcount
    exact ⟨t, (execTimes_succ (exec_tick s) n).trans hexec, hcount⟩

end Sys2Proof.Machine

/-! PROOFS. The Link Protocol (44_link_protocol.md): which inbound frames the recognisers accept, the frames the six
actions send, one equation per state's action, the data chunk, and the transitions of the table. -/

namespace Sys2Proof.Machine

/-! ### The delivered frame (44_link_protocol.md R170, 40_decode.md R119) -/

/-- The frame a Link Protocol step gets: the RX frame, or none. -/
def deliveredFrame (frame : Bool) (s : State) : Option CanFrame := if frame then some (rxFrame s) else none

theorem exec_lstep (req : Bool) {frame : Bool} {s : State} (hf : FrameUsable frame s) :
    exec (.lstep req frame) s = finish (linkStep req (deliveredFrame frame s) s) := by
  cases frame with
  | false => rfl
  | true => exact exec_lstep_frame req (hf rfl)

theorem exec_lstep_of_ok {req frame : Bool} {s t : State} (hf : FrameUsable frame s)
    (h : linkStep req (deliveredFrame frame s) s = .ok t) : exec (.lstep req frame) s = .next t := by
  rw [exec_lstep req hf, h]
  rfl

/-- LSTEP and a forwarded MFRAME run the same step. -/
theorem exec_of_linkStepOf {i : Instr} {frame : Bool} {s : State} (hw : s.cfg.WellFormed) (hi : LinkStepOf i frame s)
    (hf : FrameUsable frame s) : ∃ req, exec i s = finish (linkStep req (deliveredFrame frame s) s) := by
  obtain ⟨req, rfl⟩ | ⟨rfl, rfl, hid⟩ := hi
  · exact ⟨req, exec_lstep req hf⟩
  · exact ⟨false, exec_mframe_link hw (hf rfl) hid⟩

/-! ### The recognisers (30_encoding.md R96) -/

/-- What the three acknowledgements (a)-(c) have in common: an identifier and a first byte. -/
def isAck (id : Ident) (b : Byte) (f : Option CanFrame) : Bool :=
  f.any fun f => 1 ≤ f.dlc.toNat && f.id == id && f.byte 0 == b

theorem isStartAck_eq (c : Cfg) (f : Option CanFrame) : isStartAck c f = isAck c.idLStart c.startAckB0 f := by
  cases f <;> rfl

theorem isPreambleAck_eq (c : Cfg) (f : Option CanFrame) : isPreambleAck c f = isAck c.idLAck c.preAckB0 f := by
  cases f <;> rfl

theorem isChunkAck_eq (c : Cfg) (q : Nibble) (f : Option CanFrame) :
    isChunkAck c q f = isAck c.idLAck (ackByte c q) f := by
  cases f <;> rfl

theorem isAck_deliveredFrame (id : Ident) (b : Byte) (frame : Bool) (s : State) :
    isAck id b (deliveredFrame frame s) = true ↔ Delivers frame id s ∧ s.rxData[0] = b := by
  cases frame with
  | false => simp [isAck, deliveredFrame]
  | true =>
    change (decide (1 ≤ s.rxDlc.toNat) && s.rxId == id && (rxFrame s).byte 0 == b) = true ↔ _
    rw [rxFrame_byte_zero]
    simp [and_assoc]

theorem ackByte_eq (c : Cfg) (q : Nibble) : ackByte c q = c.ackMark ||| BitVec.ofNat 8 q.toNat := by
  rw [BitVec.ofNat_toNat, ackByte]

theorem highNibble_eq_iff (v : Byte) (n : Nibble) : v.extractLsb' 4 4 = n ↔ v.toNat / 16 = n.toNat := by
  have hv := v.isLt
  rw [← BitVec.toNat_inj, BitVec.extractLsb'_toNat, Nat.shiftRight_eq_div_pow]
  omega

/-- The received sequence is the low nibble of a close frame's first byte (30_encoding.md R96 (d)). -/
theorem closeSeq_deliveredFrame (frame : Bool) (s : State) :
    closeSeq s.cfg (deliveredFrame frame s) =
      if DeliversClose frame s then some (BitVec.ofNat 4 (s.rxData[0].toNat % 16)) else none := by
  cases frame with
  | false => simp [closeSeq, deliveredFrame]
  | true =>
    change (if decide (1 ≤ s.rxDlc.toNat) && s.rxId == s.cfg.idLAck &&
      ((rxFrame s).byte 0).extractLsb' 4 4 == s.cfg.closeNib then
        some (((rxFrame s).byte 0).extractLsb' 0 4) else none) = _
    rw [rxFrame_byte_zero, extractLsb'_zero_four]
    simp [and_assoc, highNibble_eq_iff]

/-! ### The frames without a chunk (30_encoding.md R95 (a), (b), (d), (e)) -/

theorem toList_eq_ofFn {n : Nat} (v : Vector Byte n) : v.toList = List.ofFn fun i : Fin n => v[i.val] := by
  rw [← Vector.toList_ofFn, Vector.ofFn_getElem]

theorem openFrame_eq (c : Cfg) :
    openFrame c = ⟨c.idLOpen, 3#4, #v[c.openData[0], c.openData[1], c.openData[2], 0#8, 0#8, 0#8, 0#8, 0#8]⟩ := by
  rw [openFrame, toList_eq_ofFn]
  rfl

theorem preambleFrame_eq (c : Cfg) :
    preambleFrame c = ⟨c.idLPre, 6#4, #v[c.preData[0], c.preData[1], c.preData[2], c.preData[3], c.preData[4],
      c.preData[5], 0#8, 0#8]⟩ := by
  rw [preambleFrame, toList_eq_ofFn]
  rfl

theorem closeFrame_eq (c : Cfg) :
    closeFrame c = ⟨c.idLClose, 1#4, #v[c.closeData, 0#8, 0#8, 0#8, 0#8, 0#8, 0#8, 0#8]⟩ := rfl

/-- The acknowledged sequence is the received one plus 1, modulo 16. -/
theorem closeAckFrame_eq (c : Cfg) (n : Nat) :
    closeAckFrame c (BitVec.ofNat 4 (n % 16)) =
      ⟨c.idLData, 1#4, #v[c.ackMark ||| BitVec.ofNat 8 ((n % 16 + 1) % 16), 0#8, 0#8, 0#8, 0#8, 0#8, 0#8, 0#8]⟩ := by
  have hnext : (BitVec.ofNat 4 (n % 16) + 1#4).toNat = (n % 16 + 1) % 16 := by
    simp
  rw [closeAckFrame, ackByte_eq, hnext]
  rfl

/-! ### One state's action (44_link_protocol.md R171) -/

section
variable {s : State} (req : Bool) (f : Option CanFrame)

theorem linkStep_of_idle (hl : s.lstate = .idle) : linkStep req f s = .ok (linkIdle req s) := by rw [linkStep, hl]

theorem linkStep_of_start (hl : s.lstate = .start) : linkStep req f s = .ok (linkStart f s) := by rw [linkStep, hl]

theorem linkStep_of_preamble (hl : s.lstate = .preamble) : linkStep req f s = .ok (linkPreamble f s) := by
  rw [linkStep, hl]

theorem linkStep_of_info (hl : s.lstate = .info) : linkStep req f s = linkInfo f s := by rw [linkStep, hl]

theorem linkStep_of_wait (hl : s.lstate = .waitForCluster) : linkStep req f s = .ok (linkWait f s) := by
  rw [linkStep, hl]

theorem linkStep_of_stop (hl : s.lstate = .stop) : linkStep req f s = .ok (linkStop s) := by rw [linkStep, hl]

end

/-- Settles O44: the request alone decides, and the delivered frame is not looked at. -/
theorem linkIdleAction : Obligations.LinkIdleAction := by
  intro s req frame hl hf
  rw [exec_lstep_of_ok hf (linkStep_of_idle req _ hl)]
  refine ⟨?_, ?_⟩ <;> rintro rfl
  · rw [linkIdle, if_pos rfl, openFrame_eq]
    rfl
  · rfl

/-- Settles O45: the start-ack recogniser decides. -/
theorem linkStartAction : Obligations.LinkStartAction := by
  intro s req frame hl hf
  have hack := isAck_deliveredFrame s.cfg.idLStart s.cfg.startAckB0 frame s
  rw [exec_lstep_of_ok hf (linkStep_of_start req _ hl), linkStart, isStartAck_eq]
  refine ⟨fun h => ?_, fun h => ?_⟩
  · rw [if_pos (hack.mpr h), preambleFrame_eq]
    rfl
  · rw [if_neg (mt hack.mp h)]

/-- Settles O46: the preamble-ack recogniser decides, whatever the buffer holds. -/
theorem linkPreambleAction : Obligations.LinkPreambleAction := by
  intro s req frame hl hf
  have hack := isAck_deliveredFrame s.cfg.idLAck s.cfg.preAckB0 frame s
  rw [exec_lstep_of_ok hf (linkStep_of_preamble req _ hl), linkPreamble, isPreambleAck_eq]
  refine ⟨fun h => ?_, fun h => ?_⟩
  · rw [if_pos (hack.mpr h)]
    rfl
  · rw [if_neg (mt hack.mp h)]

/-- Settles O49: the chunk-ack recogniser decides, for the counter's value alone. -/
theorem linkWaitAction : Obligations.LinkWaitAction := by
  intro s req frame hl hf
  rw [exec_lstep_of_ok hf (linkStep_of_wait req _ hl), linkWait, isChunkAck_eq, ackByte_eq]
  have hack := isAck_deliveredFrame s.cfg.idLAck (s.cfg.ackMark ||| BitVec.ofNat 8 s.seq.toNat) frame s
  refine ⟨fun h => ?_, fun h => ?_⟩
  · rw [if_pos (hack.mpr h)]
    rfl
  · rw [if_neg (mt hack.mp h)]

/-- Settles O50: the Stop action has one outcome, and LRESET is `linkRestart`. -/
theorem linkStopActionAndRestart : Obligations.LinkStopActionAndRestart := by
  refine fun s req frame => ⟨fun hl hf => ?_, rfl⟩
  rw [exec_lstep_of_ok hf (linkStep_of_stop req _ hl), linkStop, closeFrame_eq]
  rfl

/-! ### The Info action (44_link_protocol.md R177) -/

theorem linkInfo_of_close {frame : Bool} {s : State} (h : DeliversClose frame s) :
    linkInfo (deliveredFrame frame s) s =
      .ok (setState .stop
        (transmit .master (closeAckFrame s.cfg (BitVec.ofNat 4 (s.rxData[0].toNat % 16))) s)) := by
  rw [linkInfo, closeSeq_deliveredFrame, if_pos h]

theorem linkInfo_of_not_close {frame : Bool} {s : State} (h : ¬DeliversClose frame s) :
    linkInfo (deliveredFrame frame s) s = if s.bufLen = 0#16 then .ok (raise .bufEmpty s) else sendChunk s := by
  rw [linkInfo, closeSeq_deliveredFrame, if_neg h]

/-- Settles O47: the close test comes first, then the test for an empty buffer. -/
theorem linkInfoCloseAndEmpty : Obligations.LinkInfoCloseAndEmpty := by
  intro s req frame hl hf
  rw [exec_lstep req hf, linkStep_of_info req _ hl]
  refine ⟨fun hclose => ?_, fun hclose hempty => ?_⟩
  · rw [linkInfo_of_close hclose, closeAckFrame_eq]
    rfl
  · rw [linkInfo_of_not_close hclose, if_pos hempty]
    rfl

/-! ### The data chunk (44_link_protocol.md R173, 45_frame_buffer.md R192) -/

/-- The frame that carries the next chunk. -/
def chunkFrame (s : State) : CanFrame :=
  dataFrame s.cfg s.seq ⟨Vector.ofFn fun i => s.buf.read (s.cursor.toNat + i.val), chunkLength s, chunkIsLast s⟩

theorem chunkIsLast_iff (s : State) : chunkIsLast s = true ↔ LastChunk s := decide_eq_true_iff

theorem chunkLength_eq_nextLen (s : State) : chunkLength s = nextLen s := by
  simp only [chunkLength, nextLen, chunkIsLast_iff]

theorem nextLen_le (s : State) : nextLen s ≤ 8 := chunkLength_eq_nextLen s ▸ chunkLength_le s

theorem nextLen_pos (s : State) : 1 ≤ nextLen s := chunkLength_eq_nextLen s ▸ chunkLength_pos s

theorem chunkFrame_eq (s : State) :
    chunkFrame s = mkFrame s.cfg.idLData (nextLen s)
      (put (Vector.ofFn fun i => s.buf.read (s.cursor.toNat + i.val)) 0 (leadByte s.cfg (chunkIsLast s) s.seq)) := by
  rw [chunkFrame, dataFrame, chunkLength_eq_nextLen]

@[simp] theorem chunkFrame_id (s : State) : (chunkFrame s).id = s.cfg.idLData := rfl

@[simp] theorem chunkFrame_dlc_toNat (s : State) : (chunkFrame s).dlc.toNat = nextLen s := by
  have hle := nextLen_le s
  rw [chunkFrame_eq, mkFrame_dlc, BitVec.toNat_ofNat]
  omega

/-- Markers and sequence numbers fit the byte (30_encoding.md R97). -/
theorem leadByte_toNat (c : Cfg) (last : Bool) (q : Nibble) :
    (leadByte c last q).toNat = (if last then c.mkLast.toNat else c.mkMore.toNat) * 16 + q.toNat := by
  have hlast := c.mkLast.isLt
  have hmore := c.mkMore.isLt
  have hq := q.isLt
  rw [leadByte, BitVec.toNat_ofNat]
  split <;> omega

theorem chunkFrame_byte_zero_toNat (s : State) :
    ((chunkFrame s).byte 0).toNat =
      (if LastChunk s then s.cfg.mkLast.toNat else s.cfg.mkMore.toNat) * 16 + s.seq.toNat := by
  rw [chunkFrame_eq, mkFrame_byte_of_lt _ (nextLen_pos s), put_getD_same _ (by decide), leadByte_toNat]
  simp only [chunkIsLast_iff]

theorem chunkFrame_byte_of_lt {s : State} {j : Nat} (hpos : 1 ≤ j) (hlt : j < nextLen s) :
    (chunkFrame s).byte j = s.buf.read (s.cursor.toNat + j) := by
  have hj : j < 8 := Nat.lt_of_lt_of_le hlt (nextLen_le s)
  rw [chunkFrame_eq, mkFrame_byte_of_lt _ hlt, put_getD_ne _ (Nat.ne_of_gt hpos)]
  simp [Vector.getD, hj]

theorem chunkFrame_byte_of_le {s : State} {j : Nat} (hle : nextLen s ≤ j) : (chunkFrame s).byte j = 0#8 := by
  rw [chunkFrame_eq, mkFrame_byte, if_neg (Nat.not_lt.mpr hle)]

/-- The state a sent chunk leaves. -/
def afterChunk (s : State) : State :=
  { s with
    txq := s.txq ++ [⟨.master, chunkFrame s⟩]
    seq := s.seq + 1#4
    cursor := if chunkIsLast s then 0#16 else s.cursor + 8#16
    lstate := if chunkIsLast s then s.lstate else .waitForCluster
    waitCnt := if chunkIsLast s then s.waitCnt else 0#16 }

theorem afterChunk_of_last {s : State} (h : LastChunk s) :
    afterChunk s = { s with txq := s.txq ++ [⟨.master, chunkFrame s⟩], seq := s.seq + 1#4, cursor := 0#16 } := by
  simp only [afterChunk, if_pos ((chunkIsLast_iff s).mpr h)]

theorem afterChunk_of_not_last {s : State} (h : ¬LastChunk s) :
    afterChunk s = { s with
      txq := s.txq ++ [⟨.master, chunkFrame s⟩], seq := s.seq + 1#4, cursor := s.cursor + 8#16
      lstate := .waitForCluster, waitCnt := 0#16 } := by
  simp only [afterChunk, if_neg (mt (chunkIsLast_iff s).mp h)]

theorem sendChunk_eq {s : State} (h : s.cursor.toNat + 7 < s.cfg.bufCap) : sendChunk s = .ok (afterChunk s) := by
  obtain ⟨t, ht⟩ := sendChunk_of_inRange h
  obtain ⟨-, rfl⟩ := sendChunk_ok ht
  exact ht

theorem linkStep_sends_chunk (req : Bool) {frame : Bool} {s : State} (hl : s.lstate = .info)
    (hclose : ¬DeliversClose frame s) (hlen : s.bufLen ≠ 0#16) (hcursor : s.cursor.toNat + 7 < s.cfg.bufCap) :
    linkStep req (deliveredFrame frame s) s = .ok (afterChunk s) := by
  rw [linkStep_of_info req _ hl, linkInfo_of_not_close hclose, if_neg hlen, sendChunk_eq hcursor]

/-- Settles O48: the frame is `chunkFrame`, and the two places after it are those of `afterChunk`. -/
theorem linkInfoSendsAChunk : Obligations.LinkInfoSendsAChunk := by
  intro s req frame hl hf hclose hlen hcursor
  rw [exec_lstep_of_ok hf (linkStep_sends_chunk req hl hclose hlen hcursor)]
  refine ⟨chunkFrame s, rfl, chunkFrame_dlc_toNat s, chunkFrame_byte_zero_toNat s,
    fun _ => chunkFrame_byte_of_lt, fun _ => chunkFrame_byte_of_le, fun hlast => ?_, fun hmore => ?_⟩
  · rw [afterChunk_of_last hlast]
  · rw [afterChunk_of_not_last hmore]

/-! ### The restart of the stream (44_link_protocol.md R182) -/

/-- A command that performs an Info step on a non-empty buffer without a close frame sends the next chunk. -/
theorem exec_sends_chunk {i : Instr} {frame : Bool} {s : State} (hw : s.cfg.WellFormed) (hi : LinkStepOf i frame s)
    (hf : FrameUsable frame s) (hl : s.lstate = .info) (hclose : ¬DeliversClose frame s) (hlen : s.bufLen ≠ 0#16)
    (hcursor : s.cursor.toNat + 7 < s.cfg.bufCap) : exec i s = .next (afterChunk s) := by
  obtain ⟨req, hexec⟩ := exec_of_linkStepOf hw hi hf
  rw [hexec, linkStep_sends_chunk req hl hclose hlen hcursor]
  rfl

theorem lastChunk_of_cursor_zero {s : State} (hc : s.cursor = 0#16) : LastChunk s ↔ s.bufLen.toNat ≤ 8 := by
  rw [LastChunk, hc]
  rfl

/-- Chunk 0 holds the whole buffer, up to eight bytes of it. -/
theorem nextLen_of_cursor_zero {s : State} (hc : s.cursor = 0#16) (hlen : s.bufLen ≠ 0#16) :
    nextLen s = if s.bufLen.toNat < 8 then s.bufLen.toNat else 8 := by
  have hpos : s.bufLen.toNat ≠ 0 := fun h => hlen (BitVec.eq_of_toNat_eq h)
  simp only [nextLen, lastChunk_of_cursor_zero hc]
  repeat' split
  all_goals omega

theorem cursor_zero_inRange {s : State} (hw : s.cfg.WellFormed) (hc : s.cursor = 0#16) :
    s.cursor.toNat + 7 < s.cfg.bufCap := by
  obtain ⟨⟨-, -, -, -, -, -, hcap, -⟩, -⟩ := hw
  rw [hc]
  exact hcap

/-- Settles O52: both steps send a chunk, the second from cursor 0, which lies in the buffer (00_scope.md R5). -/
theorem lastChunkIsFollowedByChunkZero : Obligations.LastChunkIsFollowedByChunkZero := by
  intro s i frame hw hi hl hlen hlast hcursor hf hclose
  refine ⟨⟨chunkFrame s, ?_⟩, fun t i' frame' hcfg hl' hc' hseq hbuf hbufLen hi' hf' hclose' => ?_⟩
  · rw [exec_sends_chunk hw hi hf hl hclose hlen hcursor, afterChunk_of_last hlast, ← hl]
  have hw' : t.cfg.WellFormed := hcfg ▸ hw
  have hlen' : t.bufLen ≠ 0#16 := hbufLen ▸ hlen
  have hlast' := lastChunk_of_cursor_zero hc'
  have hnext : s.seq + 2#4 = t.seq + 1#4 := by rw [hseq, BitVec.add_assoc]; rfl
  rw [exec_sends_chunk hw' hi' hf' hl' hclose' hlen' (cursor_zero_inRange hw' hc'), hnext, ← hbufLen, ← hcfg, ← hbuf]
  refine ⟨chunkFrame t, rfl, ?_, ?_, fun j hpos hlt => ?_, fun j hle => ?_, fun hshort => ?_, fun hlong => ?_⟩
  · rw [chunkFrame_dlc_toNat, nextLen_of_cursor_zero hc' hlen']
  · rw [chunkFrame_byte_zero_toNat, hseq, BitVec.toNat_add]
    simp only [hlast']
    rfl
  · rw [chunkFrame_byte_of_lt hpos (by rwa [chunkFrame_dlc_toNat] at hlt), hc']
    simp
  · exact chunkFrame_byte_of_le (by rwa [chunkFrame_dlc_toNat] at hle)
  · rw [afterChunk_of_last (hlast'.mpr hshort), ← hl']
  · rw [afterChunk_of_not_last (mt hlast'.mp (Nat.not_le.mpr hlong)), hc']
    rfl

/-! ### The transitions (44_link_protocol.md R181) -/

/-- The seven transitions a Link Protocol step can make. -/
def linkTransitions : List (LinkState × LinkState) :=
  [(.idle, .start), (.start, .preamble), (.preamble, .info), (.info, .stop), (.info, .waitForCluster),
    (.waitForCluster, .info), (.stop, .idle)]

theorem sendChunk_lstate {s t : State} (h : sendChunk s = .ok t) :
    t.lstate = s.lstate ∨ t.lstate = .waitForCluster := by
  obtain ⟨-, rfl⟩ := sendChunk_ok h
  cases chunkIsLast s <;> simp

/-- The Link state stays, or moves along the table. -/
def StaysOrMoves (s t : State) : Prop := t.lstate = s.lstate ∨ (s.lstate, t.lstate) ∈ linkTransitions

theorem StaysOrMoves.move {s t : State} {x : LinkState} (y : LinkState) (hs : s.lstate = x) (ht : t.lstate = y)
    (h : (x, y) ∈ linkTransitions) : StaysOrMoves s t := by
  subst hs ht
  exact .inr h

theorem linkStep_transition {req : Bool} {f : Option CanFrame} {s t : State} (h : linkStep req f s = .ok t) :
    StaysOrMoves s t := by
  obtain ⟨hl, -, rfl⟩ | ⟨-, -, rfl⟩ | ⟨hl, -, rfl⟩ | ⟨-, -, rfl⟩ | ⟨hl, -, rfl⟩ | ⟨-, -, rfl⟩ | ⟨hl, q, -, rfl⟩ |
    ⟨-, -, -, rfl⟩ | ⟨hl, -, -, hsend⟩ | ⟨hl, -, rfl⟩ | ⟨-, -, rfl⟩ | ⟨hl, rfl⟩ := linkStep_ok h
  · exact .move .start hl rfl (by decide)
  · exact .inl rfl
  · exact .move .preamble hl rfl (by decide)
  · exact .inl rfl
  · exact .move .info hl rfl (by decide)
  · exact .inl rfl
  · exact .move .stop hl rfl (by decide)
  · exact .inl rfl
  · obtain hsame | hwait := sendChunk_lstate hsend
    · exact .inl hsame
    · exact .move .waitForCluster hl hwait (by decide)
  · exact .move .info hl rfl (by decide)
  · exact .inl rfl
  · exact .move .idle hl rfl (by decide)

theorem exec_linkStep_transition {i : Instr} {s t : State} (h : exec i s = .next t) (hi : TakesLinkStep i s) :
    StaysOrMoves s t := by
  obtain ⟨frame, ⟨req, rfl⟩ | ⟨rfl, -⟩⟩ := hi
  · obtain rfl | hstep := exec_lstep_next h
    · exact .inl rfl
    · exact linkStep_transition hstep
  · obtain rfl | rfl | ⟨_, rfl, -⟩ | ⟨-, hstep⟩ | rfl := exec_mframe_next h
    any_goals exact .inl rfl
    exact linkStep_transition hstep

/-- Only LSTEP and MFRAME perform a Link Protocol step. -/
theorem TakesLinkStep.command {i : Instr} {s : State} (hi : TakesLinkStep i s) :
    i = .mframe ∨ ∃ req frame, i = .lstep req frame := by
  obtain ⟨frame, ⟨req, rfl⟩ | ⟨rfl, -⟩⟩ := hi
  · exact .inr ⟨req, frame, rfl⟩
  · exact .inl rfl

/-- Settles O51: by the effects of a command, `lstate` stays, takes a Link Protocol step, or goes back to Idle. -/
theorem linkTransitionsAreThoseOfTheTable : Obligations.LinkTransitionsAreThoseOfTheTable := by
  intro i s t h
  by_cases hi : i = .sreset
  · subst hi
    cases h
    exact .inr (.inl ⟨rfl, .inr (.inl rfl)⟩)
  obtain hsame | hstep | ⟨hrestart, hidle⟩ := (exec_effect h hi).lstate_cases
  · exact .inl hsame
  · exact (exec_linkStep_transition h hstep).imp_right fun hmove => .inr ⟨hstep.command, hmove⟩
  · obtain rfl | ⟨rfl, hlimit, hwaiting, -⟩ := hrestart
    · exact .inr (.inl ⟨hidle, .inl rfl⟩)
    · have hne : s.lstate ≠ .idle ∧ s.lstate ≠ .info ∧ s.lstate ≠ .stop := by
        refine ⟨?_, ?_, ?_⟩ <;> intro hl <;> simp [hl] at hwaiting
      exact .inr (.inl ⟨hidle, .inr (.inr ⟨rfl, hlimit, hne⟩)⟩)

end Sys2Proof.Machine

/-! PROOFS. The frame buffer (45_frame_buffer.md): what BCLR, BAPP and CHUNK answer in each case, and what several CHUNKs
in a row read, one chunk after the other. -/

namespace Sys2Proof.Machine

/-! ### The streaming states (45_frame_buffer.md R194) -/

theorem streaming_iff (x : LinkState) : x.streaming = true ↔ x = .info ∨ x = .waitForCluster := by
  cases x <;> simp [LinkState.streaming]

theorem streaming_eq_false {x : LinkState} (hinfo : x ≠ .info) (hwait : x ≠ .waitForCluster) : x.streaming = false :=
  Bool.eq_false_iff.mpr fun h => ((streaming_iff x).mp h).elim hinfo hwait

/-- Settles O53: the streaming test comes first in each of the three commands. -/
theorem streamingRefusesBufferCommands : Obligations.StreamingRefusesBufferCommands := by
  intro s i hl hi
  have hs := (streaming_iff s.lstate).mpr hl
  obtain rfl | rfl | ⟨b, rfl⟩ := hi
  · exact if_pos hs
  · exact if_pos hs
  · exact if_pos hs

/-! ### BCLR and BAPP (45_frame_buffer.md R190, R191) -/

theorem exec_bclr_of_not_streaming {s : State} (hs : s.lstate.streaming = false) :
    exec .bclr s = .next { s with bufLen := 0#16, cursor := 0#16 } :=
  if_neg (Bool.eq_false_iff.mp hs)

theorem exec_bapp_of_not_streaming {s : State} (hs : s.lstate.streaming = false) (b : Byte) :
    exec (.bapp b) s =
      if s.bufLen.toNat = s.cfg.bufCap then .next (raise .bufOvf s) else finish (appendByte b s) :=
  if_neg (Bool.eq_false_iff.mp hs)

theorem appendByte_of_lt {s : State} (h : s.bufLen.toNat < s.cfg.bufCap) (b : Byte) :
    appendByte b s = .ok { s with buf := s.buf.write s.bufLen.toNat b, bufLen := s.bufLen + 1#16 } := by
  simp [appendByte, bufWrite, h]

/-- Settles O54: the bytes after an append are those of the write at `bufLen`, by the laws of the cell list. -/
theorem bufferIsClearedAndAppendedTo : Obligations.BufferIsClearedAndAppendedTo := by
  intro s b
  refine ⟨fun hl => ⟨?_, ?_⟩, fun hinfo hwait => ?_⟩
  · exact streamingRefusesBufferCommands s .bclr hl (.inl rfl)
  · exact streamingRefusesBufferCommands s (.bapp b) hl (.inr (.inr ⟨b, rfl⟩))
  have hs := streaming_eq_false hinfo hwait
  refine ⟨exec_bclr_of_not_streaming hs, fun hfull => ?_, fun hroom hwf => ?_⟩
  · rw [exec_bapp_of_not_streaming hs, if_pos hfull]
    rfl
  refine ⟨s.buf.write s.bufLen.toNat b, ?_, Memory.wf_write hwf _ _, ?_, fun a ha => ?_⟩
  · rw [exec_bapp_of_not_streaming hs, if_neg (Nat.ne_of_lt hroom), appendByte_of_lt hroom]
    rfl
  · rw [Memory.read_write hwf, if_pos rfl]
  · rw [Memory.read_write hwf, if_neg (Ne.symm ha)]

/-! ### CHUNK (45_frame_buffer.md R193) -/

/-- The state a CHUNK leaves where it fetches. -/
def afterFetch (s : State) : State :=
  { s with
    chunkData := Vector.ofFn fun i => s.buf.read (s.cursor.toNat + i.val)
    chunkLen := BitVec.ofNat 4 (nextLen s)
    chunkLast := decide (LastChunk s)
    cursor := if LastChunk s then 0#16 else s.cursor + 8#16 }

theorem fetchChunk_of_inRange {s : State} (h : s.cursor.toNat + 7 < s.cfg.bufCap) :
    fetchChunk s = .ok (afterFetch s) := by
  rw [fetchChunk, nextChunk_of_inRange h]
  simp only [afterFetch, chunkLength_eq_nextLen, chunkIsLast_iff]
  rfl

theorem exec_chunk_of_not_streaming {s : State} (hs : s.lstate.streaming = false) :
    exec .chunk s = if s.bufLen = 0#16 then .next (raise .bufEmpty s) else finish (fetchChunk s) :=
  if_neg (Bool.eq_false_iff.mp hs)

theorem exec_chunk_fetches {s : State} (hs : s.lstate.streaming = false) (hlen : s.bufLen ≠ 0#16)
    (hcursor : s.cursor.toNat + 7 < s.cfg.bufCap) : exec .chunk s = .next (afterFetch s) := by
  rw [exec_chunk_of_not_streaming hs, if_neg hlen, fetchChunk_of_inRange hcursor]
  rfl

theorem afterFetch_chunkData (s : State) (j : Fin 8) :
    (afterFetch s).chunkData[j] = s.buf.read (s.cursor.toNat + j.val) := by
  simp [afterFetch]

theorem afterFetch_chunkLen_toNat (s : State) : (afterFetch s).chunkLen.toNat = nextLen s := by
  have hle := nextLen_le s
  change (BitVec.ofNat 4 (nextLen s)).toNat = _
  rw [BitVec.toNat_ofNat]
  omega

theorem afterFetch_chunkLast_iff (s : State) : (afterFetch s).chunkLast = true ↔ LastChunk s := decide_eq_true_iff

theorem afterFetch_cursor_toNat (s : State) :
    (afterFetch s).cursor.toNat = if LastChunk s then 0 else s.cursor.toNat + 8 := by
  change (if LastChunk s then 0#16 else s.cursor + 8#16).toNat = _
  split
  · rfl
  · next hmore => exact (cursor_advance (Bool.eq_false_iff.mpr (mt (chunkIsLast_iff s).mp hmore))).1

/-- Settles O55: outside streaming and with bytes in the buffer the state after CHUNK is `afterFetch`. -/
theorem chunkCopiesEightBytes : Obligations.ChunkCopiesEightBytes := by
  intro s
  refine ⟨fun hl => streamingRefusesBufferCommands s .chunk hl (.inr (.inl rfl)), fun hinfo hwait => ?_⟩
  have hs := streaming_eq_false hinfo hwait
  refine ⟨fun hempty => ?_, fun hlen hcursor => ?_⟩
  · rw [exec_chunk_of_not_streaming hs, if_pos hempty]
    rfl
  · exact ⟨(afterFetch s).chunkData, afterFetch_chunkData s, exec_chunk_fetches hs hlen hcursor⟩

/-! ### Commands in a row -/

theorem execTimes_succ_next {i : Instr} {n : Nat} {s t : State} (h : execTimes i (n + 1) s = .next t) :
    ∃ u, exec i s = .next u ∧ execTimes i n u = .next t := by
  rw [execTimes] at h
  split at h
  · next u hu => exact ⟨u, hu, h⟩
  · cases h
  · cases h

theorem execTimes_succ_last {i : Instr} {n : Nat} {s t : State} (h : execTimes i n s = .next t) :
    execTimes i (n + 1) s = exec i t := by
  induction n generalizing s with
  | zero =>
    cases h
    rw [execTimes]
    split <;> next hu => exact hu.symm
  | succ n ih =>
    obtain ⟨u, hu, hrest⟩ := execTimes_succ_next h
    rw [execTimes_succ hu, ih hrest]

theorem collectChunks_succ {s t : State} (h : exec .chunk s = .next t) (n : Nat) :
    collectChunks (n + 1) s = chunkBytes t ++ collectChunks n t := by
  rw [collectChunks, h]

/-- One CHUNK more collects that chunk's bytes behind the others. -/
theorem collectChunks_succ_last {n : Nat} {s t u : State} (ht : execTimes .chunk n s = .next t)
    (hu : exec .chunk t = .next u) : collectChunks (n + 1) s = collectChunks n s ++ chunkBytes u := by
  induction n generalizing s with
  | zero =>
    cases ht
    rw [collectChunks_succ hu]
    exact List.append_nil _
  | succ n ih =>
    obtain ⟨v, hv, hrest⟩ := execTimes_succ_next ht
    rw [collectChunks_succ hv, ih hrest, collectChunks_succ hv, List.append_assoc]

/-! ### Reading the whole buffer (45_frame_buffer.md R195) -/

/-- 00_scope.md R6 (i). -/
theorem bufCap_mod_eight {c : Cfg} (hc : c.WellFormed) : c.bufCap % 8 = 0 := by
  obtain ⟨-, -, -, -, -, -, -, -, -, hmod, -, -⟩ := hc
  exact hmod

/-- The buffer can be read in chunks from its start: the premises of R195, which a run of CHUNKs does not change but for
the cursor. -/
structure Readable (s : State) : Prop where
  wellFormed : s.cfg.WellFormed
  notStreaming : s.lstate.streaming = false
  fits : s.bufLen.toNat ≤ s.cfg.bufCap

/-- The number of chunks the buffer takes, ceil(N/8). -/
def chunkCount (s : State) : Nat := (s.bufLen.toNat + 7) / 8

/-- `t` holds the buffer of `s`, with the cursor on chunk `k` (counted from 0). -/
structure AtChunk (s : State) (k : Nat) (t : State) : Prop where
  cfg : t.cfg = s.cfg
  lstate : t.lstate = s.lstate
  buf : t.buf = s.buf
  bufLen : t.bufLen = s.bufLen
  cursor : t.cursor.toNat = 8 * k

namespace AtChunk

section
variable {s t : State} {k : Nat}

/-- Each chunk that the buffer takes lies below the capacity, which is a multiple of 8. -/
theorem exec_chunk (h : AtChunk s k t) (hr : Readable s) (hk : k < chunkCount s) :
    exec .chunk t = .next (afterFetch t) := by
  have hmod := bufCap_mod_eight hr.wellFormed
  have hfits := hr.fits
  unfold chunkCount at hk
  have hpos : 1 ≤ t.bufLen.toNat := by rw [h.bufLen]; omega
  have hcursor : t.cursor.toNat + 7 < t.cfg.bufCap := by rw [h.cursor, h.cfg]; omega
  exact exec_chunk_fetches (h.lstate ▸ hr.notStreaming) ((ne_zero_iff_one_le_toNat _).mpr hpos) hcursor

theorem lastChunk_iff (h : AtChunk s k t) (hk : k < chunkCount s) : LastChunk t ↔ k + 1 = chunkCount s := by
  rw [LastChunk, h.bufLen, h.cursor]
  unfold chunkCount at hk ⊢
  omega

theorem nextLen_eq (h : AtChunk s k t) (hk : k < chunkCount s) :
    nextLen t = if k + 1 = chunkCount s ∧ s.bufLen.toNat % 8 ≠ 0 then s.bufLen.toNat % 8 else 8 := by
  simp only [nextLen, h.lastChunk_iff hk, h.bufLen]
  repeat' split
  all_goals omega

/-- A chunk that is not the last moves the cursor to the next one. -/
theorem next (h : AtChunk s k t) (hk : k + 1 < chunkCount s) : AtChunk s (k + 1) (afterFetch t) where
  cfg := h.cfg
  lstate := h.lstate
  buf := h.buf
  bufLen := h.bufLen
  cursor := by
    have hmore : ¬LastChunk t := mt (h.lastChunk_iff (by omega)).mp (by omega)
    rw [afterFetch_cursor_toNat, if_neg hmore, h.cursor]
    omega

/-- The bytes that the chunk reports are those of the buffer, up to its end. -/
theorem chunkBytes_eq (h : AtChunk s k t) :
    chunkBytes (afterFetch t) = (List.range (nextLen t)).map fun j => s.buf.read (8 * k + j) := by
  have hle := nextLen_le t
  rw [chunkBytes, afterFetch_chunkLen_toNat, ← h.buf, ← h.cursor]
  refine List.ext_getElem (by simpa using hle) fun j _ _ => ?_
  simp [afterFetch]

end

end AtChunk

/-- By induction on the number of CHUNKs: up to the last chunk, each moves the cursor to the next one. -/
theorem execTimes_chunk_atChunk {s : State} (hr : Readable s) (hc : s.cursor = 0#16) {k : Nat} (hk : k < chunkCount s) :
    ∃ t, execTimes .chunk k s = .next t ∧ AtChunk s k t := by
  induction k with
  | zero => exact ⟨s, rfl, rfl, rfl, rfl, rfl, by rw [hc]; rfl⟩
  | succ k ih =>
    have hlt : k < chunkCount s := Nat.lt_of_succ_lt hk
    obtain ⟨t, hexec, hat⟩ := ih hlt
    exact ⟨afterFetch t, (execTimes_succ_last hexec).trans (hat.exec_chunk hr hlt), hat.next hk⟩

/-- By induction on the number of CHUNKs: `k` of them give the first `8 * k` bytes of the buffer, as far as it reaches. -/
theorem collectChunks_eq {s : State} (hr : Readable s) (hc : s.cursor = 0#16) {k : Nat} (hk : k ≤ chunkCount s) :
    collectChunks k s = (List.range (min (8 * k) s.bufLen.toNat)).map fun a => s.buf.read a := by
  induction k with
  | zero => simp [collectChunks]
  | succ k ih =>
    obtain ⟨t, hexec, hat⟩ := execTimes_chunk_atChunk hr hc hk
    have hlen := hat.nextLen_eq hk
    unfold chunkCount at hk hlen
    have hbefore : min (8 * k) s.bufLen.toNat = 8 * k := by omega
    have hafter : min (8 * (k + 1)) s.bufLen.toNat = 8 * k + nextLen t := by
      rw [hlen]
      split <;> omega
    rw [collectChunks_succ_last hexec (hat.exec_chunk hr hk), ih (Nat.le_of_lt hk), hat.chunkBytes_eq, hbefore, hafter,
      List.range_add, List.map_append, List.map_map]
    rfl

/-- Settles O56: the `k + 1`-th CHUNK fetches from the state at chunk `k`. -/
theorem chunkRoundTrip : Obligations.ChunkRoundTrip := by
  intro s hw hinfo hwait hc hlen hfits
  have hr : Readable s := ⟨hw, streaming_eq_false hinfo hwait, hfits⟩
  refine ⟨fun k hk => ?_, ?_⟩
  · obtain ⟨t, hexec, hat⟩ := execTimes_chunk_atChunk hr hc hk
    have hlast := hat.lastChunk_iff hk
    refine ⟨afterFetch t, (execTimes_succ_last hexec).trans (hat.exec_chunk hr hk), ?_, ?_, fun j => ?_, ?_⟩
    · exact (afterFetch_chunkLast_iff t).trans hlast
    · exact (afterFetch_chunkLen_toNat t).trans (hat.nextLen_eq hk)
    · rw [afterFetch_chunkData, hat.buf, hat.cursor]
    · simp only [afterFetch_cursor_toNat, hlast, hat.cursor]
      rfl
  · have hall : min (8 * chunkCount s) s.bufLen.toNat = s.bufLen.toNat := by
      unfold chunkCount
      omega
    have hread := collectChunks_eq hr hc (Nat.le_refl (chunkCount s))
    rwa [hall] at hread

end Sys2Proof.Machine

/-! PROOFS. The control commands (46_control.md): the next state of NOP and of ECLR, and ECLR's mask bit by bit. -/

namespace Sys2Proof.Machine

theorem exec_nop (s : State) : exec .nop s = .next s := rfl

theorem exec_eclr (m : U16) (s : State) : exec (.eclr m) s = .next { s with err := s.err &&& ~~~m } := rfl

/-- 46_control.md R201: a bit survives the mask's complement exactly when the mask does not select it. -/
theorem getLsbD_and_not {w k : Nat} (x m : BitVec w) (hk : k < w) :
    (x &&& ~~~m).getLsbD k = (x.getLsbD k && !m.getLsbD k) := by
  rw [BitVec.getLsbD_and, BitVec.getLsbD_not, decide_eq_true hk, Bool.true_and]

/-- Settles O57: ECLR's new `err` is `err` under the mask's complement, read bit by bit. -/
theorem nopAndEclr : Obligations.NopAndEclr := fun s m =>
  ⟨exec_nop s, s.err &&& ~~~m, exec_eclr m s, fun _ hk => getLsbD_and_not s.err m hk⟩

end Sys2Proof.Machine

/-! PROOFS. The exception rules (60_exceptions.md): no error stops the block, a command raises at most one error bit and
then changes nothing else, and what one transmit attempt does. -/

namespace Sys2Proof.Machine

/-! ### The block never stops (60_exceptions.md R213) -/

/-- Cursor and capacity are multiples of 8 and the cursor is below the capacity, so a whole chunk lies between them. -/
theorem cursor_inRange {s : State} (hw : s.cfg.WellFormed) (hb : BufferInv s) :
    s.cursor.toNat + 7 < s.cfg.bufCap := by
  obtain ⟨-, -, hlen, hmod, hzero | hlt⟩ := hb
  · exact cursor_zero_inRange hw hzero
  · have hcap := bufCap_mod_eight hw
    omega

theorem finish_of_ok {r : Except Fault State} {t : State} (h : r = .ok t) : finish r = .next t := by
  rw [h]
  rfl

/-- The only faults are of the frame buffer, and its invariant keeps every access inside it. -/
theorem exec_answers (i : Instr) {s : State} (hw : s.cfg.WellFormed) (hb : BufferInv s) : ∃ t, exec i s = .next t := by
  have hcursor := cursor_inRange hw hb
  have hlink (req : Bool) (f : Option CanFrame) : ∃ t, finish (linkStep req f s) = .next t :=
    (linkStep_total fun _ => hcursor).imp fun _ => finish_of_ok
  cases i with
  | nop | tick | dim _ | lreset | eclr _ | sreset => exact ⟨_, rfl⟩
  | mframe =>
    simp only [exec, execMframe]
    repeat' split
    any_goals exact ⟨_, rfl⟩
    exact hlink _ _
  | sframe | enc _ | bclr =>
    simp only [exec, execSframe, execEnc, execBclr]
    split <;> exact ⟨_, rfl⟩
  | lstep req frame =>
    simp only [exec, execLstep]
    split
    · exact ⟨_, rfl⟩
    · exact hlink _ _
  | bapp b =>
    simp only [exec, execBapp]
    split
    · exact ⟨_, rfl⟩
    split
    · exact ⟨_, rfl⟩
    · next hroom =>
      obtain ⟨-, -, hlen, -, -⟩ := hb
      exact ⟨_, finish_of_ok (appendByte_of_lt (Nat.lt_of_le_of_ne hlen hroom) b)⟩
  | chunk =>
    simp only [exec, execChunk]
    split
    · exact ⟨_, rfl⟩
    split
    · exact ⟨_, rfl⟩
    · exact ⟨_, finish_of_ok (fetchChunk_of_inRange hcursor)⟩

theorem execute_answers (w : Word) {s : State} (hw : s.cfg.WellFormed) (hb : BufferInv s) :
    ∃ t, execute w s = .next t := by
  obtain ⟨-, h⟩ | ⟨-, -, h⟩ | ⟨-, i, -, h⟩ := execute_cases w s <;> rw [h]
  · exact ⟨_, rfl⟩
  · exact ⟨_, rfl⟩
  · exact exec_answers i hw hb

theorem perform_answers (i : Input) {s : State} (hw : s.cfg.WellFormed) (hb : BufferInv s) :
    ∃ t, perform i s = .next t := by
  cases i with
  | write a v =>
    change ∃ t, regWrite a v s = .next t
    unfold regWrite
    split
    · exact execute_answers _ (s := clearStage s) hw hb
    · exact ⟨_, rfl⟩
  | read a | attempt accepted | powerOnReset => exact ⟨_, rfl⟩

/-- Settles O17: of the invariant it takes the well-formed configuration and the buffer's part, which no input list
touches. -/
theorem invariantStatesNeverStop : Obligations.InvariantStatesNeverStop := by
  rintro s ⟨hw, hb, -⟩
  change ∃ t, stepBlock s = .next t
  obtain ⟨hn, -⟩ | ⟨-, -, h⟩ | ⟨-, i, rest, -, h⟩ := stepBlock_cases s
  · exact absurd hw hn
  · exact ⟨s, h⟩
  · rw [h]
    exact perform_answers i (s := { s with inputs := rest }) hw hb

/-! ### One error per command (60_exceptions.md R214, R215) -/

/-- TX_FAIL is in no command's row of 60_exceptions.md R210. -/
theorem txFail_not_raisable (i : Instr) : Err.mask .txFail &&& raisable i = 0#16 := by
  cases i <;> simp only [raisable] <;> rfl

/-- The errors of commands are the bits 0 to 8. -/
theorem bit_lt_of_raisable {e : Err} {i : Instr} (he : e.mask &&& raisable i = e.mask) : e.bit < 9 := by
  cases e with
  | txFail => exact absurd ((txFail_not_raisable i).symm.trans he) (by decide)
  | _ => decide

/-- A Link Protocol step that sets a bit found the buffer empty and left the rest alone (44_link_protocol.md R177). -/
theorem LinkEffect.eq_of_err_ne {s t : State} (h : LinkEffect s t) (hne : t.err ≠ s.err) :
    t = { s with err := t.err } := by
  cases h with
  | bufEmpty => rfl
  | same | moved | answered | closed | chunkSent => exact absurd rfl hne

/-- ECLR apart, only TICK sets a bit and does something beside: its deadline restarts the Link Protocol. -/
theorem ExecEffect.eq_of_err_ne {i : Instr} {s t : State} (h : ExecEffect i s t) (hi : ∀ m, i ≠ .eclr m)
    (htick : i ≠ .tick) (hne : t.err ≠ s.err) : t = { s with err := t.err } := by
  cases h with
  | raised => rfl
  | linkStep _ ht => exact ht.eq_of_err_ne hne
  | expired => exact absurd rfl htick
  | cleared => exact absurd rfl (hi _)
  | _ => exact absurd rfl hne

/-- Settles O22: a command raises one error of its own or none, and the effects that raise write nothing else. -/
theorem oneErrorPerCommand : Obligations.OneErrorPerCommand := by
  intro i s t hexec hsreset heclr
  have h := exec_effect hexec hsreset
  refine ⟨(h.err_cases heclr).imp_right ?_, h.eq_of_err_ne heclr⟩
  rintro ⟨e, he, herr⟩
  exact ⟨e.bit, bit_lt_of_raisable he, herr⟩

/-! ### Transmit attempts (60_exceptions.md R216) -/

theorem attempt_rejected_drops {s : State} {e : TxEntry} {q : List TxEntry} (hq : s.txq = e :: q)
    (hlimit : s.cfg.txRetryLimit ≠ 0#16) (hlast : s.cfg.txRetryLimit.toNat ≤ s.txTries.toNat + 1) :
    attempt false s = { s with txq := q, txTries := 0#16, err := s.err ||| Err.mask .txFail } := by
  simp [attempt, hq, hlimit, hlast, raise]

theorem attempt_rejected_counts {s : State} {e : TxEntry} {q : List TxEntry} (hq : s.txq = e :: q)
    (hmore : s.cfg.txRetryLimit = 0#16 ∨ s.txTries.toNat + 1 < s.cfg.txRetryLimit.toNat) :
    attempt false s = { s with txTries := if s.txTries = 0xFFFF#16 then s.txTries else s.txTries + 1#16 } := by
  have hkeep : ¬(s.cfg.txRetryLimit ≠ 0#16 ∧ s.cfg.txRetryLimit.toNat ≤ s.txTries.toNat + 1) :=
    fun ⟨hne, hle⟩ => hmore.elim hne (Nat.not_lt.mpr hle)
  simp only [attempt, hq]
  rw [if_neg Bool.false_ne_true, if_neg hkeep]

/-- Settles O23: the three outcomes of an attempt on a queue with a head, by the limit and the count as numbers. -/
theorem transmitAttempt : Obligations.TransmitAttempt := by
  intro s accepted rest e q hw hi hq
  refine ⟨?_, ?_, ?_⟩
  · rintro rfl
    exact step_attempt_accepted hw hi hq
  · rintro rfl hlimit hlast
    have hne : s.cfg.txRetryLimit ≠ 0#16 := fun h => hlimit (congrArg BitVec.toNat h)
    exact (step_of_input hw hi).trans (congrArg _
      (attempt_rejected_drops (s := { s with inputs := rest }) hq hne hlast))
  · rintro rfl hmore
    have hmore' := hmore.imp_left fun h => BitVec.eq_of_toNat_eq (y := 0#16) h
    have hfull : s.txTries.toNat = 65535 ↔ s.txTries = 0xFFFF#16 := BitVec.toNat_inj (y := 0xFFFF#16)
    simp only [hfull]
    exact (step_of_input hw hi).trans (congrArg _
      (attempt_rejected_counts (s := { s with inputs := rest }) hq hmore'))

end Sys2Proof.Machine

/-! PROOFS. Reset and hazards (70_reset_and_hazards.md): what a reset writes, what the registers read after one, and the
tick on which a waiting state expires. -/

namespace Sys2Proof.Machine

/-! ### What a reset writes (70_reset_and_hazards.md R230) -/

theorem exec_sreset (s : State) : exec .sreset s = .next (resetState s) := rfl

theorem step_powerOnReset {s : State} {rest : List Input} (hw : s.cfg.WellFormed)
    (hi : s.inputs = .powerOnReset :: rest) : step s = .next (resetState { s with inputs := rest }) :=
  step_of_input hw hi

/-- Settles O13: both resets are `resetState`, whose fields are the listed values. -/
theorem resetWritesEveryField : Obligations.ResetWritesEveryField := by
  intro s rest written
  refine ⟨⟨s.inputs, s.outputs, exec_sreset s⟩, fun hw hi => ⟨rest, s.outputs, step_powerOnReset hw hi⟩, ?_⟩
  intro ins outs a
  exact Memory.read_nil a

/-! ### What the registers read after a reset (70_reset_and_hazards.md R231) -/

/-- LANGUAGE is the one register whose reset value comes from the configuration. -/
theorem regRead_resetWith_of_ne_language (c : Cfg) {a : Byte} (h : a ≠ 0x1A#8) :
    regRead (State.resetWith c) a = regRead State.reset a := by
  unfold regRead
  split
  any_goals rfl
  next ha => exact absurd (BitVec.eq_of_toNat_eq ha) h

/-- R231's table for EX, over all 256 addresses. -/
theorem regRead_reset (a : Byte) :
    regRead State.reset a =
      if a = 0x04#8 then 0x04#8 else if a = 0x17#8 ∨ a = 0x19#8 then 0x80#8
      else if a = 0x1A#8 then 0x02#8 else 0#8 := by
  revert a
  decide

/-- Settles O14: LANGUAGE reads the configuration's value, every other address what it reads with EX. -/
theorem resetRegisterReads : Obligations.ResetRegisterReads := by
  refine ⟨fun c a => ?_, rfl⟩
  by_cases hlang : a = 0x1A#8
  · subst hlang
    rfl
  · rw [regRead_resetWith_of_ne_language c hlang, regRead_reset, if_neg hlang, if_neg hlang]

/-! ### The wait limit (70_reset_and_hazards.md R247, 43_schedule.md R162) -/

/-- `n` ticks after `s`, whose waiting state was just entered, the deadline has counted them and not expired. -/
structure Waited (s : State) (n : Nat) (t : State) : Prop where
  cfg : t.cfg = s.cfg
  lstate : t.lstate = s.lstate
  waitCnt : t.waitCnt.toNat = n
  err : t.err = s.err

namespace Waited

variable {s t : State} {n : Nat}

theorem counting (h : Waited s n t) (hc : s.cfg.waitLimit ≠ 0#16 ∧ s.lstate.waiting = true) :
    t.cfg.waitLimit ≠ 0#16 ∧ t.lstate.waiting = true := by
  rwa [h.cfg, h.lstate]

theorem afterTick_of_lt (h : Waited s n t) (hc : s.cfg.waitLimit ≠ 0#16 ∧ s.lstate.waiting = true)
    (hlt : n + 1 < s.cfg.waitLimit.toNat) : Waited s (n + 1) (afterTick t) := by
  have hbound := s.cfg.waitLimit.isLt
  have hcount : (t.waitCnt + 1#16).toNat = n + 1 := by
    rw [BitVec.toNat_add, h.waitCnt]
    exact Nat.mod_eq_of_lt (Nat.lt_trans hlt hbound)
  rw [Machine.afterTick_of_lt (h.counting hc) (by rwa [h.waitCnt, h.cfg])]
  exact ⟨h.cfg, h.lstate, hcount, h.err⟩

theorem afterTick_of_eq (h : Waited s n t) (hc : s.cfg.waitLimit ≠ 0#16 ∧ s.lstate.waiting = true)
    (heq : n + 1 = s.cfg.waitLimit.toNat) :
    afterTick t = raise .linkTimeout (linkRestart (withTickFrames t)) :=
  afterTick_of_le (h.counting hc) (by rw [h.waitCnt, h.cfg, heq])

end Waited

theorem execTimes_tick_waited {s : State} (hc : s.cfg.waitLimit ≠ 0#16 ∧ s.lstate.waiting = true)
    (hzero : s.waitCnt = 0#16) {n : Nat} (hn : n < s.cfg.waitLimit.toNat) :
    ∃ t, execTimes .tick n s = .next t ∧ Waited s n t := by
  induction n with
  | zero => exact ⟨s, rfl, rfl, rfl, congrArg BitVec.toNat hzero, rfl⟩
  | succ n ih =>
    obtain ⟨t, hrun, ht⟩ := ih (Nat.lt_of_succ_lt hn)
    exact ⟨afterTick t, (execTimes_succ_last hrun).trans (exec_tick t), ht.afterTick_of_lt hc hn⟩

/-- Settles O43, by induction on the ticks below the limit; the tick that reaches it finds one less counted. -/
theorem waitingStateExpiresAtTheLimit : Obligations.WaitingStateExpiresAtTheLimit := by
  intro s n _ hlimit hzero hwait
  have hc : s.cfg.waitLimit ≠ 0#16 ∧ s.lstate.waiting = true := ⟨hlimit, (waiting_iff s.lstate).mpr hwait⟩
  refine ⟨fun hn => ?_, fun hn => ?_⟩
  · obtain ⟨t, hrun, ht⟩ := execTimes_tick_waited hc hzero hn
    exact ⟨t, hrun, ht.lstate, ht.waitCnt, ht.err⟩
  · have hpos := (ne_zero_iff_one_le_toNat s.cfg.waitLimit).mp hlimit
    obtain ⟨m, rfl⟩ := Nat.exists_eq_add_one.mpr (hn ▸ hpos)
    obtain ⟨t, hrun, ht⟩ := execTimes_tick_waited hc hzero (hn ▸ Nat.lt_add_one m)
    refine ⟨afterTick t, (execTimes_succ_last hrun).trans (exec_tick t), ?_⟩
    rw [ht.afterTick_of_eq hc hn]
    exact ⟨rfl, rfl, rfl, rfl, congrArg (· ||| Err.mask .linkTimeout) ht.err⟩

end Sys2Proof.Machine
